-- ==== Sys2Proof/Word.lean ====
section
/-! DEFINITION. The word types of the SD-ADC serial engine (00_scope.md R8: bit 0 is the least significant bit). -/

namespace Sys2Proof

/-- A command word, an engine register, `RESULT` (30_encoding.md R90, 10_state.md R25, R28). -/
abbrev Word := BitVec 32

/-- An operand field of a command word, a command code, a payload (30_encoding.md R90, R91). -/
abbrev Byte := BitVec 8

/-- The level of a line, or one bit on the wire: `true` is 1, high (00_scope.md R9). -/
abbrev Level := Bool

end Sys2Proof
end

