-- ==== Sys2Proof/Syntax.lean ====
section
/-! DEFINITION. The instructions: the ten commands of 30_encoding.md R92, one constructor per row of the opcode table. -/

namespace Sys2Proof

/-- A command with the operand fields its format has (30_encoding.md R91, R92). -/
inductive Instr where
  /-- Format N: sample one bit in one clock pulse (40_bit_transport.md R130). -/
  | rdbit
  /-- Format B: drive one bit in one clock pulse; the bit is `data[0]`, and `data[7:1]` must be 0
  (40_bit_transport.md R131, 30_encoding.md R91; WellFormed checks it). -/
  | wrbit (data : Byte)
  /-- Format N: one clock pulse (40_bit_transport.md R132). -/
  | pulse
  /-- Format N: the ready-wait (41_ready_gate.md R150). -/
  | waitrdy
  /-- Format N: the raw 24-bit read (42_frame_codec.md R160). -/
  | rawrd
  /-- Format RD: register write (42_frame_codec.md R167). -/
  | regwr (reg data : Byte)
  /-- Format R: register read (42_frame_codec.md R169). -/
  | regrd (reg : Byte)
  /-- Format N: power-cycle the chip (43_system_ops.md R193). -/
  | chiprst
  /-- Format N: acquire the pins (43_system_ops.md R190). -/
  | attach
  /-- Format N: release the pins (43_system_ops.md R192). -/
  | detach
  deriving DecidableEq, Repr

end Sys2Proof
end

