-- ==== Sys2Proof/WellFormed.lean ====
section
/-! DEFINITION. Which instructions have an encoding that selects a row of 30_encoding.md R92.

Every operand is a field of its own width, so the one thing a term can get wrong is the format B
operand: `data[7:1]` must be 0 (30_encoding.md R91). -/

namespace Sys2Proof

/-- Format B (30_encoding.md R91): `data[7:1]` must be 0. -/
def fitsFormatB (data : Byte) : Bool := data &&& 0xFE#8 == 0#8

/-- The operand checks of 30_encoding.md R91, one line per format. -/
def Instr.wellFormed : Instr → Bool
  | .rdbit => true
  | .wrbit data => fitsFormatB data
  | .pulse => true
  | .waitrdy => true
  | .rawrd => true
  | .regwr _ _ => true
  | .regrd _ => true
  | .chiprst => true
  | .attach => true
  | .detach => true

end Sys2Proof
end

