-- ==== Sys2Proof/Decode.lean ====
section
/-! DEFINITION. The command word: its fields, the decoder and the encoder (30_encoding.md R90 to R93).

A command word reaches the engine whole; there is no byte order to choose (20_memory.md R67, 92_eei_decisions.md
D27; log 18). -/

namespace Sys2Proof

/-- `op`, bits 31:24 (30_encoding.md R90). -/
def opField (w : Word) : Byte := w.extractLsb' 24 8

/-- `zero`, bits 23:16 (30_encoding.md R90). -/
def zeroField (w : Word) : Byte := w.extractLsb' 16 8

/-- `reg`, bits 15:8 (30_encoding.md R90). -/
def regField (w : Word) : Byte := w.extractLsb' 8 8

/-- `data`, bits 7:0 (30_encoding.md R90). -/
def dataField (w : Word) : Byte := w.extractLsb' 0 8

/-- The word with these fields and a `zero` field of 0 (30_encoding.md R90). -/
def commandWord (op reg data : Byte) : Word := op ++ 0#8 ++ reg ++ data

/-- Why a word selects no row of 30_encoding.md R92 (R93). -/
inductive DecodeError where
  /-- An `op` value that is not listed. -/
  | unknownOp (op : Byte)
  /-- A non-zero `zero` field. -/
  | nonZeroZeroField (zero : Byte)
  /-- An operand field, or a bit of one, that the format says must be 0 is not 0. -/
  | forbiddenOperand (reg data : Byte)
  deriving DecidableEq, Repr

/-- Format N: no operand, `reg` and `data` must be 0 (30_encoding.md R91). -/
def decodeN (i : Instr) (reg data : Byte) : Except DecodeError Instr :=
  if reg = 0#8 ∧ data = 0#8 then .ok i else .error (.forbiddenOperand reg data)

/-- Format B: `data[7:1]` and `reg` must be 0 (30_encoding.md R91). -/
def decodeB (f : Byte → Instr) (reg data : Byte) : Except DecodeError Instr :=
  if reg = 0#8 ∧ fitsFormatB data = true then .ok (f data) else .error (.forbiddenOperand reg data)

/-- Format R: `data` must be 0 (30_encoding.md R91). -/
def decodeR (f : Byte → Instr) (reg data : Byte) : Except DecodeError Instr :=
  if data = 0#8 then .ok (f reg) else .error (.forbiddenOperand reg data)

/-- The decoder: the row of 30_encoding.md R92 that the word selects, or why it selects none (R93). -/
def decode (w : Word) : Except DecodeError Instr :=
  let op := opField w
  let reg := regField w
  let data := dataField w
  if zeroField w ≠ 0#8 then .error (.nonZeroZeroField (zeroField w))
  else if op = 0x01#8 then decodeN .rdbit reg data
  else if op = 0x02#8 then decodeB .wrbit reg data
  else if op = 0x03#8 then decodeN .pulse reg data
  else if op = 0x04#8 then decodeN .waitrdy reg data
  else if op = 0x10#8 then decodeN .rawrd reg data
  else if op = 0x11#8 then .ok (.regwr reg data)
  else if op = 0x12#8 then decodeR .regrd reg data
  else if op = 0x20#8 then decodeN .chiprst reg data
  else if op = 0x30#8 then decodeN .attach reg data
  else if op = 0x31#8 then decodeN .detach reg data
  else .error (.unknownOp op)

/-- The word of an instruction (30_encoding.md R90 to R92). -/
def encode : Instr → Word
  | .rdbit => commandWord 0x01 0 0
  | .wrbit data => commandWord 0x02 0 data
  | .pulse => commandWord 0x03 0 0
  | .waitrdy => commandWord 0x04 0 0
  | .rawrd => commandWord 0x10 0 0
  | .regwr reg data => commandWord 0x11 reg data
  | .regrd reg => commandWord 0x12 reg 0
  | .chiprst => commandWord 0x20 0 0
  | .attach => commandWord 0x30 0 0
  | .detach => commandWord 0x31 0 0

/-- The `mask` of an instruction's row (30_encoding.md R92). -/
def Instr.rowMask : Instr → Word
  | .rdbit => 0xFFFFFFFF
  | .wrbit _ => 0xFFFFFFFE
  | .pulse => 0xFFFFFFFF
  | .waitrdy => 0xFFFFFFFF
  | .rawrd => 0xFFFFFFFF
  | .regwr _ _ => 0xFFFF0000
  | .regrd _ => 0xFFFF00FF
  | .chiprst => 0xFFFFFFFF
  | .attach => 0xFFFFFFFF
  | .detach => 0xFFFFFFFF

/-- The `match` of an instruction's row: a word `w` selects the row when `w & mask = match` (30_encoding.md R92). -/
def Instr.rowMatch : Instr → Word
  | .rdbit => 0x01000000
  | .wrbit _ => 0x02000000
  | .pulse => 0x03000000
  | .waitrdy => 0x04000000
  | .rawrd => 0x10000000
  | .regwr _ _ => 0x11000000
  | .regrd _ => 0x12000000
  | .chiprst => 0x20000000
  | .attach => 0x30000000
  | .detach => 0x31000000

/-- The word whose low `nbits` bits are those of `w` and whose bits above are 0. A command has one
length, 32 bits (30_encoding.md R90). -/
def tableWord (nbits w : Nat) : Word := BitVec.ofNat 32 (w % 2 ^ nbits)

/-- The instruction the decoder reads from an instruction whose bits are `w`, numbered as the opcode table numbers them. -/
def decodeTableWord (nbits w : Nat) : Option Instr :=
  match decode (tableWord nbits w) with
  | .ok i => some i
  | .error _ => none

end Sys2Proof
end

