-- ==== Sys2Proof/Config.lean ====
section
/-! DEFINITION. The constants the spec names, the reset values its table leaves OPEN, and the free values.

An `opaque` constant has no body: nothing can be proved of its value, so a claim about it holds for every value. -/

namespace Sys2Proof

/-- Pulses that enter command mode, `N_ENTER` (00_scope.md R5, 30_encoding.md R96, 42_frame_codec.md R166). -/
def Config.nEnter : Nat := 1

/-- Pulses that leave command mode, `N_EXIT` (00_scope.md R5, 30_encoding.md R96, 42_frame_codec.md R167). -/
def Config.nExit : Nat := 1

/-- Read cells that carry the pending sample (30_encoding.md R95, R96, R97). -/
def Config.sampleBits : Nat := 24

/-- Cells that carry a payload or a register byte (30_encoding.md R96, R97). -/
def Config.payloadBits : Nat := 8

/-- Ticks in a second: a tick is one microsecond (10_state.md R27). -/
def Config.ticksPerSecond : Nat := 1000000

/-- The source's label of the pulse that enters command mode; a name only, nothing is computed from it
(00_scope.md R7, 90_conflicts.md C1; log 24). -/
def Config.ordinalEnter : Nat := 29

/-- The source's label of the pulse that leaves command mode; a name only (00_scope.md R7, 90_conflicts.md C1; log 24). -/
def Config.ordinalExit : Nat := 37

/-- `CMD_WIDTH` of profile P4 (00_scope.md R6). -/
def Config.widthP4 : BitVec 4 := 4

/-- `CMD_WR` of profile P4 (00_scope.md R6). -/
def Config.codeP4 : Byte := 0x08

/-- `REG_MASK` of profile P4 (00_scope.md R6). -/
def Config.maskP4 : Byte := 0x07

/-- `CMD_WIDTH` of profile P7 (00_scope.md R6). -/
def Config.widthP7 : BitVec 4 := 7

/-- `CMD_WR` of profile P7 (00_scope.md R6). -/
def Config.codeP7 : Byte := 0x65

/-- `REG_MASK` of profile P7 (00_scope.md R6). -/
def Config.maskP7 : Byte := 0x00

/-- `TRAIL_PULSES` of the basic variant (00_scope.md R6). -/
def Config.trailBasic : BitVec 4 := 0

/-- `TRAIL_PULSES` of the extended variant (00_scope.md R6). -/
def Config.trailExtended : BitVec 4 := 3

/-- `RECOVER_MAX` of the extended variant with its optional recovery (00_scope.md R6). -/
def Config.recoverExtended : BitVec 4 := 5

/-- `RECOVER_MAX` of the basic variant, and of the extended one without its optional recovery (00_scope.md R6). -/
def Config.recoverNone : BitVec 4 := 0

/-- The output rate in Hz of rate code 0 (00_scope.md R7, 44_host_config_and_sampling.md R214). -/
def Config.rateOfCode0 : Nat := 10

/-- The output rate in Hz of rate code 1. -/
def Config.rateOfCode1 : Nat := 40

/-- The output rate in Hz of rate code 2. -/
def Config.rateOfCode2 : Nat := 640

/-- The output rate in Hz of rate code 3. -/
def Config.rateOfCode3 : Nat := 1280

/-- The multiplier of gain code 0 (44_host_config_and_sampling.md R213); times `scaleBase` it is 2^23. -/
def Config.gainOfCode0 : Nat := 1

/-- The multiplier of gain code 1; times `scaleBase` it is 2^24. -/
def Config.gainOfCode1 : Nat := 2

/-- The multiplier of gain code 2; times `scaleBase` it is 2^29. -/
def Config.gainOfCode2 : Nat := 64

/-- The multiplier of gain code 3; times `scaleBase` it is 2^30. -/
def Config.gainOfCode3 : Nat := 128

/-- The base of the scale denominators, 2^23 (44_host_config_and_sampling.md R213, R217). -/
def Config.scaleBase : Nat := 8388608

/-- The loop interval as a percentage of the nominal sample period (44_host_config_and_sampling.md R226). -/
def Config.loopPercent : Nat := 95

/-- The scale numerator of the source's scenario (44_host_config_and_sampling.md R212, R236). -/
def Config.vrefExtended : Nat := 3300

/-- Reset value of CR2 `TIMEOUT`: 100 ms in ticks (10_state.md R45). -/
def Config.timeoutReset : Word := 100000#32

/-- DESIGN CHOICE (log 9), unsafe: `RESET_PROFILE` is OPEN (10_state.md R45); CR0 `MODE` is zero at reset. -/
def Config.modeReset : Word := 0#32

/-- DESIGN CHOICE (log 9), unsafe: `RESET_PROFILE` is OPEN (10_state.md R45); CR1 `CMDCODE` is zero at reset. -/
def Config.cmdcodeReset : Word := 0#32

/-- DESIGN CHOICE (log 10), unsafe: `T_HIGH_RST` is OPEN (10_state.md R45). -/
def Config.tHighReset : Word := 0#32

/-- DESIGN CHOICE (log 10), unsafe: `T_LOW_RST` is OPEN (10_state.md R45). -/
def Config.tLowReset : Word := 0#32

/-- DESIGN CHOICE (log 10), unsafe: `T_POLL_RST` is OPEN and "at least 1" (10_state.md R45). -/
def Config.tPollReset : Word := 1#32

/-- DESIGN CHOICE (log 10), unsafe: `T_RESET_RST` is OPEN (10_state.md R45). -/
def Config.tResetReset : Word := 0#32

/-- DESIGN CHOICE (log 10), unsafe: `T_STARTUP_RST` is OPEN (10_state.md R45). -/
def Config.tStartupReset : Word := 0#32

/-- The level the data-out line answers to the `n`-th `SMP()` that no script answers: an input
"free at every sample, under no law" (20_memory.md R64). Free value, log 4, safe. -/
opaque Config.lineLevel : Nat → Bool

/-- The level the data-out line answers to the `n`-th host read of SR6 `PINS` (10_state.md R42,
20_memory.md R64). Free value, log 22, safe. -/
opaque Config.pinReadLevel : Nat → Bool

/-- The ticks the `n`-th micro-event takes beyond its minimum (20_memory.md R73, admitted timing).
Free value, log 5, safe. -/
opaque Config.slack : Nat → Nat

/-- The platform's answer to the `n`-th `pin_grant()` (43_system_ops.md R191). Free value, log 6, safe. -/
opaque Config.pinGrant : Nat → Bool

/-- Which of the waiting requesters the `n`-th arbitration accepts (20_memory.md R76). Free value, log 7, safe. -/
opaque Config.arbiter : Nat → Nat

/-- What `DEADLINE` holds between operations (10_state.md R25). Free value, log 8, safe. -/
opaque Config.staleDeadline : Nat → Nat

end Sys2Proof
end

