-- ==== Sys2Proof/Machine/State.lean ====
section
/-! DEFINITION. The state of the SD-ADC serial engine, its stops, and the state after reset.

Everything 10_state.md gives the machine is here, with the sequencer position held as the list of what is still
to perform (R26), the host port (20_memory.md R75, R76) and the environment's coming inputs. All of it is plain data. -/

namespace Sys2Proof.Machine

/-- `ENG`, the engine state (10_state.md R21). -/
inductive Eng where
  /-- No Device Handle exists, no pin is driven. -/
  | detached
  /-- Attached, no operation in progress. -/
  | idle
  /-- One operation in progress; it owns the engine. -/
  | busy
  deriving DecidableEq, Repr

/-- The direction of the shared data pin (10_state.md R23): `in` = 0, `out` = 1. -/
inductive Dir where
  | input
  | output
  deriving DecidableEq, Repr

/-- The status codes (30_encoding.md R102); codes 5 to 7 are reserved and never produced. -/
inductive Status where
  | ok
  | timeout
  | invalidArgument
  | busy
  | resourceUnavailable
  deriving DecidableEq, Repr

/-- The phases of an operation, `PH_IDLE` to `PH_DETACH` (10_state.md R26). -/
inductive Phase where
  | idle
  | check
  | wait
  | recheck
  | data
  | trail
  | recover
  | enter
  | cmd
  | payload
  | turn
  | rdata
  | exit
  | prim
  | reset
  | attach
  | detach
  deriving DecidableEq, Repr

/-- `SEQ`, the sequencer position (10_state.md R26): phase, index of the cell, index of the next micro-event in it. -/
structure Seq where
  phase : Phase
  cnt : Nat
  sub : Nat
  deriving DecidableEq, Repr

/-- Which timing register a `HOLD` takes its minimum from: CR3 to CR7 (10_state.md R33 to R37). -/
inductive Interval where
  | high
  | low
  | poll
  | reset
  | startup
  deriving DecidableEq, Repr

/-- What an operation completes with when it succeeds (60_exceptions.md R254): whether it returns a value,
and where that value stands, and the two operations that change `ENG`. -/
inductive Completion where
  /-- `complete(Ok)`. -/
  | plain
  /-- `complete(Ok, zext_32(b))` of RDBIT (40_bit_transport.md R130). -/
  | bit
  /-- `complete(Ok, r)` of RAWRD (42_frame_codec.md R160). -/
  | sample
  /-- `complete(Ok, zext_32(v))` of REGRD (42_frame_codec.md R169). -/
  | byte
  /-- `complete(Ok)` of ATTACH: ENG becomes IDLE. -/
  | attached
  /-- `complete(Ok)` of DETACH: ENG becomes DETACHED. -/
  | detached
  deriving DecidableEq, Repr

/-- One action of the sequencer. The first group are the micro-events of 00_scope.md R9 and the three loops and
tests built on one of them; the second group are register transfers of the pseudocode, which take no time. -/
inductive Act where
  /-- `CLK(l)`. -/
  | clk (l : Level)
  /-- `DAT(l)`, `l` the physical level. -/
  | dat (l : Level)
  /-- `DIR(d)`; it stands in a plan only when `SHARED_PIN = 1`. -/
  | dir (d : Dir)
  /-- `HOLD(d)`, `d` the register the interval names. -/
  | hold (i : Interval)
  /-- `b <- SMP()` inside a read cell (40_bit_transport.md R130). -/
  | smp
  /-- `DEADLINE <- TIME() + T` (41_ready_gate.md R151). -/
  | setDeadline
  /-- `s <- SMP(); if s = 0 then return Ok` of the ready-wait loop (41_ready_gate.md R151). -/
  | poll
  /-- `if TIME() >= DEADLINE then return Timeout`, then the sleep and the next turn (41_ready_gate.md R151). -/
  | expire
  /-- `if SMP() = 1 then complete(Busy)` (42_frame_codec.md R163). -/
  | recheck
  /-- One test of the recovery loop (42_frame_codec.md R165). -/
  | recover
  /-- The verdict of `PH_CHECK` (60_exceptions.md R252): a status completes the operation. -/
  | check (verdict : Option Status)
  /-- `g <- pin_grant()` and its test (43_system_ops.md R190). -/
  | grant
  /-- The latches set in one step by ATTACH (43_system_ops.md R190). -/
  | acquire
  /-- `DRIVE <- 0` (43_system_ops.md R192). -/
  | release
  /-- The beginning of a phase: `BITCNT <- 0` (10_state.md R25; log 14). -/
  | startPhase
  /-- The end of a cell: one more cell done (10_state.md R25; log 14). -/
  | endCell
  /-- `SHIFT <- 0` (42_frame_codec.md R161). -/
  | clearShift
  /-- `SHIFT <- ((SHIFT << 1) | b) mod 2^24` (42_frame_codec.md R161). -/
  | shiftIn
  /-- `r <- sext_32(v)` (42_frame_codec.md R160, R164). -/
  | latchSample
  /-- `RECN <- 0` (42_frame_codec.md R160). -/
  | clearRecn
  /-- `RECN <- RECN + 1` (42_frame_codec.md R160). -/
  | bumpRecn
  /-- `complete(Ok)` or `complete(Ok, value)` (60_exceptions.md R254). -/
  | complete (c : Completion)
  deriving DecidableEq, Repr

/-- An action at its sequencer position (10_state.md R26). -/
structure Item where
  seq : Seq
  act : Act
  deriving DecidableEq, Repr

/-- What an observer of the pins sees of one micro-event (10_state.md R24, 95_test_vectors.md section 1). -/
inductive PinEvent where
  | clk (l : Level)
  | dat (l : Level)
  | dir (d : Dir)
  /-- A sample and the answer. -/
  | smp (l : Level)
  /-- A hold and its minimum in ticks. -/
  | hold (ticks : Nat)
  /-- A `TIME()` read; it touches no pin. -/
  | time
  /-- ATTACH takes the pins. -/
  | acquire
  /-- DETACH, or the engine reset, releases the pins. -/
  | release
  deriving DecidableEq, Repr

/-- An entry of the trace: the event and the ticks it took. -/
structure Event where
  pin : PinEvent
  took : Nat
  deriving DecidableEq, Repr

/-- The pin latches (10_state.md R23). -/
structure Pins where
  clkO : Level
  dataO : Level
  dataDir : Dir
  drive : Bool
  deriving DecidableEq, Repr

/-- The general registers (10_state.md R25). `deadline` is a natural number (R27, 42_frame_codec.md R173 g; log 3). -/
structure Regs where
  shift : BitVec 24
  result : Word
  bitcnt : BitVec 5
  recn : BitVec 4
  op : Byte
  reg : Byte
  data : Byte
  deadline : Nat
  deriving DecidableEq, Repr

/-- The configuration registers CR0 to CR7 (10_state.md R28 to R37). -/
structure ConfigRegs where
  mode : Word
  cmdcode : Word
  timeout : Word
  tHigh : Word
  tLow : Word
  tPoll : Word
  tReset : Word
  tStartup : Word
  deriving DecidableEq, Repr

/-- `CODE` of SR0, `LASTOP` of SR2 and SR3 `LASTTMO` (10_state.md R38, R40). -/
structure StatusRegs where
  code : Status
  lastop : Byte
  lasttmo : Word
  deriving DecidableEq, Repr

/-- What the running operation keeps: the `TIMEOUT` and the `ENG` of its acceptance (20_memory.md R75,
60_exceptions.md R254), whose command it is, the bit `b` of `ReadBit()` (40_bit_transport.md R130) and the value
`r` of RAWRD (42_frame_codec.md R160). Log 26, log 29. -/
structure Latches where
  tmo : Word
  heldEng : Eng
  owner : Nat
  bit : Level
  value : Word
  deriving DecidableEq, Repr

/-- An input from outside: the answers a run's script gives, in order, and how many were drawn. Beyond the script
the answer is a free value at the draw number (20_memory.md R64, R73). -/
structure Source (α : Type) where
  script : List α
  drawn : Nat
  deriving DecidableEq, Repr

/-- The environment's coming answers (10_state.md R44). -/
structure Env where
  samples : Source Level
  pinReads : Source Level
  slacks : Source Nat
  grants : Source Bool
  picks : Source Nat
  staleDeadlines : Nat
  deriving DecidableEq, Repr

/-- A command word presented by a requester (20_memory.md R75, R76; log 29). -/
structure HostCmd where
  who : Nat
  word : Word
  deriving DecidableEq, Repr

/-- A register number of the host's: CR0, CR1, ... or SR0, SR1, ... (20_memory.md R62). -/
inductive RegNo where
  | cr (n : Nat)
  | sr (n : Nat)
  deriving DecidableEq, Repr

/-- An action of the host or of time (10_state.md R20 c and d). -/
inductive HostAct where
  /-- A command word is presented (20_memory.md R75). -/
  | present (c : HostCmd)
  /-- A register is written, `SETCR` (43_system_ops.md R194). -/
  | write (r : RegNo) (v : Word)
  /-- A register is read, `GETSR` or a read of a CR (43_system_ops.md R194). -/
  | read (who : Nat) (r : RegNo)
  /-- The engine reset (70_reset_and_hazards.md R281). -/
  | engineReset
  /-- Time passes (10_state.md R20 d). -/
  | pass (ticks : Nat)
  deriving DecidableEq, Repr

/-- An action and how many sequencer items pass before it lands (log 11). -/
structure HostIn where
  after : Nat
  act : HostAct
  deriving DecidableEq, Repr

/-- The response to a command (20_memory.md R75, 30_encoding.md R103) and the requester it goes to. -/
structure Response where
  who : Nat
  status : Status
  value : Word
  recn : BitVec 4
  deriving DecidableEq, Repr

/-- The value a host register read returned (10_state.md R28). -/
structure HostRead where
  who : Nat
  reg : RegNo
  value : Word
  deriving DecidableEq, Repr

/-- The machine: the engine's registers, the host port and the environment's coming inputs. -/
structure State where
  /-- `ENG` (10_state.md R21). -/
  eng : Eng
  /-- What the running operation still has to perform: `SEQ` is the position of its head (10_state.md R26). -/
  todo : List Item
  pins : Pins
  regs : Regs
  /-- `NOW` in ticks (10_state.md R27; log 3). -/
  now : Nat
  cfg : ConfigRegs
  status : StatusRegs
  latch : Latches
  env : Env
  /-- Commands presented and not yet accepted (20_memory.md R76). -/
  waiting : List HostCmd
  /-- Who presents the command being accepted (log 29). -/
  requester : Nat
  /-- The host's coming actions (log 11). -/
  hostIn : List HostIn
  /-- What was done on the pins, oldest first (10_state.md R24; log 15). -/
  trace : List Event
  /-- The responses delivered, oldest first (20_memory.md R75). -/
  responses : List Response
  /-- The values host reads returned, oldest first (43_system_ops.md R194). -/
  reads : List HostRead
  deriving DecidableEq, Repr

/-- No step of this machine stops with a fault: every failure is a completed command (60_exceptions.md R250) and
nothing is ever stuck (70_reset_and_hazards.md R299), so the type has no constructor and nobody raises it. Safe. -/
inductive Fault
  deriving DecidableEq, Repr

/-- Why a command has no meaning in the model. -/
inductive Refusal where
  /-- Raised by an arm of `exec` whose instruction has no meaning yet; no arm raises it now. Safe. -/
  | notModelled (mnemonic : String)
  deriving DecidableEq, Repr

/-- `SEQ` (10_state.md R26): the position of the next item, (`PH_IDLE`, 0, 0) when there is none (R254). -/
def State.seq (s : State) : Seq :=
  match s.todo with
  | [] => ⟨.idle, 0, 0⟩
  | it :: _ => it.seq

/-- The machine after the engine reset: 10_state.md R45, with the values it leaves open as logs 8 to 10 and 26
name them, nothing presented, nothing scheduled and no script for the environment. -/
def State.reset : State where
  eng := .detached
  todo := []
  pins := { clkO := false, dataO := false, dataDir := .input, drive := false }
  regs :=
    { shift := 0, result := 0, bitcnt := 0, recn := 0, op := 0, reg := 0, data := 0, deadline := 0 }
  now := 0
  cfg :=
    { mode := Config.modeReset, cmdcode := Config.cmdcodeReset, timeout := Config.timeoutReset
      tHigh := Config.tHighReset, tLow := Config.tLowReset, tPoll := Config.tPollReset
      tReset := Config.tResetReset, tStartup := Config.tStartupReset }
  status := { code := .ok, lastop := 0, lasttmo := 0 }
  latch := { tmo := 0, heldEng := .detached, owner := 0, bit := false, value := 0 }
  env :=
    { samples := ⟨[], 0⟩, pinReads := ⟨[], 0⟩, slacks := ⟨[], 0⟩, grants := ⟨[], 0⟩, picks := ⟨[], 0⟩
      staleDeadlines := 0 }
  waiting := []
  requester := 0
  hostIn := []
  trace := []
  responses := []
  reads := []

end Sys2Proof.Machine
end

