-- ==== Sys2Proof/Machine/Operands.lean ====
section
/-! DEFINITION. Configuration fields, operand forms and the arithmetic of the datapath (42_frame_codec.md R173). -/

namespace Sys2Proof.Machine

/-! ### Fields of CR0 `MODE` and CR1 `CMDCODE` (10_state.md R30, R31) -/

/-- `SHARED_PIN`, CR0 bit 0. -/
def ConfigRegs.sharedPin (c : ConfigRegs) : Bool := c.mode.getLsbD 0

/-- `DIN_INVERT`, CR0 bit 1. -/
def ConfigRegs.dinInvert (c : ConfigRegs) : Bool := c.mode.getLsbD 1

/-- `BUSY_RECHECK`, CR0 bit 2. -/
def ConfigRegs.busyRecheck (c : ConfigRegs) : Bool := c.mode.getLsbD 2

/-- `TRAIL_PULSES`, CR0 bits 11:8. -/
def ConfigRegs.trailPulses (c : ConfigRegs) : BitVec 4 := c.mode.extractLsb' 8 4

/-- `RECOVER_MAX`, CR0 bits 15:12. -/
def ConfigRegs.recoverMax (c : ConfigRegs) : BitVec 4 := c.mode.extractLsb' 12 4

/-- `CMD_WIDTH`, CR0 bits 19:16. -/
def ConfigRegs.cmdWidth (c : ConfigRegs) : BitVec 4 := c.mode.extractLsb' 16 4

/-- `CMD_WR`, CR1 bits 7:0. -/
def ConfigRegs.cmdWr (c : ConfigRegs) : Byte := c.cmdcode.extractLsb' 0 8

/-- `CMD_RD`, CR1 bits 15:8. -/
def ConfigRegs.cmdRd (c : ConfigRegs) : Byte := c.cmdcode.extractLsb' 8 8

/-- `REG_MASK`, CR1 bits 23:16. -/
def ConfigRegs.regMask (c : ConfigRegs) : Byte := c.cmdcode.extractLsb' 16 8

/-- The minimum of a `HOLD` in ticks: CR3 to CR7 (10_state.md R33 to R37, 40_bit_transport.md R134). -/
def ConfigRegs.interval (c : ConfigRegs) : Interval → Nat
  | .high => c.tHigh.toNat
  | .low => c.tLow.toNat
  | .poll => c.tPoll.toNat
  | .reset => c.tReset.toNat
  | .startup => c.tStartup.toNat

/-- The defined bits of CR0 (10_state.md R30). -/
def modeMask : Word := 0x000FFF07#32

/-- The defined bits of CR1 (10_state.md R31). -/
def cmdcodeMask : Word := 0x00FFFFFF#32

/-! ### Profiles (00_scope.md R6) -/

/-- The command shape: `CMD_WIDTH`, `CMD_WR` and `REG_MASK` set, every other bit kept. -/
def ConfigRegs.withShape (c : ConfigRegs) (width : BitVec 4) (code mask : Byte) : ConfigRegs :=
  { c with
    mode := c.mode &&& 0xFFF0FFFF#32 ||| width.setWidth 32 <<< 16
    cmdcode := c.cmdcode &&& 0xFF00FF00#32 ||| code.setWidth 32 ||| mask.setWidth 32 <<< 16 }

/-- Profile P4. -/
def ConfigRegs.profileP4 (c : ConfigRegs) : ConfigRegs := c.withShape Config.widthP4 Config.codeP4 Config.maskP4

/-- Profile P7. -/
def ConfigRegs.profileP7 (c : ConfigRegs) : ConfigRegs := c.withShape Config.widthP7 Config.codeP7 Config.maskP7

/-- The tail of a raw read: `TRAIL_PULSES` and `RECOVER_MAX` set, every other bit kept. -/
def ConfigRegs.withTail (c : ConfigRegs) (trail recover : BitVec 4) : ConfigRegs :=
  { c with mode := c.mode &&& 0xFFFF00FF#32 ||| trail.setWidth 32 <<< 8 ||| recover.setWidth 32 <<< 12 }

/-- The basic variant, with the bound of the ready-wait it fixes. -/
def ConfigRegs.basic (c : ConfigRegs) : ConfigRegs :=
  { c.withTail Config.trailBasic Config.recoverNone with timeout := Config.timeoutReset }

/-- The extended variant, with or without its optional recovery loop; its `TIMEOUT` is set for each call. -/
def ConfigRegs.extended (c : ConfigRegs) (recovery : Bool) (timeout : Word) : ConfigRegs :=
  { c.withTail Config.trailExtended (if recovery then Config.recoverExtended else Config.recoverNone) with
    timeout := timeout }

/-! ### Operands -/

/-- The bit operand of WRBIT, `b = data[0]` (30_encoding.md R91). -/
def bitOperand (data : Byte) : Level := data.getLsbD 0

/-- An address is legal when `reg & ~REG_MASK = 0` (30_encoding.md R99, 42_frame_codec.md R173 e). -/
def addressLegal (c : ConfigRegs) (reg : Byte) : Bool := reg &&& ~~~c.regMask == 0#8

/-- The command word on the wire, `(code | (reg & REG_MASK)) mod 2^CMD_WIDTH` (30_encoding.md R99). -/
def wireCommand (c : ConfigRegs) (code reg : Byte) : Byte :=
  BitVec.ofNat 8 ((code ||| (reg &&& c.regMask)).toNat % 2 ^ c.cmdWidth.toNat)

/-- The low `n` bits of `v`, most significant first (00_scope.md R8, 20_memory.md R66). -/
def bitsMsbFirst (v : Byte) (n : Nat) : List Level :=
  (List.range n).map fun k => v.getLsbD (n - 1 - k)

/-- The physical level of a logical bit, `b XOR DIN_INVERT` (30_encoding.md R100). -/
def dinLevel (c : ConfigRegs) (b : Level) : Level := b ^^ c.dinInvert

/-! ### Datapath -/

/-- `(SHIFT << 1 | b) mod 2^24` (42_frame_codec.md R161, R173 a). -/
def shiftBit (shift : BitVec 24) (b : Level) : BitVec 24 :=
  (shift <<< 1) ||| BitVec.setWidth 24 (BitVec.ofBool b)

/-- `sext_32` of a 24-bit sample (42_frame_codec.md R164). -/
def sext32 (v : BitVec 24) : Word := v.signExtend 32

/-- `zext_32` of a sampled bit (40_bit_transport.md R130). -/
def zextBit (b : Level) : Word := (BitVec.ofBool b).setWidth 32

/-- `zext_32` of `SHIFT[7:0]`, the result of `ReadWord(8)` (42_frame_codec.md R161, R169). -/
def zextByte (shift : BitVec 24) : Word := (shift.extractLsb' 0 8).setWidth 32

end Sys2Proof.Machine
end

