-- ==== Sys2Proof/Machine/Cells.lean ====
section
/-! DEFINITION. The cells and the shared pieces of a frame, as lists of sequencer items.

40_bit_transport.md R130 to R132 (cells), 41_ready_gate.md R151 (`WaitReady`), 42_frame_codec.md R161 (`ReadWord`),
R162 (`WriteWord`), R166 (`Preamble`). An item carries its sequencer position (10_state.md R26; log 13). -/

namespace Sys2Proof.Machine

/-- The actions of one cell at their positions: cell `i` of phase `p`, counting up from sub-position 0. -/
def cellAt (p : Phase) (i : Nat) (acts : List Act) : List Item :=
  acts.zipIdx.map fun a => ⟨⟨p, i, a.2⟩, a.1⟩

/-- A phase: `BITCNT` is cleared, then its cells follow, cell `i` with the actions `cells[i]`. -/
def phaseOf (p : Phase) (cells : List (List Act)) : List Item :=
  ⟨⟨p, 0, 0⟩, .startPhase⟩ :: cells.zipIdx.flatMap fun c => cellAt p c.2 c.1

/-- `ReadBit()` (40_bit_transport.md R130). -/
def readBitActs : List Act := [.clk true, .hold .high, .smp, .clk false, .hold .low]

/-- `Pulse()` (40_bit_transport.md R132). -/
def pulseActs : List Act := [.clk true, .hold .high, .clk false, .hold .low]

/-- `DIR(d)`: performed only when `SHARED_PIN = 1`, no event otherwise (00_scope.md R9; log 17). -/
def dirActs (c : ConfigRegs) (d : Dir) : List Act := if c.sharedPin then [.dir d] else []

/-- `WriteBit(b)` (40_bit_transport.md R131). -/
def writeBitActs (c : ConfigRegs) (b : Level) : List Act :=
  dirActs c .output ++ [.dat (dinLevel c b), .clk true, .hold .high, .clk false, .hold .low] ++ dirActs c .input

/-- One cell of `ReadWord` (42_frame_codec.md R161): the read cell and its bit shifted in. -/
def readWordCell : List Act := readBitActs ++ [.shiftIn, .endCell]

/-- A pulse cell inside a phase. -/
def pulseCell : List Act := pulseActs ++ [.endCell]

/-- A write cell inside a phase. -/
def writeCell (c : ConfigRegs) (b : Level) : List Act := writeBitActs c b ++ [.endCell]

/-- `ReadWord(n)` as the phase `p` (42_frame_codec.md R161). -/
def readWord (p : Phase) (n : Nat) : List Item :=
  ⟨⟨p, 0, 0⟩, .clearShift⟩ :: phaseOf p (List.replicate n readWordCell)

/-- `WriteWord(v, n)` as the phase `p` (42_frame_codec.md R162): MSB first. -/
def writeWord (c : ConfigRegs) (p : Phase) (v : Byte) (n : Nat) : List Item :=
  phaseOf p ((bitsMsbFirst v n).map (writeCell c))

/-- `repeat n times: Pulse()` as the phase `p`. -/
def pulses (p : Phase) (n : Nat) : List Item := phaseOf p (List.replicate n pulseCell)

/-- `WaitReady(TIMEOUT)` up to its loop, and the first turn of the loop (41_ready_gate.md R151). -/
def waitReady (c : ConfigRegs) : List Item :=
  ⟨⟨.wait, 0, 0⟩, .startPhase⟩ :: cellAt .wait 0 (dirActs c .input ++ [.setDeadline, .poll])

/-- `Preamble()` (42_frame_codec.md R166): ready-wait, 24 read cells discarded, the pulse that enters command mode. -/
def preamble (c : ConfigRegs) : List Item :=
  waitReady c ++ readWord .data Config.sampleBits ++ pulses .enter Config.nEnter

/-- `complete(Ok)` at the end of the phase `p` (42_frame_codec.md R174). -/
def completeAt (p : Phase) (c : Completion) : List Item := [⟨⟨p, 0, 0⟩, .complete c⟩]

end Sys2Proof.Machine
end

