-- ==== Sys2Proof/Machine/Flags.lean ====
section
/-! DEFINITION. Status codes, the flags of SR0 and the other status words a host reads (10_state.md R38 to R43). -/

namespace Sys2Proof.Machine

/-- The 3-bit number of a status code (30_encoding.md R102). -/
def Status.toBits : Status → BitVec 3
  | .ok => 0
  | .timeout => 1
  | .invalidArgument => 2
  | .busy => 3
  | .resourceUnavailable => 4

/-- `DATA_DIR` as a bit, 1 = out (10_state.md R23). -/
def Dir.toBit : Dir → Bool
  | .input => false
  | .output => true

/-- `BUSY`, SR0 bit 1: 1 when `ENG = BUSY` (10_state.md R38). -/
def State.busyFlag (s : State) : Bool := s.eng == .busy

/-- `ATTACHED`, SR0 bit 0: "equals `DRIVE`" (10_state.md R38). -/
def State.attachedFlag (s : State) : Bool := s.pins.drive

/-- SR0 `STATUS` (10_state.md R38): `ATTACHED`, `BUSY`, `CODE`, `RECN`, the rest 0. -/
def State.statusWord (s : State) : Word :=
  0#23 ++ s.regs.recn ++ s.status.code.toBits ++ BitVec.ofBool s.busyFlag ++ BitVec.ofBool s.attachedFlag

/-- SR2 `LASTOP` (10_state.md R40): the `op` field in bits 7:0. -/
def State.lastopWord (s : State) : Word := s.status.lastop.setWidth 32

/-- SR4 `NOW_LO` (10_state.md R41): `NOW[31:0]`. -/
def State.nowLo (s : State) : Word := BitVec.ofNat 32 s.now

/-- SR5 `NOW_HI` (10_state.md R41): `NOW[63:32]`. -/
def State.nowHi (s : State) : Word := BitVec.ofNat 32 (s.now / 2 ^ 32)

/-- SR6 `PINS` (10_state.md R42) with `line` the level of the data-out line at the instant of the read. -/
def State.pinsWord (s : State) (line : Level) : Word :=
  0#27 ++ BitVec.ofBool s.pins.drive ++ BitVec.ofBool line ++ BitVec.ofBool s.pins.dataDir.toBit
    ++ BitVec.ofBool s.pins.dataO ++ BitVec.ofBool s.pins.clkO

end Sys2Proof.Machine
end

