-- ==== Sys2Proof/Machine/Ops.lean ====
section
/-! DEFINITION. The operations every command is made of: inputs, micro-events, the tests of `PH_CHECK`, completion,
the sequencer and the acceptance of a command.

Completion (60_exceptions.md R254) is this machine's counterpart of taking an exception and of returning from one:
one shared operation, `complete`, ends every operation with success or failure. -/

namespace Sys2Proof.Machine

/-! ### Inputs -/

/-- The coming answer: the script's next one, else the free value at the draw number. -/
def Source.peek {α : Type} (free : Nat → α) (q : Source α) : α :=
  match q.script with
  | [] => free q.drawn
  | a :: _ => a

/-- The source after one draw. -/
def Source.rest {α : Type} (q : Source α) : Source α := ⟨q.script.tail, q.drawn + 1⟩

/-- The level the line answers to the next `SMP()` (20_memory.md R64). -/
def State.line (s : State) : Level := s.env.samples.peek Config.lineLevel

/-- The ticks the next micro-event takes beyond its minimum (20_memory.md R73). -/
def State.slack (s : State) : Nat := s.env.slacks.peek Config.slack

/-- The platform's next answer to `pin_grant()` (43_system_ops.md R191). -/
def State.granted (s : State) : Bool := s.env.grants.peek Config.pinGrant

/-! ### Micro-events (00_scope.md R9) -/

/-- A micro-event of at least `min` ticks happens: it is seen on the pins, and `NOW` advances by `min` and a free
excess (20_memory.md R73). -/
def State.emit (s : State) (p : PinEvent) (min : Nat) : State :=
  { s with
    now := s.now + (min + s.slack)
    trace := s.trace ++ [⟨p, min + s.slack⟩]
    env := { s.env with slacks := s.env.slacks.rest } }

/-- `CLK(l)`. -/
def State.clk (s : State) (l : Level) : State :=
  { s with pins := { s.pins with clkO := l } }.emit (.clk l) 0

/-- `DAT(l)`. -/
def State.dat (s : State) (l : Level) : State :=
  { s with pins := { s.pins with dataO := l } }.emit (.dat l) 0

/-- `DIR(d)`. -/
def State.dir (s : State) (d : Dir) : State :=
  { s with pins := { s.pins with dataDir := d } }.emit (.dir d) 0

/-- `HOLD(d)` with `d` the timing register (40_bit_transport.md R134). -/
def State.hold (s : State) (i : Interval) : State :=
  s.emit (.hold (s.cfg.interval i)) (s.cfg.interval i)

/-- `SMP()`: the answer is `s.line`; this is the state after it. -/
def State.smp (s : State) : State :=
  { s with env := { s.env with samples := s.env.samples.rest } }.emit (.smp s.line) 0

/-- `TIME()`: the reading is `s.now`, taken before the micro-event's own time passes (log 16); this is the state
after it. -/
def State.time (s : State) : State := s.emit .time 0

/-! ### The tests of `PH_CHECK` (60_exceptions.md R252) -/

/-- The first test that fails decides (60_exceptions.md R252, R259). -/
def firstFailure : List (Option Status) → Option Status
  | [] => none
  | some st :: _ => some st
  | none :: rest => firstFailure rest

/-- Test 1: the operand fields fit the format (30_encoding.md R93). -/
def checkFormat (fits : Bool) : Option Status := if fits then none else some .invalidArgument

/-- Test 2 of every command but ATTACH: a Device Handle exists. -/
def checkAttached (s : State) : Option Status :=
  if s.eng = .detached then some .resourceUnavailable else none

/-- Test 2 of ATTACH: no Device Handle exists. -/
def checkNotAttached (s : State) : Option Status :=
  if s.eng = .detached then none else some .invalidArgument

/-- Test 3 of WAITRDY, RAWRD, REGWR, REGRD: `T_POLL` is not 0. -/
def checkPoll (s : State) : Option Status :=
  if s.cfg.tPoll = 0#32 then some .invalidArgument else none

/-- Test 3 of REGWR and REGRD: `CMD_WIDTH` is in 1 to 8 (10_state.md R29). -/
def checkWidth (s : State) : Option Status :=
  if 1 ≤ s.cfg.cmdWidth.toNat ∧ s.cfg.cmdWidth.toNat ≤ 8 then none else some .invalidArgument

/-- Test 4 of REGWR and REGRD: the address is inside `REG_MASK` (30_encoding.md R99). -/
def checkAddress (s : State) (reg : Byte) : Option Status :=
  if addressLegal s.cfg reg then none else some .invalidArgument

/-! ### Completion (60_exceptions.md R254) -/

/-- The value an operation returns when it succeeds (30_encoding.md R103); none for the operations that return none. -/
def completionValue (c : Completion) (s : State) : Option Word :=
  match c with
  | .bit => some (zextBit s.latch.bit)
  | .sample => some s.latch.value
  | .byte => some (zextByte s.regs.shift)
  | .plain => none
  | .attached => none
  | .detached => none

/-- The recovery count of a response: RAWRD's, else 0 (30_encoding.md R103; log 30). -/
def completionRecn (c : Completion) (s : State) : BitVec 4 :=
  match c with
  | .sample => s.regs.recn
  | .plain => 0
  | .bit => 0
  | .byte => 0
  | .attached => 0
  | .detached => 0

/-- What `ENG` becomes on success (60_exceptions.md R254): what it was at acceptance, but for ATTACH and DETACH. -/
def completionEng (c : Completion) (s : State) : Eng :=
  match c with
  | .attached => .idle
  | .detached => .detached
  | .plain => s.latch.heldEng
  | .bit => s.latch.heldEng
  | .sample => s.latch.heldEng
  | .byte => s.latch.heldEng

/-- The one way an operation ends (60_exceptions.md R254): `CODE`, `LASTOP`, `LASTTMO` and, with a value, `RESULT`
are written, the response is delivered, `SEQ` becomes (`PH_IDLE`, 0, 0) and `ENG` is `eng`. `BITCNT` is 0 in
`PH_IDLE` (log 14) and `DEADLINE` holds a free value between operations (log 8). -/
def State.complete (s : State) (st : Status) (value : Option Word) (recn : BitVec 4) (eng : Eng) : State :=
  { s with
    eng := eng
    todo := []
    regs :=
      { s.regs with
        result := value.getD s.regs.result
        bitcnt := 0
        deadline := Config.staleDeadline s.env.staleDeadlines }
    status := { code := st, lastop := s.regs.op, lasttmo := s.latch.tmo }
    env := { s.env with staleDeadlines := s.env.staleDeadlines + 1 }
    responses := s.responses ++ [⟨s.latch.owner, st, value.getD 0, recn⟩] }

/-- `complete(Ok)` and `complete(Ok, value)`. -/
def State.succeed (s : State) (c : Completion) : State :=
  s.complete .ok (completionValue c s) (completionRecn c s) (completionEng c s)

/-- `complete(status)` with a failure: no value, and `ENG` is what it was at acceptance. -/
def State.fail (s : State) (st : Status) : State := s.complete st none 0 s.latch.heldEng

/-! ### The sequencer -/

/-- The items of a further turn go before what is still to do. -/
def State.next (s : State) (items : List Item) : State := { s with todo := items ++ s.todo }

/-- The position after this one in the same cell (10_state.md R26). -/
def Seq.succ (q : Seq) : Seq := ⟨q.phase, q.cnt, q.sub + 1⟩

/-- `s <- SMP(); if s = 0 then return Ok`: low ends the wait, high goes on to the deadline test
(41_ready_gate.md R151). -/
def State.poll (s : State) (q : Seq) : State :=
  if s.line then s.smp.next [⟨q.succ, .expire⟩] else s.smp

/-- `if TIME() >= DEADLINE then return Timeout`, else `HOLD(T_POLL)` and the next turn (41_ready_gate.md R151). -/
def State.expire (s : State) (q : Seq) : State :=
  if s.regs.deadline ≤ s.now then s.time.fail .timeout
  else s.time.next [⟨q.succ, .hold .poll⟩, ⟨⟨q.phase, q.cnt, q.sub - 1⟩, .poll⟩]

/-- `if SMP() = 1 then complete(Busy)` (42_frame_codec.md R163). -/
def State.recheck (s : State) : State := if s.line then s.smp.fail .busy else s.smp

/-- One turn of the recovery loop (42_frame_codec.md R165): nothing when `RECOVER_MAX` pulses were issued; else a
sample, and on a low line one more pulse and the next turn. -/
def State.recover (s : State) (q : Seq) : State :=
  if s.regs.recn < s.cfg.recoverMax then
    if s.line then s.smp
    else s.smp.next
      ((cellAt q.phase q.cnt pulseCell).map (fun it => ⟨it.seq.succ, it.act⟩)
        ++ [⟨⟨q.phase, q.cnt, 6⟩, .bumpRecn⟩, ⟨⟨q.phase, q.cnt + 1, 0⟩, .recover⟩])
  else s

/-- `g <- pin_grant(); if g = 0 then complete(ResourceUnavailable)` (43_system_ops.md R190): the answer is drawn once. -/
def State.grant (s : State) : State :=
  let t := { s with env := { s.env with grants := s.env.grants.rest } }
  if s.granted then t else t.fail .resourceUnavailable

/-- The latches of a granted ATTACH, in one step (43_system_ops.md R190; log 35). -/
def State.acquire (s : State) : State :=
  { s with
    pins := { clkO := false, dataO := false, dataDir := .input, drive := true }
    trace := s.trace ++ [⟨.acquire, 0⟩] }

/-- `DRIVE <- 0`; the latches keep their values (43_system_ops.md R192, 10_state.md R23; log 35). -/
def State.release (s : State) : State :=
  { s with pins := { s.pins with drive := false }, trace := s.trace ++ [⟨.release, 0⟩] }

/-- One item is performed (00_scope.md R9 and the pseudocode of the operations). -/
def State.perform (s : State) (it : Item) : State :=
  match it.act with
  | .clk l => s.clk l
  | .dat l => s.dat l
  | .dir d => s.dir d
  | .hold i => s.hold i
  | .smp => { s.smp with latch := { s.latch with bit := s.line } }
  | .setDeadline => { s.time with regs := { s.regs with deadline := s.now + s.latch.tmo.toNat } }
  | .poll => s.poll it.seq
  | .expire => s.expire it.seq
  | .recheck => s.recheck
  | .recover => s.recover it.seq
  | .check none => s
  | .check (some st) => s.fail st
  | .grant => s.grant
  | .acquire => s.acquire
  | .release => s.release
  | .startPhase => { s with regs := { s.regs with bitcnt := 0 } }
  | .endCell => { s with regs := { s.regs with bitcnt := s.regs.bitcnt + 1 } }
  | .clearShift => { s with regs := { s.regs with shift := 0 } }
  | .shiftIn => { s with regs := { s.regs with shift := shiftBit s.regs.shift s.latch.bit } }
  | .latchSample => { s with latch := { s.latch with value := sext32 s.regs.shift } }
  | .clearRecn => { s with regs := { s.regs with recn := 0 } }
  | .bumpRecn => { s with regs := { s.regs with recn := s.regs.recn + 1 } }
  | .complete c => s.succeed c

/-- One sequencer item passes for the host's next action (log 11). -/
def countDown : List HostIn → List HostIn
  | [] => []
  | h :: rest => ⟨h.after - 1, h.act⟩ :: rest

/-- The head of the plan is performed, with the rest of the plan after it (20_memory.md R72). -/
def State.sequence (s : State) : State :=
  match s.todo with
  | [] => s
  | it :: rest => { s with todo := rest, hostIn := countDown s.hostIn }.perform it

/-- The host's next action lands now. -/
def State.hostDue (s : State) : Bool :=
  match s.hostIn with
  | [] => false
  | h :: _ => h.after == 0

/-- The sequencer stops: the operation has completed, or an action of the host lands. -/
def State.paused (s : State) : Bool := s.todo.isEmpty || s.hostDue

/-- The sequencer runs until it stops, at most `n` items. -/
def runItems : Nat → State → State
  | 0, s => s
  | n + 1, s => if s.paused then s else runItems n s.sequence

/-- More items than any operation has: at most three per turn of a poll loop of at most `2^32` turns, and the
fixed cells of a frame (41_ready_gate.md R152 f, 70_reset_and_hazards.md R299; log 27). -/
def itemBound : Nat := 34359738368

/-- The engine runs. -/
def State.engineRun (s : State) : State := runItems itemBound s

/-! ### Acceptance of a command (20_memory.md R75) -/

/-- A command is accepted: `ENG <- BUSY`, `OP`, `REG`, `DATA` are latched, CR2 is copied, and the sequencer stands at
`PH_CHECK` with the verdict of the tests, followed by the body of the operation. No cell of `PH_CHECK` is done
(log 14). -/
def State.accept (s : State) (w : Word) (verdict : Option Status) (body : List Item) : State :=
  { s with
    eng := .busy
    todo := ⟨⟨.check, 0, 0⟩, .check verdict⟩ :: body
    regs := { s.regs with bitcnt := 0, op := opField w, reg := regField w, data := dataField w }
    latch := { s.latch with tmo := s.cfg.timeout, heldEng := s.eng, owner := s.requester } }

/-- A command is presented to the engine: while BUSY it waits (20_memory.md R76; log 19), else it is accepted and
the engine runs it. -/
def State.issue (s : State) (w : Word) (verdict : Option Status) (body : List Item) : State :=
  if s.eng = .busy then { s with waiting := s.waiting ++ [⟨s.requester, w⟩] }
  else (s.accept w verdict body).engineRun

end Sys2Proof.Machine
end

