-- ==== Sys2Proof/Machine/BitTransport.lean ====
section
/-! DEFINITION. The bit transport commands RDBIT, WRBIT, PULSE (40_bit_transport.md). -/

namespace Sys2Proof.Machine

/-- RDBIT (40_bit_transport.md R130): `b <- ReadBit(); complete(Ok, zext_32(b))`. -/
def execRdbit (s : State) : Host.Outcome State Fault Refusal :=
  .next (s.issue (encode .rdbit) (firstFailure [checkAttached s])
    (phaseOf .prim [readBitActs ++ [.endCell]] ++ completeAt .prim .bit))

/-- WRBIT (40_bit_transport.md R131): `WriteBit(data[0]); complete(Ok)`. Non-zero `data[7:1]` is a reserved word
(30_encoding.md R91, R93; log 20). -/
def execWrbit (data : Byte) (s : State) : Host.Outcome State Fault Refusal :=
  .next (s.issue (encode (.wrbit data)) (firstFailure [checkFormat (fitsFormatB data), checkAttached s])
    (phaseOf .prim [writeCell s.cfg (bitOperand data)] ++ completeAt .prim .plain))

/-- PULSE (40_bit_transport.md R132): `Pulse(); complete(Ok)`. -/
def execPulse (s : State) : Host.Outcome State Fault Refusal :=
  .next (s.issue (encode .pulse) (firstFailure [checkAttached s])
    (pulses .prim 1 ++ completeAt .prim .plain))

end Sys2Proof.Machine
end

