-- ==== Sys2Proof/Machine/FrameCodec.lean ====
section
/-! DEFINITION. The frame codec commands RAWRD, REGWR, REGRD (42_frame_codec.md). -/

namespace Sys2Proof.Machine

/-- `PH_RECHECK`, only when `BUSY_RECHECK = 1` (42_frame_codec.md R163). -/
def recheckItems (c : ConfigRegs) : List Item :=
  if c.busyRecheck then [⟨⟨.recheck, 0, 0⟩, .recheck⟩] else []

/-- RAWRD after its tests (42_frame_codec.md R160): the sample is sign-extended before the trailing pulses (R164). -/
def rawrdBody (c : ConfigRegs) : List Item :=
  waitReady c ++ recheckItems c ++ readWord .data Config.sampleBits
    ++ [⟨⟨.data, Config.sampleBits, 0⟩, .latchSample⟩]
    ++ pulses .trail c.trailPulses.toNat
    ++ [⟨⟨.recover, 0, 0⟩, .startPhase⟩, ⟨⟨.recover, 0, 0⟩, .clearRecn⟩, ⟨⟨.recover, 0, 0⟩, .recover⟩]
    ++ completeAt .recover .sample

/-- RAWRD (42_frame_codec.md R160). -/
def execRawrd (s : State) : Host.Outcome State Fault Refusal :=
  .next (s.issue (encode .rawrd) (firstFailure [checkAttached s, checkPoll s]) (rawrdBody s.cfg))

/-- REGWR after its tests (42_frame_codec.md R167). -/
def regwrBody (c : ConfigRegs) (reg data : Byte) : List Item :=
  preamble c ++ writeWord c .cmd (wireCommand c c.cmdWr reg) c.cmdWidth.toNat
    ++ writeWord c .payload data Config.payloadBits ++ pulses .exit Config.nExit ++ completeAt .exit .plain

/-- REGWR (42_frame_codec.md R167). -/
def execRegwr (reg data : Byte) (s : State) : Host.Outcome State Fault Refusal :=
  .next (s.issue (encode (.regwr reg data))
    (firstFailure [checkAttached s, checkPoll s, checkWidth s, checkAddress s reg]) (regwrBody s.cfg reg data))

/-- `PH_TURN` (42_frame_codec.md R169): `DIR(in)` before the register byte; no cell is done in it (log 14). -/
def turnItems (c : ConfigRegs) : List Item := ⟨⟨.turn, 0, 0⟩, .startPhase⟩ :: cellAt .turn 0 (dirActs c .input)

/-- REGRD after its tests (42_frame_codec.md R169). -/
def regrdBody (c : ConfigRegs) (reg : Byte) : List Item :=
  preamble c ++ writeWord c .cmd (wireCommand c c.cmdRd reg) c.cmdWidth.toNat
    ++ turnItems c ++ readWord .rdata Config.payloadBits
    ++ pulses .exit Config.nExit ++ completeAt .exit .byte

/-- REGRD (42_frame_codec.md R169). -/
def execRegrd (reg : Byte) (s : State) : Host.Outcome State Fault Refusal :=
  .next (s.issue (encode (.regrd reg))
    (firstFailure [checkAttached s, checkPoll s, checkWidth s, checkAddress s reg]) (regrdBody s.cfg reg))

end Sys2Proof.Machine
end

