-- ==== Sys2Proof/Machine/ReadyGate.lean ====
section
/-! DEFINITION. The ready gate command WAITRDY (41_ready_gate.md). -/

namespace Sys2Proof.Machine

/-- WAITRDY (41_ready_gate.md R150): `s <- WaitReady(TIMEOUT); complete(s)`. -/
def execWaitrdy (s : State) : Host.Outcome State Fault Refusal :=
  .next (s.issue (encode .waitrdy) (firstFailure [checkAttached s, checkPoll s])
    (waitReady s.cfg ++ completeAt .wait .plain))

end Sys2Proof.Machine
end

