-- ==== Sys2Proof/Machine/SystemOps.lean ====
section
/-! DEFINITION. The system operations CHIPRST, ATTACH, DETACH (43_system_ops.md). -/

namespace Sys2Proof.Machine

/-- CHIPRST (43_system_ops.md R193): one long pulse and the start-up hold. -/
def execChiprst (s : State) : Host.Outcome State Fault Refusal :=
  .next (s.issue (encode .chiprst) (firstFailure [checkAttached s])
    (cellAt .reset 0 [.clk true, .hold .reset, .clk false, .hold .startup, .complete .plain]))

/-- ATTACH (43_system_ops.md R190). -/
def execAttach (s : State) : Host.Outcome State Fault Refusal :=
  .next (s.issue (encode .attach) (firstFailure [checkNotAttached s])
    (cellAt .attach 0 [.grant, .acquire, .complete .attached]))

/-- DETACH (43_system_ops.md R192). -/
def execDetach (s : State) : Host.Outcome State Fault Refusal :=
  .next (s.issue (encode .detach) (firstFailure [checkAttached s])
    (cellAt .detach 0 [.release, .complete .detached]))

end Sys2Proof.Machine
end

