-- ==== Sys2Proof/Machine/Dispatch.lean ====
section
/-! DEFINITION. The meaning of each command: one arm per row of the opcode table. -/

namespace Sys2Proof.Machine

def exec (i : Instr) (s : State) : Host.Outcome State Fault Refusal :=
  match i with
  | .rdbit => Sys2Proof.Machine.execRdbit s
  | .wrbit data => Sys2Proof.Machine.execWrbit data s
  | .pulse => Sys2Proof.Machine.execPulse s
  | .waitrdy => Sys2Proof.Machine.execWaitrdy s
  | .rawrd => Sys2Proof.Machine.execRawrd s
  | .regwr reg data => Sys2Proof.Machine.execRegwr reg data s
  | .regrd reg => Sys2Proof.Machine.execRegrd reg s
  | .chiprst => Sys2Proof.Machine.execChiprst s
  | .attach => Sys2Proof.Machine.execAttach s
  | .detach => Sys2Proof.Machine.execDetach s

end Sys2Proof.Machine
end

