-- ==== Sys2Proof/Machine/HostPort.lean ====
section
/-! DEFINITION. The host port: register access, the engine reset, the passing of time, and which command is accepted
next (10_state.md R28, R38 to R42, 20_memory.md R62, R75, R76, 43_system_ops.md R194, 70_reset_and_hazards.md R281). -/

namespace Sys2Proof.Machine

/-- CRn as a read returns it: reserved bits as 0 (10_state.md R28); a reserved number reads 0 (20_memory.md R62). -/
def ConfigRegs.get (c : ConfigRegs) : Nat → Word
  | 0 => c.mode &&& modeMask
  | 1 => c.cmdcode &&& cmdcodeMask
  | 2 => c.timeout
  | 3 => c.tHigh
  | 4 => c.tLow
  | 5 => c.tPoll
  | 6 => c.tReset
  | 7 => c.tStartup
  | _ => 0#32

/-- CRn written as a whole: reserved bits ignore the write (10_state.md R28); a reserved number ignores it
(20_memory.md R62). -/
def ConfigRegs.set (c : ConfigRegs) (n : Nat) (v : Word) : ConfigRegs :=
  match n with
  | 0 => { c with mode := v &&& modeMask }
  | 1 => { c with cmdcode := v &&& cmdcodeMask }
  | 2 => { c with timeout := v }
  | 3 => { c with tHigh := v }
  | 4 => { c with tLow := v }
  | 5 => { c with tPoll := v }
  | 6 => { c with tReset := v }
  | 7 => { c with tStartup := v }
  | _ => c

/-- SRn as a read returns it (10_state.md R38 to R42); `line` is the level of the data-out line, for SR6. -/
def State.statusReg (s : State) (line : Level) : Nat → Word
  | 0 => s.statusWord
  | 1 => s.regs.result
  | 2 => s.lastopWord
  | 3 => s.status.lasttmo
  | 4 => s.nowLo
  | 5 => s.nowHi
  | 6 => s.pinsWord line
  | _ => 0#32

/-- A host register write (10_state.md R28, 43_system_ops.md R194): dropped while BUSY; SRs ignore it. -/
def State.hostWrite (s : State) (r : RegNo) (v : Word) : State :=
  match r with
  | .cr n => if s.eng = .busy then s else { s with cfg := s.cfg.set n v }
  | .sr _ => s

/-- The value of a host register read; `line` as in `State.statusReg`. -/
def State.regValue (s : State) (line : Level) : RegNo → Word
  | .cr n => s.cfg.get n
  | .sr n => s.statusReg line n

/-- Whether reading this register samples the line: SR6 alone (10_state.md R42). -/
def RegNo.samplesLine : RegNo → Bool
  | .cr _ => false
  | .sr n => n == 6

/-- A host register read (10_state.md R28): the value goes to the host and nothing of the engine changes. SR6 takes a
sample "with no effect on the engine or the chip" (R42), from a source of its own (log 22). -/
def State.hostRead (s : State) (who : Nat) (r : RegNo) : State :=
  { s with
    reads := s.reads ++ [⟨who, r, s.regValue (s.env.pinReads.peek Config.pinReadLevel) r⟩]
    env := if r.samplesLine then { s.env with pinReads := s.env.pinReads.rest } else s.env }

/-- The engine reset (70_reset_and_hazards.md R281, 10_state.md R45): every piece of the engine's state at its reset
value, at once, whatever was running. The host's side of the port, the environment and the record of what was seen
stay (log 12). -/
def State.engineReset (s : State) : State :=
  { s with
    eng := State.reset.eng
    todo := State.reset.todo
    pins := State.reset.pins
    regs := State.reset.regs
    now := State.reset.now
    cfg := State.reset.cfg
    status := State.reset.status
    latch := State.reset.latch
    trace := s.trace ++ [⟨.release, 0⟩] }

/-- An action of the host or of time happens. -/
def State.hostAct (s : State) : HostAct → State
  | .present c => { s with waiting := s.waiting ++ [c] }
  | .write r v => s.hostWrite r v
  | .read who r => s.hostRead who r
  | .engineReset => s.engineReset
  | .pass ticks => { s with now := s.now + ticks }

/-- A requester is served: its command leaves the waiting ones and it is the requester of the acceptance. -/
def State.serve (s : State) (c : HostCmd) (others : List HostCmd) : State :=
  { s with waiting := others, requester := c.who }

/-- The command accepted next (20_memory.md R76): the only one, or one of several by a free choice. -/
def State.arbitrate (s : State) : Option (HostCmd × State) :=
  match s.waiting with
  | [] => none
  | [c] => some (c, s.serve c [])
  | c :: d :: cs =>
    let k := s.env.picks.peek Config.arbiter % (cs.length + 2)
    let t := { s with env := { s.env with picks := s.env.picks.rest } }
    some ((c :: d :: cs).getD k c, t.serve ((c :: d :: cs).getD k c) ((c :: d :: cs).eraseIdx k))

/-- A reserved word (30_encoding.md R93): accepted like any other, it performs no micro-event and completes with
`InvalidArgument`. -/
def State.reject (s : State) (w : Word) : State := s.issue w (some .invalidArgument) []

/-- Nothing is presented and nothing runs: time passes (10_state.md R20 d) until the host's next action (log 23). -/
def State.idleStep (s : State) : State :=
  { s with
    now := s.now + s.slack
    env := { s.env with slacks := s.env.slacks.rest }
    hostIn :=
      match s.hostIn with
      | [] => []
      | h :: rest => ⟨0, h.act⟩ :: rest }

end Sys2Proof.Machine
end

