-- ==== Sys2Proof/Machine/Step.lean ====
section
/-! DEFINITION. One step of the machine, and where a test places the command the next step runs. -/

namespace Sys2Proof.Machine

/-- The engine's turn: a running operation goes on; else a waiting command is accepted and run, a reserved word
rejected (30_encoding.md R93); else time passes. -/
def engineTurn (s : State) : Host.Outcome State Fault Refusal :=
  match s.eng with
  | .busy => .next s.engineRun
  | .idle | .detached =>
    match s.arbitrate with
    | none => .next s.idleStep
    | some (c, t) =>
      match decode c.word with
      | .ok i => exec i t
      | .error _ => .next (t.reject c.word)

/-- One step: an action of the host that lands now happens (in any engine state, 43_system_ops.md R194,
70_reset_and_hazards.md R281), else the engine has its turn. Whether an action can land between the acceptance of a command and
its verdict in `PH_CHECK` the spec does not say: DESIGN CHOICE (log 48), in a step it cannot, so a command refused there is not
seen BUSY and drops no register write. -/
def step (s : State) : Host.Outcome State Fault Refusal :=
  match s.hostIn with
  | [] => engineTurn s
  | h :: rest => if h.after = 0 then .next ({ s with hostIn := rest }.hostAct h.act) else engineTurn s

/-- The state in which the host has presented exactly this command word and the engine can accept it: no other
command waits, no other action of the host is due, and an operation that still runs is taken as over (log 2). -/
def State.withFetchWord (s : State) (nbits w : Nat) : State :=
  { s with
    eng := if s.eng = .busy then (if s.latch.heldEng = .detached then .detached else .idle) else s.eng
    hostIn := []
    waiting := [⟨s.requester, tableWord nbits w⟩] }

end Sys2Proof.Machine
end

