-- ==== Sys2Proof/Machine/HostContract.lean ====
section
/-! DEFINITION. What the host holds (44_host_config_and_sampling.md): the Configuration State, the Sampling History, the
statistics and the Sampling Loop's position, and the functions over them that need no engine (10_state.md R44, log 25).

The calls and the loop at work are Machine/HostSystem.lean. -/

namespace Sys2Proof.Facade

open Sys2Proof.Machine

/-! ### Configuration State -/

/-- The last-known configuration fields (R211). -/
structure Settings where
  gain : BitVec 2
  speed : BitVec 2
  channel : BitVec 2
  refOut : Bool
  bufEnable : Bool
  pgaBypass : Bool
  offset : Int
  deriving DecidableEq, Repr

/-- `CFG_LAYOUT` (R212, 30_encoding.md R101): where each field stands in the Configuration Byte; `fixed` gives the bits
no field holds, and a flag the layout has no place for has none. -/
structure Layout where
  speedAt : Nat
  gainAt : Nat
  channelAt : Nat
  refOutAt : Option Nat
  bufEnableAt : Option Nat
  pgaBypassAt : Option Nat
  fixed : Byte
  deriving DecidableEq, Repr

/-- Layout L0 (30_encoding.md R101), the only one the source shows; bits 7:6 zero, as R215 takes them. -/
def layoutL0 : Layout := ⟨0, 2, 4, none, none, none, 0⟩

/-- The two observed variants of the host (00_scope.md R3). -/
inductive Variant where
  /-- An immediate raw read for each sample, no Sampling Loop. -/
  | basic
  /-- The Sampling Loop publishes the samples. -/
  | extended
  deriving DecidableEq, Repr

/-- The host parameters the source leaves without a value (R212), and its variant: arguments of the host. `bufCap` is the
capacity of the history when no property gives one. -/
structure Params where
  variant : Variant
  cfgRegAddr : Byte
  offsetRegAddr : Byte
  layout : Layout
  vrefNum : Nat
  tSettle : Nat
  tPausePoll : Nat
  bufCap : Nat
  defaults : Settings
  deriving DecidableEq, Repr

/-- `rate_for(code)` in Hz (R214). -/
def rateFor (code : BitVec 2) : Nat :=
  if code = 0 then Config.rateOfCode0 else if code = 1 then Config.rateOfCode1
  else if code = 2 then Config.rateOfCode2 else Config.rateOfCode3

/-- `code_for(rate)` (R214): any other rate is rejected. -/
def codeFor (rate : Nat) : Option (BitVec 2) :=
  if rate = Config.rateOfCode0 then some 0 else if rate = Config.rateOfCode1 then some 1
  else if rate = Config.rateOfCode2 then some 2 else if rate = Config.rateOfCode3 then some 3 else none

/-- The multiplier of a gain code (R213). -/
def multiplier (gain : BitVec 2) : Nat :=
  if gain = 0 then Config.gainOfCode0 else if gain = 1 then Config.gainOfCode1
  else if gain = 2 then Config.gainOfCode2 else Config.gainOfCode3

/-- `scale_for` (R217): the pair of numerator and gain-dependent denominator. -/
def scaleFor (p : Params) (gain : BitVec 2) : Nat × Nat := (p.vrefNum, Config.scaleBase * multiplier gain)

/-- A flag at its place in the byte. -/
def flagAt (place : Option Nat) (b : Bool) : Byte :=
  match place with
  | none => 0
  | some k => (BitVec.ofBool b).setWidth 8 <<< k

/-- `pack()` (R215). -/
def pack (l : Layout) (c : Settings) : Byte :=
  l.fixed ||| c.speed.setWidth 8 <<< l.speedAt ||| c.gain.setWidth 8 <<< l.gainAt
    ||| c.channel.setWidth 8 <<< l.channelAt ||| flagAt l.refOutAt c.refOut
    ||| flagAt l.bufEnableAt c.bufEnable ||| flagAt l.pgaBypassAt c.pgaBypass

/-- A flag read from its place; a flag without one keeps its value. -/
def flagFrom (place : Option Nat) (byte : Byte) (old : Bool) : Bool :=
  match place with
  | none => old
  | some k => byte.getLsbD k

/-- `unpack()` (R215): the inverse of `pack` on the fields the layout holds. -/
def unpack (l : Layout) (byte : Byte) (old : Settings) : Settings :=
  { old with
    speed := byte.extractLsb' l.speedAt 2
    gain := byte.extractLsb' l.gainAt 2
    channel := byte.extractLsb' l.channelAt 2
    refOut := flagFrom l.refOutAt byte old.refOut
    bufEnable := flagFrom l.bufEnableAt byte old.bufEnable
    pgaBypass := flagFrom l.pgaBypassAt byte old.pgaBypass }

/-- The attach-time properties (R222): each may be absent. The basic variant has the buffer-enable and bypass flags, the
extended one the reference output and the buffer size; a property of the other variant is left absent. -/
structure Properties where
  gain : Option (BitVec 2)
  speed : Option (BitVec 2)
  channel : Option (BitVec 2)
  refOut : Option Bool
  bufEnable : Option Bool
  pgaBypass : Option Bool
  bufferSize : Option Nat
  deriving DecidableEq, Repr

/-- The configuration load (R222, R286): each property, or its default when absent. R222 has no property for the offset and
does not say what it is at attach: DESIGN CHOICE (log 42), the default in memory, with nothing sent to the chip's offset
register. -/
def Properties.settings (q : Properties) (defaults : Settings) : Settings where
  gain := q.gain.getD defaults.gain
  speed := q.speed.getD defaults.speed
  channel := q.channel.getD defaults.channel
  refOut := q.refOut.getD defaults.refOut
  bufEnable := q.bufEnable.getD defaults.bufEnable
  pgaBypass := q.pgaBypass.getD defaults.pgaBypass
  offset := defaults.offset

/-- What a call wants changed in the Configuration State (R216). -/
inductive Change where
  /-- Nothing: the fields are sent as they are (R222, R233). -/
  | same
  /-- All the fields of the byte; the offset in `c` is not read. -/
  | fields (c : Settings)
  /-- The rate code (R220). -/
  | speed (code : BitVec 2)
  /-- The channel (R219). -/
  | channel (c : BitVec 2)
  deriving DecidableEq, Repr

/-- The wanted fields (R216). R216 does not say whether they take in the offset, which is no field of the byte (R215): DESIGN
CHOICE (log 41), they do not, so the in-memory offset changes with a write of the offset register alone (R218). A flag
that the layout has no place for is among them. -/
def Change.wanted : Change → Settings → Settings
  | .same, c => c
  | .fields d, c => { d with offset := c.offset }
  | .speed code, c => { c with speed := code }
  | .channel ch, c => { c with channel := ch }

/-! ### Sampling History and statistics -/

/-- The circular buffer (R229): `head` is the next slot to overwrite. -/
structure History where
  slots : List Int
  head : Nat
  deriving DecidableEq, Repr

/-- A history of a capacity fixed at creation (R229). What a slot holds before it is written the spec does not say:
DESIGN CHOICE (log 36), 0. -/
def History.create (cap : Nat) : History := ⟨List.replicate cap 0, 0⟩

/-- `buf[buffer_head] <- x; buffer_head <- (buffer_head + 1) mod BUF_CAP` (R229). R229 gives no range for the capacity and no
meaning to `mod 0`: DESIGN CHOICE (log 47), a history of capacity 0 stores nothing and its head grows by one. -/
def History.append (h : History) (x : Int) : History :=
  ⟨h.slots.set h.head x, (h.head + 1) % h.slots.length⟩

/-- Clearing the buffer (R229; 91_not_in_source.md N13: a call of its own): as it was created, with its capacity. What the
clearing does to `buffer_head` the spec does not say: DESIGN CHOICE (log 50), it is 0 again, so the `n` of "`n mod capacity`"
counts from the clearing. -/
def History.clear (h : History) : History := History.create h.slots.length

/-- Where the background task stands (R224, R225). -/
inductive Task where
  /-- Not started. -/
  | absent
  /-- At the head of the loop, about to test the stop request and `running`. -/
  | testing
  /-- Paused: asleep for `T_PAUSE_POLL`, until `NOW` is `wake`. -/
  | paused (wake : Nat)
  /-- Asleep for the interval, until `NOW` is `wake`. -/
  | sleeping (wake : Nat)
  /-- Its RAWRD is presented; `since` responses had been delivered then. -/
  | reading (since : Nat)
  /-- It has seen the stop request and is no more. -/
  | exited
  deriving DecidableEq, Repr

/-- The task does not run: it was not started, or it has exited (R232). -/
def Task.ended : Task → Bool
  | .absent => true
  | .testing => false
  | .paused _ => false
  | .sleeping _ => false
  | .reading _ => false
  | .exited => true

/-- What the host holds (10_state.md R44, R211, R224 to R234). -/
structure HostState where
  /-- The Device Handle exists (10_state.md R21): from a granted attach to a detach. -/
  handle : Bool
  settings : Settings
  /-- `running` (R228). -/
  running : Bool
  /-- The stop request (R228, R232). -/
  stop : Bool
  /-- The background task (R224). -/
  task : Task
  /-- The caller that holds the lock of the Device Handle (R234). -/
  lock : Option Nat
  /-- The latest published sample (R225). -/
  latest : Option Int
  /-- The loop's monotonic counter, never reset and not exposed (R231). -/
  sampleCounter : Nat
  history : History
  /-- The running sum and count of the statistics (R230). -/
  sum : Int
  count : Nat
  /-- An engine reset has cut an operation off and the chip has not been power-cycled since (70_reset_and_hazards.md R296). -/
  desynced : Bool
  deriving DecidableEq, Repr

/-- A sample is published (R225, R229, R230). -/
def HostState.publish (h : HostState) (x : Int) : HostState :=
  { h with
    latest := some x, sampleCounter := h.sampleCounter + 1, history := h.history.append x
    sum := h.sum + x, count := h.count + 1 }

/-- `get_mean()` (R230): 0 when the count is 0, else the quotient truncated toward zero. -/
def HostState.mean (h : HostState) : Int := if h.count = 0 then 0 else h.sum.tdiv h.count

/-- `get_sample_count()` (R231), a u64 there. What it gives past 2^64 - 1 samples the spec does not say: DESIGN CHOICE (log 49),
the count is a number without a bound. -/
def HostState.sampleCount (h : HostState) : Nat := h.count

/-- `clear_statistics()` (R230): the history stays. -/
def HostState.clearStatistics (h : HostState) : HostState := { h with sum := 0, count := 0 }

/-- `clear_buffer()` (R229): the statistics stay (R230). -/
def HostState.clearBuffer (h : HostState) : HostState := { h with history := h.history.clear }

/-- `set_running(bool)` (R228). -/
def HostState.setRunning (h : HostState) (b : Bool) : HostState := { h with running := b }

/-- `read_offset()` (R218). -/
def HostState.readOffset (h : HostState) : Int := h.settings.offset

/-- `read_rate()` (R220). -/
def HostState.readRate (h : HostState) : Nat := rateFor h.settings.speed

/-- `read_scale(gain_code)` (R221). -/
def readScale (p : Params) (gain : BitVec 2) : Nat × Nat := scaleFor p gain

/-- The loop's interval: about 95% of the nominal sample period, in ticks (R226; rounded down, log 25). -/
def loopInterval (speed : BitVec 2) : Nat :=
  Config.ticksPerSecond * Config.loopPercent / 100 / rateFor speed

/-- The host before any attach: no handle, no task. -/
def HostState.unattached (p : Params) : HostState :=
  ⟨false, p.defaults, false, false, .absent, none, none, 0, History.create 0, 0, 0, false⟩

/-- The Device Handle is created with a granted attach (10_state.md R21, R229): a history of its capacity, no samples, no
stop request. That the loop begins unpaused is the model's: DESIGN CHOICE (log 38). What is known of the chip stays. -/
def HostState.createHandle (p : Params) (cap : Nat) (h : HostState) : HostState :=
  { HostState.unattached p with
    handle := true, running := true, lock := h.lock, history := History.create cap, desynced := h.desynced }

/-- The Device Handle is destroyed, with all it holds (10_state.md R21, R223). What is known of the chip stays. -/
def HostState.destroyHandle (p : Params) (h : HostState) : HostState :=
  { HostState.unattached p with lock := h.lock, desynced := h.desynced }

/-- An engine reset has struck: the engine is DETACHED, so no Device Handle exists (10_state.md R21), and the chip is out of
step if an operation was `cut` off (70_reset_and_hazards.md R296). What becomes of the loop and of the lock the spec does not
say: DESIGN CHOICE (log 44), they go with the handle, so a task that waits for the response of a cut RAWRD is no more and the
next attach starts another. -/
def HostState.struck (p : Params) (cut : Bool) (h : HostState) : HostState :=
  { HostState.unattached p with desynced := h.desynced || cut }

/-- Whether a command must not be sent yet: after a reset that cut an operation off the host "attaches and issues CHIPRST
before anything else" (70_reset_and_hazards.md R296). DETACH, which clocks nothing, may be sent (log 44); with no handle the
engine refuses every command but ATTACH by itself. -/
def HostState.holdsBack (h : HostState) (i : Instr) : Bool :=
  h.handle && h.desynced && match i with
    | .attach | .detach | .chiprst => false
    | .waitrdy | .rawrd | .regwr _ _ | .regrd _ | .rdbit | .wrbit _ | .pulse => true

end Sys2Proof.Facade
end

