-- ==== Sys2Proof/Machine/HostSystem.lean ====
section
/-! DEFINITION. The host at work (44_host_config_and_sampling.md, 30_encoding.md R105, 70_reset_and_hazards.md R285): the
callers of the Facade, the background task and the engine, each of which moves on its own (R234).

A call is a list of jobs. A job that needs the chip takes the host's lock, presents one command at the host port and waits
for the response, however long the engine is busy before it (20_memory.md R75, R76). In what order the agents move is an
input: a list of moves. -/

namespace Sys2Proof.Facade

open Sys2Proof.Machine

/-! ### Calls as lists of jobs -/

/-- What the host does when the command of a job completes with `Ok`. -/
inductive Effect where
  | nothing
  /-- The granted ATTACH: the handle is created, with a history of the capacity. -/
  | createHandle (cap : Nat)
  /-- The DETACH: the handle is destroyed (10_state.md R21). -/
  | destroyHandle
  /-- The CHIPRST: the chip is at the start of a frame again (70_reset_and_hazards.md R296). -/
  | powerCycled
  /-- The wanted fields become the in-memory ones (R216, R218). -/
  | update (wanted : Settings)
  /-- The same of a channel switch, after which the settle period runs (R219). -/
  | switch (wanted : Settings)
  /-- The response's value is the call's answer (R219). -/
  | giveSample
  deriving DecidableEq, Repr

/-- The host state after the `Ok`. -/
def Effect.act (p : Params) : Effect → HostState → HostState
  | .nothing, h => h
  | .createHandle cap, h => h.createHandle p cap
  | .destroyHandle, h => h.destroyHandle p
  | .powerCycled, h => { h with desynced := false }
  | .update c, h => { h with settings := c }
  | .switch c, h => { h with settings := c }
  | .giveSample, h => h

/-- One thing a call does. -/
inductive Job where
  /-- The engine reset of the bring-up (70_reset_and_hazards.md R285 step 1). -/
  | engineReset
  /-- SETCR 0 to 7 (R285 step 2). -/
  | configure (c : ConfigRegs)
  /-- A command, and what its `Ok` does. -/
  | command (i : Instr) (e : Effect)
  /-- The CHIPRST of the bring-up: when `asked` for (R285 step 4), and always when a reset has cut an operation off
  (70_reset_and_hazards.md R296). -/
  | powerCycle (asked : Bool)
  /-- `apply()` (R216). -/
  | apply (ch : Change)
  /-- The channel switch of `read_channel`, when the channel differs (R219). -/
  | switchChannel (c : BitVec 2)
  /-- The settle period `T_SETTLE` (R219). -/
  | settle
  /-- The latest published sample is the answer, or `Busy` (R219, R235). -/
  | giveLatest
  /-- The register write of `write_offset` (R218). -/
  | writeOffset (v : Int)
  /-- `SETCR 2, t` then WAITRDY (30_encoding.md R105). -/
  | boundedWait (t : Word)
  /-- The configuration load (R222, R285 step 5). -/
  | load (q : Properties)
  /-- The background task is started (R224, R285 step 7). -/
  | startLoop
  /-- The stop request is set (R232). -/
  | requestStop
  /-- The wait for the task's exit (R232). -/
  | awaitExit
  /-- `running` is written (R228, R233). -/
  | setRunning (b : Bool)
  | clearStatistics
  | clearBuffer
  deriving DecidableEq, Repr

/-- A job that is done also when one before it has failed: `reset()` restores `running` (R233; log 25). -/
def Job.always : Job → Bool
  | .setRunning _ => true
  | .engineReset => false
  | .configure _ => false
  | .command _ _ => false
  | .powerCycle _ => false
  | .apply _ => false
  | .switchChannel _ => false
  | .settle => false
  | .giveLatest => false
  | .writeOffset _ => false
  | .boundedWait _ => false
  | .load _ => false
  | .startLoop => false
  | .requestStop => false
  | .awaitExit => false
  | .clearStatistics => false
  | .clearBuffer => false

/-- The Facade calls that act (section 2 of 44_host_config_and_sampling.md, 30_encoding.md R105). The queries
(`read_offset`, `read_rate`, `read_scale`, `get_mean`, `get_sample_count`) read the host state at once and are functions of
Machine/HostContract.lean. -/
inductive Call where
  /-- `apply()` (R216). -/
  | apply (ch : Change)
  /-- `write_offset(v)` (R218). -/
  | writeOffset (v : Int)
  /-- `write_rate(hz)` (R220). -/
  | writeRate (hz : Nat)
  /-- `read_channel(c)` (R219). -/
  | readChannel (c : BitVec 2)
  /-- `wait_ready(t)` (30_encoding.md R105). -/
  | waitReady (t : Word)
  /-- `reset()` (R233). -/
  | reset
  /-- `set_running(b)` (R228). -/
  | setRunning (b : Bool)
  /-- `clear_statistics()` (R230). -/
  | clearStatistics
  /-- `clear_buffer()` (R229, 91_not_in_source.md N13). -/
  | clearBuffer
  /-- Attach, in the bring-up order (70_reset_and_hazards.md R285): the register values to set, whether the chip is
  power-cycled, the properties. -/
  | probe (c : ConfigRegs) (cycle : Bool) (q : Properties)
  /-- Detach (R232). -/
  | remove
  deriving DecidableEq, Repr

/-- The bring-up of 70_reset_and_hazards.md R285; the loop is the extended variant's. When a step after the granted ATTACH
fails the spec does not say what follows: DESIGN CHOICE (log 37), the failure is reported, the steps after it are left out
and the engine stays attached. -/
def bringUp (p : Params) (c : ConfigRegs) (cycle : Bool) (q : Properties) : List Job :=
  [.engineReset, .configure c, .command .attach (.createHandle (q.bufferSize.getD p.bufCap)), .powerCycle cycle, .load q,
      .apply .same]
    ++ (if p.variant = .extended then [.startLoop] else [])

/-- The jobs of a call, begun in the host state `h`. -/
def Call.jobs (p : Params) (h : HostState) : Call → List Job
  | .apply ch => [.apply ch]
  | .writeOffset v => [.writeOffset v]
  | .writeRate hz =>
    match codeFor hz with
    | none => []
    | some code => [.apply (.speed code)]
  | .readChannel c =>
    [.switchChannel c, if p.variant = .extended then .giveLatest else .command .rawrd .giveSample]
  | .waitReady t => [.boundedWait t]
  | .reset => [.setRunning false, .command .chiprst .powerCycled, .apply .same, .setRunning h.running]
  | .setRunning b => [.setRunning b]
  | .clearStatistics => [.clearStatistics]
  | .clearBuffer => [.clearBuffer]
  | .probe c cycle q => bringUp p c cycle q
  | .remove => [.requestStop, .awaitExit, .command .detach .destroyHandle]

/-- A call the host rejects by itself, before any command: an unsupported rate (R220, R235), a second attach while the one
handle of the chip exists (10_state.md R21; log 25), and a detach when there is no handle and no task to tear down (R21; DESIGN
CHOICE, log 43). After an engine reset there is no handle (log 44), so an attach is not rejected. What a call that needs no
command does when there is no handle the spec does not say: DESIGN CHOICE (log 46), it is not rejected for want of one, so
`set_running`, `clear_statistics` and `clear_buffer` answer `Ok`, and `read_channel` of the channel in memory answers `Busy` in
the extended variant. -/
def Call.rejection (h : HostState) : Call → Option Status
  | .writeRate hz => if (codeFor hz).isNone then some .invalidArgument else none
  | .probe _ _ _ => if h.handle then some .invalidArgument else none
  | .apply _ => none
  | .writeOffset _ => none
  | .readChannel _ => none
  | .waitReady _ => none
  | .reset => none
  | .setRunning _ => none
  | .clearStatistics => none
  | .clearBuffer => none
  | .remove => if h.handle || !h.task.ended then none else some .resourceUnavailable

/-! ### The system -/

/-- What a call answers. -/
inductive Answer where
  /-- The host gives the status by itself (R235). -/
  | rejected (st : Status)
  /-- The status of the engine's response, `Ok` when every job is done (R235). -/
  | answered (st : Status)
  /-- A sample. -/
  | sample (x : Int)
  deriving DecidableEq, Repr

/-- Where a caller stands in its first job. -/
inductive Place where
  /-- About to do it. -/
  | ready
  /-- Its command is presented, with `since` responses delivered before, and it holds the lock. -/
  | awaiting (since : Nat) (e : Effect)
  /-- Asleep until `NOW` is `wake`. -/
  | asleep (wake : Nat)
  deriving DecidableEq, Repr

/-- A call in progress: the jobs left, and the answer if nothing more happens. -/
structure Activity where
  caller : Nat
  jobs : List Job
  place : Place
  reply : Answer
  deriving DecidableEq, Repr

/-- The host and the engine together. -/
structure System where
  host : HostState
  engine : State
  calls : List Activity
  /-- The answers given, oldest first. -/
  answers : List (Nat × Answer)
  deriving DecidableEq, Repr

/-- The requester number of the background task at the host port (log 29). -/
def taskRequester : Nat := 0

/-- The requester number of a caller, another one than the task's (log 29). -/
def callerRequester (k : Nat) : Nat := k + 1

/-- The response to a requester's command, once it is there (20_memory.md R75). -/
def replyTo (s : State) (since who : Nat) : Option Response :=
  (s.responses.drop since).find? fun r => decide (r.who = who)

/-- The call of a caller, if it is in one. -/
def System.activity (y : System) (k : Nat) : Option Activity := y.calls.find? fun a => decide (a.caller = k)

/-- The call of a caller goes on as `a`. -/
def System.put (y : System) (a : Activity) : System :=
  { y with calls := y.calls.map fun b => if b.caller = a.caller then a else b }

/-- The first job is done. -/
def Activity.next (a : Activity) : Activity := { a with jobs := a.jobs.tail, place := .ready }

/-- The first job has failed: only what is done always is left of the call (R235). -/
def Activity.fail (a : Activity) (reply : Answer) : Activity :=
  { a with jobs := a.jobs.tail.filter Job.always, place := .ready, reply := reply }

/-- A caller has to wait before it presents the command: for the lock (R216, R234), or for the CHIPRST that comes before
anything else (70_reset_and_hazards.md R296). -/
def System.blocked (y : System) (i : Instr) : Bool := y.host.lock.isSome || y.host.holdsBack i

/-- A command of a job is presented and the lock taken, or the caller waits. -/
def System.present (y : System) (a : Activity) (i : Instr) (e : Effect) : System :=
  if y.blocked i then y
  else
    ({ y with
        host := { y.host with lock := some a.caller }
        engine := y.engine.hostAct (.present ⟨callerRequester a.caller, encode i⟩) } : System).put
      { a with place := .awaiting y.engine.responses.length e }

/-- The wanted fields are sent in one register write (R216). -/
def System.presentApply (p : Params) (y : System) (a : Activity) (ch : Change) (e : Settings → Effect) : System :=
  y.present a (.regwr p.cfgRegAddr (pack p.layout (ch.wanted y.host.settings))) (e (ch.wanted y.host.settings))

/-- SETCR 0 to 7 (43_system_ops.md R194, 70_reset_and_hazards.md R285). -/
def setRegisters (s : State) (c : ConfigRegs) : State :=
  (List.range 8).foldl (fun s n => s.hostAct (.write (.cr n) (c.get n))) s

/-- What an engine reset leaves of a call: one that has done its work answers as it would have, any other ends with
`ResourceUnavailable`, for no handle exists (60_exceptions.md R257, "no operation silently swallows an error", R235; DESIGN
CHOICE, log 44). -/
def Activity.cut (a : Activity) : Activity :=
  if a.place = .ready ∧ a.jobs = [] then a
  else { a with jobs := [], place := .ready, reply := .rejected .resourceUnavailable }

/-- An engine reset strikes, after which the engine is `t` (70_reset_and_hazards.md R281): the handle is gone, the calls in
progress end, and the commands they have waiting are withdrawn, so that the host can attach and issue CHIPRST before anything
else (R296; DESIGN CHOICE, log 44). -/
def System.strike (p : Params) (y : System) (t : State) : System :=
  { y with
    host := y.host.struck p (decide (y.engine.eng = .busy))
    engine := { t with waiting := [] }
    calls := y.calls.map Activity.cut }

/-- A caller about to do its first job does it, or waits: for the lock, for an engine that would drop a register write
(10_state.md R28; log 25), for the task's exit. Nothing in R232 keeps a detach from being called while an attach is in its
steps: DESIGN CHOICE (log 43), both go on, and the last step of the attach starts no loop once a stop is requested or the
handle is gone, so that no loop is left that the detach has not waited for. R219 and R234 do not say whether `read_channel` takes
the lock where it presents no command: DESIGN CHOICE (log 39), it compares the channel only while the lock is free and reads the
latest sample whoever holds it. -/
def System.doJob (p : Params) (y : System) (a : Activity) : Job → System
  | .engineReset =>
    if y.host.handle then y.put (a.fail (.rejected .invalidArgument))
    else (y.strike p (y.engine.hostAct .engineReset)).put a.next
  | .configure c =>
    if y.engine.eng = .busy then y else ({ y with engine := setRegisters y.engine c } : System).put a.next
  | .command i e => y.present a i e
  | .powerCycle asked =>
    if asked || y.host.desynced then y.present a .chiprst .powerCycled else y.put a.next
  | .apply ch => y.presentApply p a ch .update
  | .switchChannel c =>
    if y.host.lock.isSome then y
    else if c = y.host.settings.channel then y.put a.next
    else y.presentApply p a (.channel c) .switch
  | .settle => y.put { a with place := .asleep (y.engine.now + p.tSettle) }
  | .giveLatest =>
    match y.host.latest with
    | none => y.put (a.fail (.rejected .busy))
    | some x => y.put { a.next with reply := .sample x }
  | .writeOffset v =>
    y.present a (.regwr p.offsetRegAddr (BitVec.ofInt 8 v)) (.update { y.host.settings with offset := v })
  | .boundedWait t =>
    if y.engine.eng = .busy ∨ y.blocked .waitrdy then y
    else ({ y with engine := y.engine.hostAct (.write (.cr 2) t) } : System).present a .waitrdy .nothing
  | .load q =>
    if y.host.lock.isSome then y
    else ({ y with host := { y.host with settings := q.settings p.defaults } } : System).put a.next
  | .startLoop =>
    if y.host.handle && !y.host.stop then ({ y with host := { y.host with task := .testing } } : System).put a.next
    else y.put a.next
  | .requestStop => ({ y with host := { y.host with stop := true } } : System).put a.next
  | .awaitExit => if y.host.task.ended then y.put a.next else y
  | .setRunning b => ({ y with host := y.host.setRunning b } : System).put a.next
  | .clearStatistics =>
    if y.host.lock.isSome then y else ({ y with host := y.host.clearStatistics } : System).put a.next
  | .clearBuffer => if y.host.lock.isSome then y else ({ y with host := y.host.clearBuffer } : System).put a.next

/-- The call of a caller after the `Ok` of its command: a switched channel settles before the next job (R219), and a sample
is the answer. -/
def Activity.succeed (a : Activity) (e : Effect) (r : Response) : Activity :=
  match e with
  | .switch _ => { a.next with jobs := .settle :: a.jobs.tail }
  | .giveSample => { a.next with reply := .sample r.value.toInt }
  | .nothing => a.next
  | .createHandle _ => a.next
  | .destroyHandle => a.next
  | .powerCycled => a.next
  | .update _ => a.next

/-- The response is there: the lock is released, with whatever status (20_memory.md R77); on `Ok` the host state follows,
else nothing of it changes and the call ends with the status (R216, R235). So a DETACH that fails, because something other than
this host's calls has detached the engine before it, leaves the handle, and an attach is rejected until an engine reset has
struck: R232 says nothing of it, DESIGN CHOICE (log 45). -/
def System.receive (p : Params) (y : System) (a : Activity) (e : Effect) (r : Response) : System :=
  if r.status = .ok then
    ({ y with host := { e.act p y.host with lock := none } } : System).put (a.succeed e r)
  else ({ y with host := { y.host with lock := none } } : System).put (a.fail (.answered r.status))

/-- A caller moves in its call. -/
def System.callerMove (p : Params) (y : System) (a : Activity) : System :=
  match a.place with
  | .awaiting since e =>
    match replyTo y.engine since (callerRequester a.caller) with
    | none => y
    | some r => y.receive p a e r
  | .asleep wake => if wake ≤ y.engine.now then y.put a.next else y
  | .ready =>
    match a.jobs with
    | [] => { y with
        calls := y.calls.filter fun b => decide (b.caller ≠ a.caller)
        answers := y.answers ++ [(a.caller, a.reply)] }
    | j :: _ => y.doJob p a j

/-- The background task moves (R225). It takes no lock for its RAWRD (R227), and publishes under the lock, for which it
waits. The response always comes (70_reset_and_hazards.md R299) but for an engine reset, which ends the task (`HostState.struck`;
DESIGN CHOICE, log 44). -/
def System.taskMove (p : Params) (y : System) : System :=
  let goOn (t : Task) : System := { y with host := { y.host with task := t } }
  match y.host.task with
  | .absent => y
  | .exited => y
  | .testing =>
    if y.host.stop then goOn .exited
    else if y.host.running then goOn (.sleeping (y.engine.now + loopInterval y.host.settings.speed))
    else goOn (.paused (y.engine.now + p.tPausePoll))
  | .paused wake => if wake ≤ y.engine.now then goOn .testing else y
  | .sleeping wake =>
    if wake ≤ y.engine.now then
      { y with
        host := { y.host with task := .reading y.engine.responses.length }
        engine := y.engine.hostAct (.present ⟨taskRequester, encode .rawrd⟩) }
    else y
  | .reading since =>
    match replyTo y.engine since taskRequester with
    | none => y
    | some r =>
      if r.status = .ok then
        if y.host.lock.isSome then y
        else { y with host := { y.host.publish r.value.toInt with task := .testing } }
      else goOn .testing

/-- A call is made: it is rejected at once, or it begins. A caller is in one call at a time, for the calls are synchronous
(R234). -/
def System.begin (p : Params) (y : System) (k : Nat) (c : Call) : System :=
  match y.activity k with
  | some _ => y
  | none =>
    match c.rejection y.host with
    | some st => { y with answers := y.answers ++ [(k, .rejected st)] }
    | none => { y with calls := y.calls ++ [⟨k, c.jobs p y.host, .ready, .answered .ok⟩] }

/-- The engine's next step is an engine reset that lands (log 11). -/
def resetDue (s : State) : Bool :=
  match s.hostIn with
  | [] => false
  | h :: _ => decide (h = ⟨0, .engineReset⟩)

/-- The engine moves. When what lands is an engine reset, the host knows of it, as the one who pulls it
(70_reset_and_hazards.md R281, R285; DESIGN CHOICE, log 44). -/
def System.engineMove (p : Params) (y : System) : System :=
  match step y.engine with
  | .next t => if resetDue y.engine then y.strike p t else { y with engine := t }
  | .fault _ => y
  | .refused _ => y

/-- Who moves. -/
inductive Move where
  /-- Caller `k` makes a call. -/
  | call (k : Nat) (c : Call)
  /-- Caller `k` goes on in its call. -/
  | caller (k : Nat)
  | task
  | engine
  /-- Time passes (10_state.md R20 d). -/
  | pass (ticks : Nat)
  /-- The host pulls the engine reset, in any state (70_reset_and_hazards.md R281). -/
  | engineReset
  deriving DecidableEq, Repr

/-- One move. -/
def System.move (p : Params) (y : System) : Move → System
  | .call k c => y.begin p k c
  | .caller k =>
    match y.activity k with
    | none => y
    | some a => y.callerMove p a
  | .task => y.taskMove p
  | .engine => y.engineMove p
  | .pass ticks => { y with engine := y.engine.hostAct (.pass ticks) }
  | .engineReset => y.strike p (y.engine.hostAct .engineReset)

/-- The move is an engine reset: one that lands, one that the host pulls, or the first job of an attach that is not rejected. -/
def System.strikes (y : System) : Move → Bool
  | .call _ _ => false
  | .caller k =>
    match y.activity k with
    | none => false
    | some a => decide (a.place = .ready ∧ a.jobs.head? = some .engineReset) && !y.host.handle
  | .task => false
  | .engine => resetDue y.engine
  | .pass _ => false
  | .engineReset => true

/-- A run of the system: the moves one after the other. -/
def System.run (p : Params) (y : System) (ms : List Move) : System := ms.foldl (System.move p) y

/-- The system before any attach. -/
def System.initial (p : Params) (s : State) : System := ⟨HostState.unattached p, s, [], []⟩

end Sys2Proof.Facade
end

