-- ==== Sys2Proof/Machine/Observe.lean ====
section
/-! DEFINITION. What can be seen of a run, and what the environment is going to answer: the words the statements use.

The pins: 10_state.md R24, 95_test_vectors.md section 1. The environment: 20_memory.md R64, R73. The ready-wait in
admitted timing: 41_ready_gate.md R151, R154. -/

namespace Sys2Proof.Machine

/-! ### The environment's coming answers -/

/-- The `k`-th coming answer of a source, counting from 0. -/
def Source.nth {α : Type} (free : Nat → α) (q : Source α) (k : Nat) : α :=
  (q.script[k]?).getD (free (q.drawn + k))

/-- The level the line answers to the `k`-th coming `SMP()`. -/
def State.answer (s : State) (k : Nat) : Level := s.env.samples.nth Config.lineLevel k

/-- The ticks the `k`-th coming micro-event takes beyond its minimum (20_memory.md R73). -/
def State.excess (s : State) (k : Nat) : Nat := s.env.slacks.nth Config.slack k

/-- The ticks the next `n` micro-events take beyond their minimums, together. -/
def State.elapsed (s : State) : Nat → Nat
  | 0 => 0
  | n + 1 => s.elapsed n + s.excess n

/-- The reference timing (20_memory.md R73) for the next `n` micro-events: none takes more than its minimum. -/
def State.referenceTiming (s : State) (n : Nat) : Prop := ∀ k, k < n → s.excess k = 0

/-! ### The ready-wait that begins now (41_ready_gate.md R151) -/

/-- Micro-events before the deadline is set: the `DIR(in)` of shared wiring. -/
def State.waitBase (s : State) : Nat := if s.cfg.sharedPin then 1 else 0

/-- The deadline of a ready-wait that begins now: the first `TIME()` reading plus `TIMEOUT`. -/
def State.waitDeadline (s : State) : Nat := s.now + s.elapsed s.waitBase + s.cfg.timeout.toNat

/-- The `TIME()` reading of deadline test `j`, after `j` sleeps. -/
def State.testTime (s : State) (j : Nat) : Nat :=
  s.now + s.elapsed (s.waitBase + 2 + 3 * j) + j * s.cfg.tPoll.toNat

/-- The first `k` turns of the ready-wait found the line high and the deadline not reached. -/
def State.stillWaiting (s : State) (k : Nat) : Prop :=
  ∀ j, j < k → s.answer j = true ∧ s.testTime j < s.waitDeadline

/-- The ready-wait that begins now ends with `Ok` at the sample numbered `k`. -/
def State.readyAt (s : State) (k : Nat) : Prop := s.stillWaiting k ∧ s.answer k = false

/-- The ready-wait that begins now ends with `Timeout` at the sample numbered `k`. -/
def State.expiresAt (s : State) (k : Nat) : Prop :=
  s.stillWaiting k ∧ s.answer k = true ∧ s.waitDeadline ≤ s.testTime k

/-! ### What a frame reads -/

/-- The sample a frame reads from the answer numbered `d` on: its first answer is bit 23 (42_frame_codec.md R161). -/
def SampleFrom (s : State) (d : Nat) (v : BitVec 24) : Prop := ∀ i, i < 24 → v.getLsbD i = s.answer (d + (23 - i))

/-- The answers RAWRD draws before its data: `k + 1` polls and the re-check when it is on (42_frame_codec.md R163). -/
def dataStart (s : State) (k : Nat) : Nat := k + 1 + if s.cfg.busyRecheck then 1 else 0

/-- `r` recovery pulses are issued when the recovery samples start at answer `e` (42_frame_codec.md R165): the first
`r` of them are low, and either `RECOVER_MAX` is reached or the next is high. -/
def RecoversAfter (s : State) (e r : Nat) : Prop :=
  r ≤ s.cfg.recoverMax.toNat ∧ (∀ j, j < r → s.answer (e + j) = false) ∧
    (r < s.cfg.recoverMax.toNat → s.answer (e + r) = true)

/-! ### What is seen on the pins -/

/-- The events of a trace in order, without the `TIME()` reads, which touch no pin (95_test_vectors.md section 1). -/
def seen (tr : List Event) : List PinEvent := (tr.map Event.pin).filter (· ≠ .time)

/-- The clock pulses of a list of events: its rising edges. -/
def pulseCount (es : List PinEvent) : Nat := es.count (.clk true)

/-- The data levels driven in a list of events. -/
def dataLevels (es : List PinEvent) : Nat := es.countP fun e => e == .dat true || e == .dat false

/-- A read cell (40_bit_transport.md R130). -/
def readSeen (c : ConfigRegs) (b : Level) : List PinEvent :=
  [.clk true, .hold c.tHigh.toNat, .smp b, .clk false, .hold c.tLow.toNat]

/-- A pulse cell (40_bit_transport.md R132). -/
def pulseSeen (c : ConfigRegs) : List PinEvent :=
  [.clk true, .hold c.tHigh.toNat, .clk false, .hold c.tLow.toNat]

/-- A direction event of shared wiring, nothing in dedicated wiring (00_scope.md R9). -/
def dirSeen (c : ConfigRegs) (d : Dir) : List PinEvent := if c.sharedPin then [.dir d] else []

/-- A write cell (40_bit_transport.md R131). -/
def writeSeen (c : ConfigRegs) (b : Level) : List PinEvent :=
  dirSeen c .output
    ++ [.dat (b ^^ c.dinInvert), .clk true, .hold c.tHigh.toNat, .clk false, .hold c.tLow.toNat]
    ++ dirSeen c .input

/-- The turns of a ready-wait that find the line high and sleep. -/
def pollSeen (c : ConfigRegs) (k : Nat) : List PinEvent :=
  dirSeen c .input ++ (List.replicate k [.smp true, .hold c.tPoll.toNat]).flatten

/-- `n` read cells with the answers numbered from `k`. -/
def State.readsSeen (s : State) (k n : Nat) : List PinEvent :=
  (List.range n).flatMap fun i => readSeen s.cfg (s.answer (k + i))

/-- The `n` low bits of `v`, most significant first, each in a write cell. -/
def writesSeen (c : ConfigRegs) (v : Byte) (n : Nat) : List PinEvent :=
  (List.range n).flatMap fun k => writeSeen c (v.getLsbD (n - 1 - k))

/-- `n` pulse cells. -/
def pulsesSeen (c : ConfigRegs) (n : Nat) : List PinEvent := (List.replicate n (pulseSeen c)).flatten

/-- `r` turns of the recovery loop that found the line low, each with its pulse (42_frame_codec.md R165). -/
def recoverSeen (c : ConfigRegs) (r : Nat) : List PinEvent :=
  (List.replicate r (.smp false :: pulseSeen c)).flatten

/-! ### How a command ends -/

/-- The command completed (60_exceptions.md R254): the status registers hold its status, its `op` and the `TIMEOUT`
it was accepted with, its requester got one response, and nothing is left to do. -/
def Completed (s t : State) (op : Byte) (st : Status) (value : Word) (recn : BitVec 4) : Prop :=
  t.status = ⟨st, op, s.cfg.timeout⟩ ∧ t.responses = s.responses ++ [⟨s.requester, st, value, recn⟩] ∧ t.todo = []

/-- What no command writes: the configuration registers and the host's side of the port. -/
def HostSideKept (s t : State) : Prop :=
  t.cfg = s.cfg ∧ t.waiting = s.waiting ∧ t.requester = s.requester ∧ t.hostIn = s.hostIn ∧ t.reads = s.reads

/-- The latched operand fields are those of the word (20_memory.md R75). -/
def OperandsLatched (t : State) (w : Word) : Prop :=
  t.regs.op = opField w ∧ t.regs.reg = regField w ∧ t.regs.data = dataField w

/-- `RESULT`, `RECN`, `SHIFT` and the pins are what they were. -/
def ResultsAndPinsKept (s t : State) : Prop :=
  t.regs.result = s.regs.result ∧ t.regs.recn = s.regs.recn ∧ t.regs.shift = s.regs.shift ∧ t.pins = s.pins

/-- What a host access, unlike an operation, may change: everything but the waiting commands, the values read, the
host's coming actions and the answers to its own reads of the line is the same. -/
def SameEngine (t u : State) : Prop :=
  t.eng = u.eng ∧ t.todo = u.todo ∧ t.pins = u.pins ∧ t.regs = u.regs ∧ t.now = u.now ∧ t.cfg = u.cfg ∧
    t.status = u.status ∧ t.latch = u.latch ∧ t.trace = u.trace ∧ t.responses = u.responses ∧
    t.env.samples = u.env.samples ∧ t.env.slacks = u.env.slacks ∧ t.env.grants = u.env.grants

/-- A register access or the presentation of a command: an action that is neither the engine reset nor the passing
of time. -/
def HostAct.isAccess : HostAct → Bool
  | .present _ => true
  | .write _ _ => true
  | .read _ _ => true
  | .engineReset => false
  | .pass _ => false

/-- A command can be accepted, and no action of the host lands during it. -/
def State.acceptsQuietly (s : State) : Prop := s.eng ≠ .busy ∧ s.hostIn = []

/-- Attached and idle, and no action of the host lands during the command. -/
def State.idleQuiet (s : State) : Prop := s.eng = .idle ∧ s.hostIn = []

/-! ### The tests of `PH_CHECK`, as 60_exceptions.md R252 lists them -/

/-- The commands that wait for ready (41_ready_gate.md R155). -/
def waitsForReady : Instr → Bool
  | .waitrdy => true
  | .rawrd => true
  | .regwr _ _ => true
  | .regrd _ => true
  | .rdbit => false
  | .wrbit _ => false
  | .pulse => false
  | .chiprst => false
  | .attach => false
  | .detach => false

/-- The register address operand of REGWR and REGRD. -/
def addressOperand : Instr → Option Byte
  | .regwr reg _ => some reg
  | .regrd reg => some reg
  | .rdbit => none
  | .wrbit _ => none
  | .pulse => none
  | .waitrdy => none
  | .rawrd => none
  | .chiprst => none
  | .attach => none
  | .detach => none

/-- `CMD_WIDTH` is in 1 to 8 (10_state.md R29). -/
abbrev ConfigRegs.widthLegal (c : ConfigRegs) : Prop := 1 ≤ c.cmdWidth.toNat ∧ c.cmdWidth.toNat ≤ 8

/-- The command passes the tests of `PH_CHECK` (60_exceptions.md R252). -/
def PassesChecks (i : Instr) (s : State) : Prop :=
  i.wellFormed = true ∧ (i = .attach ↔ s.eng = .detached) ∧ (waitsForReady i = true → s.cfg.tPoll ≠ 0#32) ∧
    ∀ reg, addressOperand i = some reg → s.cfg.widthLegal ∧ addressLegal s.cfg reg = true

/-- The commands one after the other, each presented after the response to the one before it (30_encoding.md R104);
`none` if one answers no next state. -/
def execAll : List Instr → State → Option State
  | [], s => some s
  | i :: is, s =>
    match exec i s with
    | .next t => execAll is t
    | .fault _ => none
    | .refused _ => none

/-- Whether a step performs an engine reset: it is the host's next action and it lands now. -/
def State.resetLands (s : State) : Prop := ∃ rest, s.hostIn = ⟨0, .engineReset⟩ :: rest

end Sys2Proof.Machine
end

