-- ==== Sys2Proof/Machine/Ports.lean ====
section
/-! DEFINITION. The three pin ports and the pin state as a function of time (10_state.md R22, R23, R24).

The latches are `State.pins`; this file says what they drive, and what an observer of the pins sees of a run. -/

namespace Sys2Proof.Machine

/-! ### The ports -/

/-- What the engine drives on its three ports (10_state.md R22): a level, or `none` where it drives nothing: the port is
an input, unused, or released. -/
structure Ports where
  clk : Option Level
  dout : Option Level
  din : Option Level
  deriving DecidableEq, Repr

/-- The direction of the `dout` port (10_state.md R22): always an input in dedicated wiring, `DATA_DIR` in shared wiring.
With `DRIVE` 0 the latch is without effect (R23). -/
def Pins.doutDir (p : Pins) (shared : Bool) : Dir := if p.drive && shared then p.dataDir else .input

/-- The ports from the wiring and the latches (10_state.md R22, R23): `CLK_O` on `clk`; `DATA_O` on `din` in dedicated
wiring, in shared wiring on `dout` while its direction is out; nothing at all when `DRIVE` is 0. -/
def Pins.ports (p : Pins) (shared : Bool) : Ports where
  clk := if p.drive then some p.clkO else none
  dout := if p.doutDir shared = .output then some p.dataO else none
  din := if p.drive && !shared then some p.dataO else none

/-- The ports of the engine. -/
def State.ports (s : State) : Ports := s.pins.ports s.cfg.sharedPin

/-! ### The pin state (10_state.md R24) -/

/-- The triple an observer sees: the level on `clk`, the level or high-impedance (`none`) on the data-in path, the
direction of the shared pin (`none` in dedicated wiring, which has no such pin). -/
structure PinState where
  clk : Option Level
  dataIn : Option Level
  dir : Option Dir
  deriving DecidableEq, Repr

/-- The pin state from the wiring and the latches: the data-in path is `dout` in shared wiring, else `din`. -/
def Pins.shows (p : Pins) (shared : Bool) : PinState where
  clk := (p.ports shared).clk
  dataIn := if shared then (p.ports shared).dout else (p.ports shared).din
  dir := if shared then some (p.doutDir shared) else none

/-- The pin state of the engine now. -/
def State.pinState (s : State) : PinState := s.pins.shows s.cfg.sharedPin

/-! ### The pin state over time -/

/-- The latches after an event of the trace. -/
def Pins.after (p : Pins) : PinEvent → Pins
  | .clk l => { p with clkO := l }
  | .dat l => { p with dataO := l }
  | .dir d => { p with dataDir := d }
  | .smp _ => p
  | .hold _ => p
  | .time => p
  | .acquire => { clkO := false, dataO := false, dataDir := .input, drive := true }
  | .release => { p with drive := false }

/-- Whether an event is a sample. -/
def PinEvent.isSample : PinEvent → Bool
  | .smp _ => true
  | .clk _ => false
  | .dat _ => false
  | .dir _ => false
  | .hold _ => false
  | .time => false
  | .acquire => false
  | .release => false

/-- An instant: its `NOW`, the pin state from it on, and whether the engine samples the line in it. -/
structure Moment where
  now : Nat
  pins : PinState
  sampled : Bool
  deriving DecidableEq, Repr

/-- The instants of a stretch of the trace that begins at `now` with the latches `p`; an event acts when it begins, and
then its time passes (log 16). -/
def moments (shared : Bool) : Nat → Pins → List Event → List Moment
  | _, _, [] => []
  | now, p, e :: es =>
    ⟨now, (p.after e.pin).shows shared, e.pin.isSample⟩ :: moments shared (now + e.took) (p.after e.pin) es

/-- What a step adds to the trace. -/
def newEvents (s t : State) : List Event := t.trace.drop s.trace.length

/-- The instants of a run of `n` steps. Between two events the pin state stays, also while no operation runs: each step
begins at its own `NOW`, and shows a `SHARED_PIN` that a register write changed. -/
def State.runMoments : Nat → State → List Moment
  | 0, s => [⟨s.now, s.pinState, false⟩]
  | n + 1, s =>
    ⟨s.now, s.pinState, false⟩ ::
      match step s with
      | .next t => moments s.cfg.sharedPin s.now s.pins (newEvents s t) ++ State.runMoments n t
      | .fault _ => []
      | .refused _ => []

/-- What can be seen of a list of instants (10_state.md R24): the changes of the pin state and the samples. An instant that
changes nothing, of a latch written with the level it holds among them, is not seen. -/
def visible : PinState → List Moment → List Moment
  | _, [] => []
  | q, m :: ms => if m.pins = q ∧ m.sampled = false then visible q ms else m :: visible m.pins ms

/-- The visible instants of a run of `n` steps. -/
def State.pinRecord (n : Nat) (s : State) : List Moment := visible s.pinState (s.runMoments n)

/-- The pin state as a function of time (10_state.md R24): the last one a run of `n` steps showed at or before `time`.
(`NOW` begins again at an engine reset, so this is for a run without one.) -/
def State.pinStateAt (n : Nat) (s : State) (time : Nat) : PinState :=
  match ((s.pinRecord n).filter fun m => decide (m.now ≤ time)).getLast? with
  | none => s.pinState
  | some m => m.pins

end Sys2Proof.Machine
end

