-- ==== Sys2Proof/Safety.lean ====
section
/-! DEFINITION. What a good state of the engine is: the discipline of the pins (40_bit_transport.md R133), the lock
(10_state.md R21) and the reserved bits (10_state.md R28). -/

namespace Sys2Proof.Machine

/-- At rest (40_bit_transport.md R133): the clock is low and the shared data pin is an input. -/
def atRest (clk : Level) (d : Dir) : Bool := !clk && d == .input

/-- A command may end here with `ENG` back at `held` (60_exceptions.md R254): the pins are at rest and `DRIVE` is 1
exactly when `held` is not DETACHED (10_state.md R23). -/
def mayEnd (held : Eng) (clk : Level) (d : Dir) (drive : Bool) : Bool :=
  atRest clk d && drive == (held == .idle)

/-- The rest of an operation keeps the discipline of the pins, from a clock level, a direction and a `DRIVE`:
the clock rises and falls in turn; the data level and the direction change only while the clock is low; every sample is
taken with the pin as an input; the operation ends, wherever it can end, with the pins at rest, and it does end. -/
def disciplined (held : Eng) : List Item → Level → Dir → Bool → Bool
  | [], _, _, _ => false
  | it :: rest, clk, d, drive =>
    match it.act with
    | .clk l => clk != l && disciplined held rest l d drive
    | .dat _ => !clk && disciplined held rest clk d drive
    | .dir e => !clk && disciplined held rest clk e drive
    | .hold _ => disciplined held rest clk d drive
    | .smp => d == .input && disciplined held rest clk d drive
    | .setDeadline => disciplined held rest clk d drive
    | .poll => mayEnd held clk d drive && disciplined held rest clk d drive
    | .expire => mayEnd held clk d drive && disciplined held rest clk d drive
    | .recheck => mayEnd held clk d drive && disciplined held rest clk d drive
    | .recover => atRest clk d && disciplined held rest clk d drive
    | .check none => disciplined held rest clk d drive
    | .check (some _) => mayEnd held clk d drive
    | .grant => mayEnd held clk d drive && disciplined held rest clk d drive
    | .acquire => disciplined held rest false .input true
    | .release => disciplined held rest clk d false
    | .startPhase => disciplined held rest clk d drive
    | .endCell => disciplined held rest clk d drive
    | .clearShift => disciplined held rest clk d drive
    | .shiftIn => disciplined held rest clk d drive
    | .latchSample => disciplined held rest clk d drive
    | .clearRecn => disciplined held rest clk d drive
    | .bumpRecn => disciplined held rest clk d drive
    | .complete .attached => mayEnd .idle clk d drive
    | .complete .detached => mayEnd .detached clk d drive
    | .complete .plain => mayEnd held clk d drive
    | .complete .bit => mayEnd held clk d drive
    | .complete .sample => mayEnd held clk d drive
    | .complete .byte => mayEnd held clk d drive

/-- The lock and the pins: BUSY exactly while an operation is in progress, and that operation keeps the discipline;
else the pins are at rest and driven exactly when attached. -/
def State.pinDiscipline (s : State) : Bool :=
  match s.eng with
  | .busy =>
    s.latch.heldEng != .busy
      && disciplined s.latch.heldEng s.todo s.pins.clkO s.pins.dataDir s.pins.drive
  | .idle => s.todo.isEmpty && mayEnd .idle s.pins.clkO s.pins.dataDir s.pins.drive
  | .detached => s.todo.isEmpty && mayEnd .detached s.pins.clkO s.pins.dataDir s.pins.drive

/-- The reserved bits of CR0 and CR1 are 0 (10_state.md R28, R30, R31). -/
def State.reservedBitsZero (s : State) : Bool :=
  s.cfg.mode &&& ~~~modeMask == 0#32 && s.cfg.cmdcode &&& ~~~cmdcodeMask == 0#32

/-- The invariant of the engine. -/
def State.Inv (s : State) : Prop := s.pinDiscipline = true ∧ s.reservedBitsZero = true

/-- No hold of the trace was shorter than its minimum (70_reset_and_hazards.md R287). -/
def Event.longEnough (e : Event) : Bool :=
  match e.pin with
  | .hold ticks => decide (ticks ≤ e.took)
  | _ => true

/-- Every hold so far was long enough. -/
def State.holdsLongEnough (s : State) : Prop := ∀ e ∈ s.trace, e.longEnough = true

/-- The state after `n` steps. -/
def State.afterSteps : Nat → State → State
  | 0, s => s
  | n + 1, s =>
    match step s with
    | .next t => State.afterSteps n t
    | .fault _ => s
    | .refused _ => s

/-- Two runs, of `m` steps from `s` and of `n` from `t`, are the same on the pins (10_state.md R24): the same sequence of
pin-state changes, the same samples between them, and every hold at least its minimum. -/
def SameOnThePins (s : State) (m : Nat) (t : State) (n : Nat) : Prop :=
  (s.pinRecord m).map (fun i => (i.pins, i.sampled)) = (t.pinRecord n).map (fun i => (i.pins, i.sampled)) ∧
    s.pinState = t.pinState ∧ (s.afterSteps m).holdsLongEnough ∧ (t.afterSteps n).holdsLongEnough

end Sys2Proof.Machine
end

