-- ==== Sys2Proof/Certificates/Slice0/Obligations.lean ====
section
/-! DEFINITION. The statements of the model. Each docstring names the rules of spec/ it formalises. -/

open Sys2Proof Sys2Proof.Machine

/-! ### Encoding -/

/-- 30_encoding.md R90 to R92: decoding the word of a well-formed command gives the command back, with every operand. -/
def Obligations.DecodeOfEncodeIsTheCommand : Prop :=
  ∀ i : Instr, i.wellFormed = true → decode (encode i) = .ok i

/-- 30_encoding.md R90, R93: a word that decodes has one meaning, and only its own word does; what it decodes to is
well formed. -/
def Obligations.EncodeOfDecodeIsTheWord : Prop :=
  ∀ (w : Word) (i : Instr), decode w = .ok i → encode i = w ∧ i.wellFormed = true

/-- 30_encoding.md R92: a word selects the row of a command exactly when `w & mask = match`. -/
def Obligations.DecodeSelectsRowByMaskAndMatch : Prop :=
  (∀ (w : Word) (i : Instr), decode w = .ok i → w &&& i.rowMask = i.rowMatch) ∧
    ∀ (w : Word) (i : Instr), w &&& i.rowMask = i.rowMatch →
      ∃ j, decode w = .ok j ∧ j.rowMask = i.rowMask ∧ j.rowMatch = i.rowMatch

/-- 30_encoding.md R92, 95_test_vectors.md V3, V9, V29, V35, V47: words written out from the table. -/
def Obligations.WordsOfTheTableDecode : Prop :=
  decode 0x02000001 = .ok (.wrbit 1) ∧ decode 0x110002A5 = .ok (.regwr 2 0xA5) ∧
    decode 0x12000300 = .ok (.regrd 3) ∧ decode 0x30000000 = .ok .attach ∧
    decode 0x01000100 = .error (.forbiddenOperand 1 0) ∧ decode 0x05000000 = .error (.unknownOp 5)

/-! ### The step -/

/-- 20_memory.md R75, R76: when no action of the host lands, the engine is not busy and the arbitration gives a
command whose word decodes, the step is the meaning of that command in the state in which its requester is served. -/
def Obligations.StepRunsTheDecodedCommand : Prop :=
  ∀ (s t : State) (c : HostCmd) (i : Instr), s.hostDue = false → s.eng ≠ .busy → s.arbitrate = some (c, t) →
    decode c.word = .ok i → step s = exec i t

/-- A command word placed by `withFetchWord` is the one the next step runs. -/
def Obligations.StepRunsThePlacedWord : Prop :=
  ∀ (s : State) (nbits w : Nat) (i : Instr), decodeTableWord nbits w = some i →
    step (s.withFetchWord nbits w)
      = exec i ((s.withFetchWord nbits w).serve ⟨s.requester, tableWord nbits w⟩ [])

/-- 30_encoding.md R93, 20_memory.md R75, 60_exceptions.md R252, R254: when no action of the host is scheduled, a word that
selects no row of R92 is accepted, performs no micro-event and completes with `InvalidArgument`; its `op` field is recorded.
That its operand fields are latched too is read by inference (log 32). -/
def Obligations.ReservedWordCompletesInvalidArgument : Prop :=
  ∀ (s t : State) (c : HostCmd), s.hostIn = [] → s.eng ≠ .busy → s.arbitrate = some (c, t) →
    (∀ i : Instr, c.word &&& i.rowMask ≠ i.rowMatch) →
    ∃ u, step s = .next u ∧ Completed t u (opField c.word) .invalidArgument 0 0 ∧ u.eng = s.eng ∧
      HostSideKept t u ∧ OperandsLatched u c.word ∧ ResultsAndPinsKept s u ∧ u.trace = s.trace ∧ u.now = s.now

/-- 70_reset_and_hazards.md R299, 93_implementation_defined.md: nothing is ever stuck; every step answers a next
state. -/
def Obligations.EveryStepAnswersNext : Prop := ∀ s : State, ∃ t, step s = .next t

/-- 20_memory.md R76: the command accepted next is one of those waiting and the others go on waiting; there is one
unless none waits; and whichever waits may be the one. -/
def Obligations.ArbitrationServesAnyWaitingCommand : Prop :=
  (∀ (s t : State) (c : HostCmd), s.arbitrate = some (c, t) →
      s.waiting.Perm (c :: t.waiting) ∧ t.requester = c.who ∧ SameEngine t s) ∧
    (∀ s : State, s.arbitrate = none ↔ s.waiting = []) ∧
    ∀ (s : State) (j : Nat) (h : j < s.waiting.length), ∃ picks t,
      ({ s with env := { s.env with picks := picks } } : State).arbitrate = some (s.waiting[j], t)

/-- 20_memory.md R76: a command presented while BUSY is neither refused nor performed: it waits. -/
def Obligations.CommandPresentedWhileBusyWaits : Prop :=
  ∀ (s : State) (c : HostCmd) (rest : List HostIn), s.eng = .busy → s.hostIn = ⟨0, .present c⟩ :: rest →
    step s = .next { s with hostIn := rest, waiting := s.waiting ++ [c] }

/-! ### Bit transport -/

/-- 40_bit_transport.md R130: RDBIT makes one read cell and returns the sampled bit zero-extended; nothing else of
the results and pins changes. -/
def Obligations.RdbitReturnsTheSampledBit : Prop :=
  ∀ s : State, s.idleQuiet →
    ∃ t, exec .rdbit s = .next t ∧
      Completed s t 0x01 .ok (if s.answer 0 then 1 else 0) 0 ∧ t.eng = .idle ∧ HostSideKept s t ∧
      OperandsLatched t 0x01000000 ∧ t.regs.result = (if s.answer 0 then 1 else 0) ∧
      t.regs.recn = s.regs.recn ∧ t.regs.shift = s.regs.shift ∧ t.pins = { s.pins with clkO := false } ∧
      seen t.trace = seen s.trace ++ readSeen s.cfg (s.answer 0) ∧
      t.now = s.now + (s.cfg.tHigh.toNat + s.cfg.tLow.toNat) + s.elapsed 5

/-- 40_bit_transport.md R131, 30_encoding.md R100: WRBIT makes one write cell with the level `b XOR DIN_INVERT`, in
shared wiring with the direction out before it and in after it. -/
def Obligations.WrbitDrivesTheBit : Prop :=
  ∀ (s : State) (b : Bool), s.idleQuiet →
    ∃ t, exec (.wrbit (if b then 1 else 0)) s = .next t ∧ Completed s t 0x02 .ok 0 0 ∧ t.eng = .idle ∧
      HostSideKept s t ∧ OperandsLatched t (if b then 0x02000001 else 0x02000000) ∧
      t.regs.result = s.regs.result ∧ t.regs.recn = s.regs.recn ∧ t.regs.shift = s.regs.shift ∧
      t.pins = ⟨false, b ^^ s.cfg.dinInvert, if s.cfg.sharedPin then .input else s.pins.dataDir, s.pins.drive⟩ ∧
      seen t.trace = seen s.trace ++ writeSeen s.cfg b ∧
      t.now = s.now + (s.cfg.tHigh.toNat + s.cfg.tLow.toNat) + s.elapsed (if s.cfg.sharedPin then 7 else 5)

/-- 40_bit_transport.md R132: PULSE makes one clock pulse, without a sample. -/
def Obligations.PulseIsOneClockPulse : Prop :=
  ∀ s : State, s.idleQuiet →
    ∃ t, exec .pulse s = .next t ∧ Completed s t 0x03 .ok 0 0 ∧ t.eng = .idle ∧ HostSideKept s t ∧
      OperandsLatched t 0x03000000 ∧ t.regs.result = s.regs.result ∧ t.regs.recn = s.regs.recn ∧
      t.regs.shift = s.regs.shift ∧ t.pins = { s.pins with clkO := false } ∧
      seen t.trace = seen s.trace ++ pulseSeen s.cfg ∧
      t.now = s.now + (s.cfg.tHigh.toNat + s.cfg.tLow.toNat) + s.elapsed 4

/-! ### The ready gate -/

/-- 41_ready_gate.md R150, R151: WAITRDY completes with `Ok` at the first low sample taken before the deadline was
found passed; the clock and the data level are not touched. -/
def Obligations.WaitrdyCompletesAtTheLowSample : Prop :=
  ∀ (s : State) (k : Nat), s.idleQuiet → s.cfg.tPoll ≠ 0#32 → s.readyAt k →
    ∃ t, exec .waitrdy s = .next t ∧ Completed s t 0x04 .ok 0 0 ∧ t.eng = .idle ∧ HostSideKept s t ∧
      OperandsLatched t 0x04000000 ∧ t.regs.result = s.regs.result ∧ t.regs.recn = s.regs.recn ∧
      t.regs.shift = s.regs.shift ∧
      t.pins = { s.pins with dataDir := if s.cfg.sharedPin then .input else s.pins.dataDir } ∧
      seen t.trace = seen s.trace ++ pollSeen s.cfg k ++ [.smp false] ∧
      t.now = s.now + k * s.cfg.tPoll.toNat + s.elapsed (s.waitBase + 2 + 3 * k)

/-- 41_ready_gate.md R151, R152 f: whatever the line and the time do, WAITRDY ends after at most `TIMEOUT` sleeps: with `Ok`
when its last sample is low, with `Timeout` when it is high. -/
def Obligations.EveryReadyWaitEnds : Prop :=
  ∀ s : State, s.idleQuiet → s.cfg.tPoll ≠ 0#32 →
    ∃ k l t, k ≤ s.cfg.timeout.toNat ∧ exec .waitrdy s = .next t ∧
      seen t.trace = seen s.trace ++ pollSeen s.cfg k ++ [.smp l] ∧
      Completed s t 0x04 (if l then .timeout else .ok) 0 0

/-- 41_ready_gate.md R151, 42_frame_codec.md R170: for each of the four commands with a ready-wait, a wait that
expires ends the command with `Timeout` before any pulse, with the results and the pins as they were (but for the
`DIR(in)` of shared wiring), and not before `TIMEOUT` ticks have passed. -/
def Obligations.ExpiredReadyWaitIsTimeout : Prop :=
  ∀ (i : Instr) (s : State) (k : Nat), s.acceptsQuietly → PassesChecks i s → waitsForReady i = true →
    s.expiresAt k →
    ∃ t, exec i s = .next t ∧ Completed s t (opField (encode i)) .timeout 0 0 ∧ t.eng = s.eng ∧
      HostSideKept s t ∧ OperandsLatched t (encode i) ∧ t.regs.result = s.regs.result ∧
      t.regs.recn = s.regs.recn ∧ t.regs.shift = s.regs.shift ∧
      t.pins = { s.pins with dataDir := if s.cfg.sharedPin then .input else s.pins.dataDir } ∧
      seen t.trace = seen s.trace ++ pollSeen s.cfg k ++ [.smp true] ∧
      s.now + s.cfg.timeout.toNat ≤ t.now

/-- 41_ready_gate.md R154: in the reference timing, with the line high at every sample the wait takes, WAITRDY takes its
last sample at the first `k` with `k * T_POLL >= T`, after `k + 1` samples, and completes with `Timeout` at a time `t` with
`t0 + T <= t < t0 + T + T_POLL`; in admitted timing the lower bound still holds. -/
def Obligations.TimeoutBoundOfTheReadyWait : Prop :=
  (∀ (s : State) (k : Nat), s.idleQuiet → s.cfg.tPoll ≠ 0#32 → s.cfg.timeout.toNat ≤ k * s.cfg.tPoll.toNat →
    (∀ j, j < k → j * s.cfg.tPoll.toNat < s.cfg.timeout.toNat) → (∀ j, j ≤ k → s.answer j = true) →
    s.referenceTiming (s.waitBase + 3 * k + 3) →
    ∃ t, exec .waitrdy s = .next t ∧ Completed s t 0x04 .timeout 0 0 ∧
      seen t.trace = seen s.trace ++ pollSeen s.cfg k ++ [.smp true] ∧ t.now = s.now + k * s.cfg.tPoll.toNat ∧
      s.now + s.cfg.timeout.toNat ≤ t.now ∧ t.now < s.now + s.cfg.timeout.toNat + s.cfg.tPoll.toNat) ∧
    ∀ s t : State, s.idleQuiet → exec .waitrdy s = .next t → t.status.code = .timeout →
      s.now + s.cfg.timeout.toNat ≤ t.now

/-! ### The frame codec -/

/-- 42_frame_codec.md R160 to R165, 30_encoding.md R95: RAWRD returns the 24 bits read, MSB first, sign-extended; it
issues 24 read cells, `TRAIL_PULSES` pulses and the recovery pulses, and reports their number. -/
def Obligations.RawrdReturnsTheSignExtendedSample : Prop :=
  ∀ (s : State) (k r : Nat), s.idleQuiet → s.cfg.tPoll ≠ 0#32 → s.readyAt k →
    (s.cfg.busyRecheck = true → s.answer (k + 1) = false) → RecoversAfter s (dataStart s k + 24) r →
    ∃ t v, exec .rawrd s = .next t ∧ SampleFrom s (dataStart s k) v ∧
      Completed s t 0x10 .ok (v.signExtend 32) (BitVec.ofNat 4 r) ∧ t.eng = .idle ∧ HostSideKept s t ∧
      OperandsLatched t 0x10000000 ∧ t.regs.result = v.signExtend 32 ∧ t.regs.recn = BitVec.ofNat 4 r ∧
      t.regs.shift = v ∧
      t.pins = ⟨false, s.pins.dataO, if s.cfg.sharedPin then .input else s.pins.dataDir, s.pins.drive⟩ ∧
      seen t.trace = seen s.trace ++ pollSeen s.cfg k ++ [.smp false]
        ++ (if s.cfg.busyRecheck then [.smp false] else []) ++ s.readsSeen (dataStart s k) 24
        ++ pulsesSeen s.cfg s.cfg.trailPulses.toNat ++ recoverSeen s.cfg r
        ++ (if r < s.cfg.recoverMax.toNat then [.smp true] else [])

/-- 42_frame_codec.md R163: with `BUSY_RECHECK` on, a high re-check ends RAWRD with `Busy` and no pulse. -/
def Obligations.RawrdBusyAtHighRecheck : Prop :=
  ∀ (s : State) (k : Nat), s.idleQuiet → s.cfg.tPoll ≠ 0#32 → s.readyAt k → s.cfg.busyRecheck = true →
    s.answer (k + 1) = true →
    ∃ t, exec .rawrd s = .next t ∧ Completed s t 0x10 .busy 0 0 ∧ t.eng = .idle ∧ HostSideKept s t ∧
      OperandsLatched t 0x10000000 ∧ t.regs.result = s.regs.result ∧ t.regs.recn = s.regs.recn ∧
      t.regs.shift = s.regs.shift ∧
      t.pins = { s.pins with dataDir := if s.cfg.sharedPin then .input else s.pins.dataDir } ∧
      seen t.trace = seen s.trace ++ pollSeen s.cfg k ++ [.smp false, .smp true]

/-- 42_frame_codec.md R166, R167, 30_encoding.md R96, R99, R100: REGWR makes the whole write frame: ready-wait, 24 read
cells discarded, one pulse, the command word and the payload in write cells MSB first, one pulse. -/
def Obligations.RegwrSendsTheWriteFrame : Prop :=
  ∀ (s : State) (reg data : Byte) (k : Nat), s.idleQuiet → s.cfg.tPoll ≠ 0#32 → s.cfg.widthLegal →
    addressLegal s.cfg reg = true → s.readyAt k →
    ∃ t v, exec (.regwr reg data) s = .next t ∧ Completed s t 0x11 .ok 0 0 ∧ t.eng = .idle ∧ HostSideKept s t ∧
      OperandsLatched t (commandWord 0x11 reg data) ∧ t.regs.result = s.regs.result ∧
      t.regs.recn = s.regs.recn ∧ SampleFrom s (k + 1) v ∧ t.regs.shift = v ∧
      t.pins = ⟨false, data.getLsbD 0 ^^ s.cfg.dinInvert, if s.cfg.sharedPin then .input else s.pins.dataDir,
        s.pins.drive⟩ ∧
      seen t.trace = seen s.trace ++ pollSeen s.cfg k ++ [.smp false] ++ s.readsSeen (k + 1) 24
        ++ pulseSeen s.cfg ++ writesSeen s.cfg (wireCommand s.cfg s.cfg.cmdWr reg) s.cfg.cmdWidth.toNat
        ++ writesSeen s.cfg data 8 ++ pulseSeen s.cfg

/-- 42_frame_codec.md R166, R169, 30_encoding.md R97, R99: REGRD makes the whole read frame and returns the 8 bits
read, MSB first, zero-extended; none of the 24 discarded bits reaches the result. -/
def Obligations.RegrdReturnsTheZeroExtendedByte : Prop :=
  ∀ (s : State) (reg : Byte) (k : Nat), s.idleQuiet → s.cfg.tPoll ≠ 0#32 → s.cfg.widthLegal →
    addressLegal s.cfg reg = true → s.readyAt k →
    ∃ t v, exec (.regrd reg) s = .next t ∧ (∀ i, i < 8 → v.getLsbD i = s.answer (k + 25 + (7 - i))) ∧
      Completed s t 0x12 .ok (BitVec.setWidth 32 (v : BitVec 8)) 0 ∧ t.eng = .idle ∧ HostSideKept s t ∧
      OperandsLatched t (commandWord 0x12 reg 0) ∧ t.regs.result = BitVec.setWidth 32 v ∧
      t.regs.recn = s.regs.recn ∧ t.regs.shift = BitVec.setWidth 24 v ∧
      t.pins = ⟨false, (wireCommand s.cfg s.cfg.cmdRd reg).getLsbD 0 ^^ s.cfg.dinInvert,
        if s.cfg.sharedPin then .input else s.pins.dataDir, s.pins.drive⟩ ∧
      seen t.trace = seen s.trace ++ pollSeen s.cfg k ++ [.smp false] ++ s.readsSeen (k + 1) 24
        ++ pulseSeen s.cfg ++ writesSeen s.cfg (wireCommand s.cfg s.cfg.cmdRd reg) s.cfg.cmdWidth.toNat
        ++ dirSeen s.cfg .input ++ s.readsSeen (k + 25) 8 ++ pulseSeen s.cfg

/-- 42_frame_codec.md R164: the sign extension of a 24-bit sample, as a number, as bits and in its range. -/
def Obligations.SignExtensionOfTheSample : Prop :=
  ∀ v : BitVec 24,
    (sext32 v).toInt = (if v.getLsbD 23 then (v.toNat : Int) - (2 : Int) ^ 24 else (v.toNat : Int)) ∧
      (∀ i, i < 24 → (sext32 v).getLsbD i = v.getLsbD i) ∧
      (∀ i, 24 ≤ i → i < 32 → (sext32 v).getLsbD i = v.getLsbD 23) ∧
      -8388608 ≤ (sext32 v).toInt ∧ (sext32 v).toInt ≤ 8388607

/-- 30_encoding.md R99: the command word on the wire and the legality of an address; with profile P4 a write to `r`
sends `1, r[2], r[1], r[0]` and 0 to 7 are legal, with profile P7 it sends `1100101` and 0 alone is legal. -/
def Obligations.CommandWordOnTheWire : Prop :=
  (∀ (c : ConfigRegs) (code reg : Byte),
      (wireCommand c code reg).toNat = (code ||| (reg &&& c.regMask)).toNat % 2 ^ c.cmdWidth.toNat ∧
      (addressLegal c reg = true ↔ reg &&& ~~~c.regMask = 0)) ∧
    (∀ (c : ConfigRegs) (r : Byte), c.cmdWidth = 4 → c.cmdWr = 0x08 → c.regMask = 0x07 →
      (addressLegal c r = true ↔ r.toNat ≤ 7) ∧
      (r.toNat ≤ 7 → bitsMsbFirst (wireCommand c c.cmdWr r) 4 = [true, r.getLsbD 2, r.getLsbD 1, r.getLsbD 0])) ∧
    ∀ (c : ConfigRegs) (r : Byte), c.cmdWidth = 7 → c.cmdWr = 0x65 → c.regMask = 0x00 →
      (addressLegal c r = true ↔ r = 0) ∧
      bitsMsbFirst (wireCommand c c.cmdWr r) 7 = [true, true, false, false, true, false, true]

/-- 40_bit_transport.md R136: WAITRDY and 24 RDBIT put the same on the pins, in the same time, as a basic RAWRD; they are 25
operations, `SHIFT` is not written by them, and `RESULT` ends as the last bit. -/
def Obligations.DiagnosticCellsShowABasicRawRead : Prop :=
  ∀ (s : State) (k : Nat), s.idleQuiet → s.cfg.tPoll ≠ 0#32 → s.readyAt k → s.cfg.busyRecheck = false →
    s.cfg.trailPulses = 0 → s.cfg.recoverMax = 0 →
    ∃ t u, exec .rawrd s = .next t ∧ execAll (.waitrdy :: List.replicate 24 .rdbit) s = some u ∧
      seen u.trace = seen t.trace ∧ u.pins = t.pins ∧ u.now = t.now ∧ u.regs.shift = s.regs.shift ∧
      u.regs.result = (if s.answer (k + 24) then 1 else 0) ∧
      u.responses.length = s.responses.length + 25

/-! ### System operations -/

/-- 43_system_ops.md R193: CHIPRST is one long pulse of `T_RESET` and the `T_STARTUP` hold; nothing in the engine is
reset. -/
def Obligations.ChiprstIsOneLongPulse : Prop :=
  ∀ s : State, s.idleQuiet →
    ∃ t, exec .chiprst s = .next t ∧ Completed s t 0x20 .ok 0 0 ∧ t.eng = .idle ∧ HostSideKept s t ∧
      OperandsLatched t 0x20000000 ∧ t.regs.result = s.regs.result ∧ t.regs.recn = s.regs.recn ∧
      t.regs.shift = s.regs.shift ∧ t.pins = { s.pins with clkO := false } ∧
      seen t.trace = seen s.trace
        ++ [.clk true, .hold s.cfg.tReset.toNat, .clk false, .hold s.cfg.tStartup.toNat] ∧
      t.now = s.now + (s.cfg.tReset.toNat + s.cfg.tStartup.toNat) + s.elapsed 4

/-- 43_system_ops.md R190, R191: ATTACH while detached asks the platform once; granted, the latches are set in one
step and the engine is idle; refused, it completes with `ResourceUnavailable` and stays detached with nothing changed. -/
def Obligations.AttachTakesThePinsWhenGranted : Prop :=
  ∀ s : State, s.eng = .detached → s.hostIn = [] →
    ∃ t, exec .attach s = .next t ∧ HostSideKept s t ∧ OperandsLatched t 0x30000000 ∧
      t.regs.result = s.regs.result ∧ t.regs.recn = s.regs.recn ∧ t.regs.shift = s.regs.shift ∧ t.now = s.now ∧
      t.env.grants = s.env.grants.rest ∧
      if s.granted then
        Completed s t 0x30 .ok 0 0 ∧ t.eng = .idle ∧ t.pins = ⟨false, false, .input, true⟩ ∧
          seen t.trace = seen s.trace ++ [.acquire]
      else
        Completed s t 0x30 .resourceUnavailable 0 0 ∧ t.eng = .detached ∧ t.pins = s.pins ∧
          t.trace = s.trace

/-- 43_system_ops.md R192: DETACH releases the pins; the latches, the results and the configuration stay. -/
def Obligations.DetachReleasesThePins : Prop :=
  ∀ s : State, s.idleQuiet →
    ∃ t, exec .detach s = .next t ∧ Completed s t 0x31 .ok 0 0 ∧ t.eng = .detached ∧ HostSideKept s t ∧
      OperandsLatched t 0x31000000 ∧ t.regs.result = s.regs.result ∧ t.regs.recn = s.regs.recn ∧
      t.regs.shift = s.regs.shift ∧ t.pins = { s.pins with drive := false } ∧
      seen t.trace = seen s.trace ++ [.release] ∧ t.now = s.now

/-! ### Failures and completion -/

/-- 60_exceptions.md R252: the tests of `PH_CHECK` in their order: decode, attachment, configuration, operand. The first
that fails completes the command with its status, and no micro-event is performed. -/
def Obligations.ChecksRefuseInOrder : Prop :=
  ∀ (i : Instr) (s : State) (st : Status), s.acceptsQuietly →
    (if i.wellFormed = false then st = .invalidArgument
     else if i ≠ .attach ∧ s.eng = .detached then st = .resourceUnavailable
     else if i = .attach ∧ s.eng ≠ .detached then st = .invalidArgument
     else if waitsForReady i = true ∧ s.cfg.tPoll = 0#32 then st = .invalidArgument
     else if (addressOperand i).isSome = true ∧ ¬ s.cfg.widthLegal then st = .invalidArgument
     else (∃ reg, addressOperand i = some reg ∧ addressLegal s.cfg reg = false) ∧ st = .invalidArgument) →
    ∃ t, exec i s = .next t ∧ Completed s t (opField (encode i)) st 0 0 ∧ t.eng = s.eng ∧ HostSideKept s t ∧
      OperandsLatched t (encode i) ∧ ResultsAndPinsKept s t ∧ t.trace = s.trace ∧ t.now = s.now

/-- 70_reset_and_hazards.md R299, 60_exceptions.md R254: every command that is accepted and not disturbed completes, in
one step, with one response, and the engine is not busy after it. -/
def Obligations.EveryOperationEnds : Prop :=
  ∀ (i : Instr) (s : State), s.acceptsQuietly →
    ∃ t st v n, exec i s = .next t ∧ Completed s t (opField (encode i)) st v n ∧ t.eng ≠ .busy ∧
      HostSideKept s t ∧ OperandsLatched t (encode i)

/-- 60_exceptions.md R254, 30_encoding.md R103: what completion writes: with `Ok`, `RESULT` is the response's value for the
three commands that return one; else it is unchanged and the value is 0; the response's recovery count is RAWRD's; `ENG` goes
back to what it was but for a successful ATTACH and DETACH. That a failed RAWRD reports the count 0 is read by inference
(log 30). -/
def Obligations.CompletionWritesResultAndEng : Prop :=
  ∀ (i : Instr) (s t : State), s.acceptsQuietly → exec i s = .next t →
    ∃ st v n, Completed s t (opField (encode i)) st v n ∧ t.seq = ⟨.idle, 0, 0⟩ ∧
      (if st = .ok ∧ (i = .rdbit ∨ i = .rawrd ∨ ∃ reg, i = .regrd reg) then t.regs.result = v
       else t.regs.result = s.regs.result ∧ v = 0) ∧
      (if st = .ok ∧ i = .rawrd then t.regs.recn = n else t.regs.recn = s.regs.recn ∧ n = 0) ∧
      t.eng = (if st = .ok ∧ i = .attach then .idle else if st = .ok ∧ i = .detach then .detached else s.eng)

/-- 60_exceptions.md R256: a failed command leaves the pins at rest as they were and `RESULT`, `RECN` and `SHIFT`
unchanged; all it did on the pins were `DIR(in)`, samples and sleeps, so no pulse was issued. -/
def Obligations.FailuresArePrecise : Prop :=
  ∀ (i : Instr) (s t : State), s.acceptsQuietly → atRest s.pins.clkO s.pins.dataDir = true →
    exec i s = .next t → t.status.code ≠ .ok →
    ResultsAndPinsKept s t ∧ t.eng = s.eng ∧
      ∃ evs, seen t.trace = seen s.trace ++ evs ∧ pulseCount evs = 0 ∧
        ∀ e ∈ evs, e = .dir .input ∨ (∃ l, e = .smp l) ∨ ∃ n, e = .hold n

/-- 42_frame_codec.md R171: the pulses, the data levels and the directions of each frame. A RAWRD that completes with
`Ok` issues `24 + TRAIL_PULSES + RECN` pulses, a REGWR or REGRD `34 + CMD_WIDTH`; a REGWR drives `CMD_WIDTH + 8` data
levels, a REGRD `CMD_WIDTH`; in shared wiring the direction is switched out once and in once per write cell, with one
`DIR(in)` more for the ready-wait and one for the register byte of REGRD, in dedicated wiring never; a command that completes
with another status issues no pulse. -/
def Obligations.PulseCountsOfFrames : Prop :=
  ∀ (i : Instr) (s t : State), s.acceptsQuietly → exec i s = .next t →
    ∃ evs, seen t.trace = seen s.trace ++ evs ∧
      (t.status.code ≠ .ok → pulseCount evs = 0) ∧
      (t.status.code = .ok → i = .rawrd →
        pulseCount evs = 24 + s.cfg.trailPulses.toNat + t.regs.recn.toNat ∧ dataLevels evs = 0 ∧
          evs.count (.dir .output) = 0 ∧ evs.count (.dir .input) = if s.cfg.sharedPin then 1 else 0) ∧
      (∀ reg data, t.status.code = .ok → i = .regwr reg data →
        pulseCount evs = 34 + s.cfg.cmdWidth.toNat ∧ dataLevels evs = s.cfg.cmdWidth.toNat + 8 ∧
          evs.count (.dir .output) = (if s.cfg.sharedPin then s.cfg.cmdWidth.toNat + 8 else 0) ∧
          evs.count (.dir .input) = if s.cfg.sharedPin then s.cfg.cmdWidth.toNat + 8 + 1 else 0) ∧
      ∀ reg, t.status.code = .ok → i = .regrd reg →
        pulseCount evs = 34 + s.cfg.cmdWidth.toNat ∧ dataLevels evs = s.cfg.cmdWidth.toNat ∧
          evs.count (.dir .output) = (if s.cfg.sharedPin then s.cfg.cmdWidth.toNat else 0) ∧
          evs.count (.dir .input) = if s.cfg.sharedPin then s.cfg.cmdWidth.toNat + 2 else 0

/-- 60_exceptions.md R255, 42_frame_codec.md R163: `Busy` comes from RAWRD with `BUSY_RECHECK = 1` whose re-check after a
successful ready-wait found the line high, and from nothing else. -/
def Obligations.BusyOnlyFromTheRecheck : Prop :=
  ∀ (i : Instr) (s t : State), s.acceptsQuietly → exec i s = .next t → t.status.code = .busy →
    i = .rawrd ∧ s.cfg.busyRecheck = true ∧ ∃ k, s.readyAt k ∧ s.answer (k + 1) = true

/-- 42_frame_codec.md R172, 70_reset_and_hazards.md R301: in the reference timing a RAWRD that is ready at the sample
numbered `k` lasts `k * T_POLL + (24 + TRAIL_PULSES + RECN) * (T_HIGH + T_LOW)` ticks, a register access
`k * T_POLL + (34 + CMD_WIDTH) * (T_HIGH + T_LOW)`. No such frame has more than `3 * k + 300` micro-events. -/
def Obligations.DurationsInReferenceTiming : Prop :=
  ∀ (i : Instr) (s t : State) (k : Nat), s.idleQuiet → s.referenceTiming (3 * k + 300) → PassesChecks i s →
    s.readyAt k → exec i s = .next t → t.status.code = .ok →
    (i = .rawrd → t.now = s.now + k * s.cfg.tPoll.toNat
      + (24 + s.cfg.trailPulses.toNat + t.regs.recn.toNat) * (s.cfg.tHigh.toNat + s.cfg.tLow.toNat)) ∧
    ((addressOperand i).isSome = true → t.now = s.now + k * s.cfg.tPoll.toNat
      + (34 + s.cfg.cmdWidth.toNat) * (s.cfg.tHigh.toNat + s.cfg.tLow.toNat))

/-! ### Invariants -/

/-- 40_bit_transport.md R133, 10_state.md R21, R23, R28: the discipline of the pins, the lock and the reserved bits are
kept by every step, with the host's accesses and the engine reset landing anywhere. -/
def Obligations.EveryStepKeepsTheInvariant : Prop :=
  ∀ s t : State, s.Inv → step s = .next t → t.Inv

/-- 10_state.md R45: the invariant holds after reset. -/
def Obligations.ResetMeetsTheInvariant : Prop := State.reset.Inv

/-- 40_bit_transport.md R134, 70_reset_and_hazards.md R287: no hold is ever shorter than its minimum, and the minimum of
each hold of a step is what one of CR3 to CR7 holds. -/
def Obligations.NoHoldIsShortened : Prop :=
  (∀ s t : State, s.holdsLongEnough → step s = .next t → t.holdsLongEnough) ∧
    ∀ s t : State, step s = .next t → ∃ evs, t.trace = s.trace ++ evs ∧
      ∀ e ∈ evs, ∀ n, e.pin = .hold n →
        n ≤ e.took ∧ n ∈ [s.cfg.tHigh.toNat, s.cfg.tLow.toNat, s.cfg.tPoll.toNat, s.cfg.tReset.toNat,
          s.cfg.tStartup.toNat]

/-- 10_state.md R27: `NOW` never goes backwards, but for an engine reset. -/
def Obligations.NowNeverGoesBackwards : Prop :=
  ∀ s t : State, ¬ s.resetLands → step s = .next t → s.now ≤ t.now

/-- 20_memory.md R79, 10_state.md R28: what the engine does never changes a configuration register; only a host write
while not BUSY, or the engine reset, does. -/
def Obligations.OnlyTheHostConfigures : Prop :=
  ∀ s t : State, step s = .next t → t.cfg ≠ s.cfg →
    ∃ rest, (∃ n v, s.hostIn = ⟨0, .write (.cr n) v⟩ :: rest ∧ s.eng ≠ .busy) ∨
      s.hostIn = ⟨0, .engineReset⟩ :: rest

/-- 20_memory.md R79, 10_state.md R28, 43_system_ops.md R194: a register access or a presented command that lands in the
middle of an operation does not change the operation: it ends as it would have ended undisturbed. -/
def Obligations.HostAccessDoesNotDisturbAnOperation : Prop :=
  ∀ (i : Instr) (s t u : State) (n : Nat) (a : HostAct), s.acceptsQuietly → a.isAccess = true →
    exec i s = .next t → exec i { s with hostIn := [⟨n, a⟩] } = .next u → u.eng = .busy →
    ∃ v, step u = .next v ∧ v.eng = .busy ∧ ∃ w, step v = .next w ∧ SameEngine w t

/-! ### Registers and reset -/

/-- 10_state.md R28: a read of a CR returns the stored value with reserved bits as 0, in any engine state, without a side
effect; a write is performed while DETACHED or IDLE, dropped while BUSY, and reserved bits ignore it. A write stores what the
fields of R30 (CR0 `MODE`) and R31 (CR1 `CMDCODE`) are at the positions of their tables, and CR2 to CR7 are the registers
R32 to R37 name. -/
def Obligations.ConfigurationRegisterAccess : Prop :=
  (∀ (s : State) (n : Nat) (v : Word), s.eng = .busy → s.hostAct (.write (.cr n) v) = s) ∧
    (∀ (s : State) (n m : Nat) (v : Word), s.eng ≠ .busy →
      (s.hostAct (.write (.cr n) v)).cfg.get m =
        (if m = n then (if n = 0 then v &&& 0x000FFF07 else if n = 1 then v &&& 0x00FFFFFF else if n ≤ 7 then v else 0)
         else s.cfg.get m) ∧
      (s.hostAct (.write (.cr n) v)) = { s with cfg := (s.hostAct (.write (.cr n) v)).cfg }) ∧
    (∀ (s : State) (v : Word), s.eng ≠ .busy →
      let wrote := fun n : Nat => (s.hostAct (.write (.cr n) v)).cfg
      ((wrote 0).sharedPin = v.getLsbD 0 ∧ (wrote 0).dinInvert = v.getLsbD 1 ∧ (wrote 0).busyRecheck = v.getLsbD 2 ∧
          (wrote 0).trailPulses = v.extractLsb' 8 4 ∧ (wrote 0).recoverMax = v.extractLsb' 12 4 ∧
          (wrote 0).cmdWidth = v.extractLsb' 16 4) ∧
        ((wrote 1).cmdWr = v.extractLsb' 0 8 ∧ (wrote 1).cmdRd = v.extractLsb' 8 8 ∧
          (wrote 1).regMask = v.extractLsb' 16 8) ∧
        (wrote 2).timeout = v ∧ (wrote 3).tHigh = v ∧ (wrote 4).tLow = v ∧ (wrote 5).tPoll = v ∧
        (wrote 6).tReset = v ∧ (wrote 7).tStartup = v) ∧
    ∀ (s : State) (who n : Nat),
      s.hostAct (.read who (.cr n)) = { s with reads := s.reads ++ [⟨who, .cr n, s.cfg.get n⟩] }

/-- 20_memory.md R62, 43_system_ops.md R194: other register numbers read 0 and ignore writes; status registers ignore
writes. -/
def Obligations.ReservedAndReadOnlyRegisters : Prop :=
  ∀ (s : State) (n : Nat) (v : Word) (l : Level),
    (7 < n → s.regValue l (.cr n) = 0 ∧ s.hostAct (.write (.cr n) v) = s) ∧
      (6 < n → s.regValue l (.sr n) = 0) ∧ s.hostAct (.write (.sr n) v) = s

/-- 10_state.md R38 to R42, 30_encoding.md R102, 43_system_ops.md R194: the fields of the status registers, the numbers of the
five status codes, and that a read of a status register gives the value to the reader and changes nothing else, but for the
answer a read of SR6 draws (log 22). -/
def Obligations.StatusRegisterFields : Prop :=
  ∀ (s : State) (l : Level),
    (∀ who n : Nat, s.hostAct (.read who (.sr n)) =
      { s with
        reads := s.reads ++ [⟨who, .sr n, s.regValue (s.env.pinReads.peek Config.pinReadLevel) (.sr n)⟩]
        env := if n = 6 then { s.env with pinReads := s.env.pinReads.rest } else s.env }) ∧
    ((s.regValue l (.sr 0)).getLsbD 0 = s.pins.drive ∧ (s.regValue l (.sr 0)).getLsbD 1 = (s.eng == .busy) ∧
      (s.regValue l (.sr 0)).extractLsb' 2 3 =
        (match s.status.code with
          | .ok => 0
          | .timeout => 1
          | .invalidArgument => 2
          | .busy => 3
          | .resourceUnavailable => 4) ∧
      (s.regValue l (.sr 0)).extractLsb' 5 4 = s.regs.recn ∧ (s.regValue l (.sr 0)).extractLsb' 9 23 = 0) ∧
    s.regValue l (.sr 1) = s.regs.result ∧
    ((s.regValue l (.sr 2)).extractLsb' 0 8 = s.status.lastop ∧ (s.regValue l (.sr 2)).extractLsb' 8 24 = 0) ∧
    s.regValue l (.sr 3) = s.status.lasttmo ∧
    (s.now < 2 ^ 64 → (s.regValue l (.sr 4)).toNat + 2 ^ 32 * (s.regValue l (.sr 5)).toNat = s.now) ∧
    ((s.regValue l (.sr 6)).getLsbD 0 = s.pins.clkO ∧ (s.regValue l (.sr 6)).getLsbD 1 = s.pins.dataO ∧
      (s.regValue l (.sr 6)).getLsbD 2 = (s.pins.dataDir == .output) ∧ (s.regValue l (.sr 6)).getLsbD 3 = l ∧
      (s.regValue l (.sr 6)).getLsbD 4 = s.pins.drive ∧ (s.regValue l (.sr 6)).extractLsb' 5 27 = 0)

/-- 70_reset_and_hazards.md R281, R282, 10_state.md R45: the engine reset strikes in any state, in the middle of an
operation too, and puts the engine at the values the table gives. `T_POLL` is at least 1; the other OPEN values are the
model's (logs 9, 10) and not stated here. -/
def Obligations.EngineResetFromAnyState : Prop :=
  ∀ (s : State) (rest : List HostIn), s.hostIn = ⟨0, .engineReset⟩ :: rest →
    ∃ t, step s = .next t ∧ t.eng = .detached ∧ t.seq = ⟨.idle, 0, 0⟩ ∧ t.todo = [] ∧
      t.pins = ⟨false, false, .input, false⟩ ∧ t.regs.shift = 0 ∧ t.regs.bitcnt = 0 ∧ t.regs.recn = 0 ∧
      t.regs.op = 0 ∧ t.regs.reg = 0 ∧ t.regs.data = 0 ∧ t.regs.result = 0 ∧ t.now = 0 ∧
      t.cfg.timeout = 100000 ∧ 1 ≤ t.cfg.tPoll.toNat ∧ (∀ l, t.regValue l (.sr 0) = 0) ∧
      t.status = ⟨.ok, 0, 0⟩ ∧ seen t.trace = seen s.trace ++ [.release] ∧ t.env = s.env ∧
      t.responses = s.responses

/-- 10_state.md R45, R46: the state after reset has the values the table gives, and in it every command but ATTACH is
refused: ATTACH is the first that is performed. -/
def Obligations.AfterResetOnlyAttachIsPerformed : Prop :=
  State.reset.eng = .detached ∧ State.reset.seq = ⟨.idle, 0, 0⟩ ∧
    State.reset.pins = ⟨false, false, .input, false⟩ ∧ State.reset.regs.result = 0 ∧ State.reset.now = 0 ∧
    State.reset.cfg.timeout = 100000 ∧ State.reset.statusWord = 0 ∧ State.reset.status = ⟨.ok, 0, 0⟩ ∧
    ∀ i : Instr, i ≠ .attach → i.wellFormed = true →
      ∃ t, exec i State.reset = .next t ∧ t.status.code = .resourceUnavailable ∧ t.eng = .detached ∧ t.trace = []

/-- The model's choice (log 14; 10_state.md R25 gives `BITCNT` as "cells done in the current phase"): when a command
has completed `BITCNT` is 0. -/
def Obligations.BitcntIsZeroAfterCompletion : Prop :=
  ∀ (i : Instr) (s t : State), s.acceptsQuietly → exec i s = .next t → t.regs.bitcnt = 0

/-! ### The host's contract -/

open Sys2Proof.Facade

/-- 44_host_config_and_sampling.md R214: the rate mapping is a bijection on the four rates; any other is rejected with
`InvalidArgument`, not rounded and not clamped. -/
def Obligations.RateMappingIsABijection : Prop :=
  (∀ code : BitVec 2, codeFor (rateFor code) = some code) ∧
    (∀ (rate : Nat) (code : BitVec 2), codeFor rate = some code → rateFor code = rate) ∧
    (∀ rate : Nat, codeFor rate = none ↔ rate ≠ 10 ∧ rate ≠ 40 ∧ rate ≠ 640 ∧ rate ≠ 1280) ∧
    rateFor 0 = 10 ∧ rateFor 1 = 40 ∧ rateFor 2 = 640 ∧ rateFor 3 = 1280 ∧
    ∀ (y : System) (p : Params) (k rate : Nat), codeFor rate = none → y.activity k = none →
      y.move p (.call k (.writeRate rate)) = { y with answers := y.answers ++ [(k, .rejected .invalidArgument)] }

/-- 44_host_config_and_sampling.md R229: after more than `capacity` appends the buffer holds exactly the last `capacity`
samples, and read from `head` on they stand in insertion order; `head` is the number of appends modulo the capacity. -/
def Obligations.HistoryHoldsTheLastSamples : Prop :=
  ∀ (cap : Nat) (xs : List Int), 0 < cap → cap ≤ xs.length →
    let h := xs.foldl History.append (History.create cap)
    h.head = xs.length % cap ∧ h.slots.length = cap ∧ h.slots.drop h.head ++ h.slots.take h.head = xs.drop (xs.length - cap)

/-- 44_host_config_and_sampling.md R230, R231: after samples `xs` the count is their number and the mean their sum divided,
truncated toward zero (0 when there is none); clearing the statistics leaves the history and the loop's own counter alone, and
clearing the buffer leaves the statistics. That the count has no bound where R231 has a u64 is the model's (log 49). -/
def Obligations.StatisticsOfPublishedSamples : Prop :=
  ∀ (h : HostState) (xs : List Int), h.sum = 0 → h.count = 0 →
    let t := xs.foldl HostState.publish h
    t.sampleCount = xs.length ∧ t.mean = (if xs = [] then 0 else xs.sum.tdiv xs.length) ∧
      t.clearStatistics.mean = 0 ∧ t.clearStatistics.sampleCount = 0 ∧ t.clearStatistics.history = t.history ∧
      t.clearStatistics.sampleCounter = h.sampleCounter + xs.length ∧
      t.clearBuffer.mean = t.mean ∧ t.clearBuffer.sampleCount = t.sampleCount

/-- 44_host_config_and_sampling.md R216, 42_frame_codec.md R168: `apply()`, from the call to its answer: it presents a register
write of the packed byte, answers the status of the engine's response, and makes the wanted fields the in-memory ones exactly
when that is `Ok`; nothing else of the host's state changes, and the lock is free again. After an engine reset that cut an
operation off it waits for the CHIPRST that comes before anything else (70_reset_and_hazards.md R296). That the wanted fields
leave the offset out is the model's (log 41). -/
def Obligations.ApplyUpdatesOnlyOnOk : Prop :=
  ∀ (y : System) (p : Params) (k : Nat) (ch : Change), y.activity k = none → y.host.lock = none →
    y.engine.acceptsQuietly → y.engine.waiting = [] →
    let wanted := ch.wanted y.host.settings
    let i := Instr.regwr p.cfgRegAddr (pack p.layout wanted)
    if y.host.handle = true ∧ y.host.desynced = true then
      let w := y.run p [.call k (.apply ch), .caller k]
      w.engine = y.engine ∧ w.host = y.host ∧ w.answers = y.answers ∧ w.move p (.caller k) = w
    else
      let z := y.run p [.call k (.apply ch), .caller k, .engine, .caller k, .caller k]
      ∃ t r, exec i (y.engine.serve ⟨callerRequester k, encode i⟩ []) = .next t ∧
        t.responses = y.engine.responses ++ [r] ∧ r.who = callerRequester k ∧ r.status = t.status.code ∧
        z.engine = t ∧ z.answers = y.answers ++ [(k, .answered r.status)] ∧ z.calls = y.calls ∧
        z.host = if r.status = .ok then { y.host with settings := wanted } else y.host

/-- 44_host_config_and_sampling.md R215, 30_encoding.md R101: with layout L0 `unpack` gives back the fields `pack` put in
the byte, at the positions the rule gives. -/
def Obligations.PackOfLayoutL0RoundTrips : Prop :=
  ∀ c old : Settings,
    (unpack layoutL0 (pack layoutL0 c) old).speed = c.speed ∧
      (unpack layoutL0 (pack layoutL0 c) old).gain = c.gain ∧
      (unpack layoutL0 (pack layoutL0 c) old).channel = c.channel ∧
      (pack layoutL0 c).extractLsb' 0 2 = c.speed ∧ (pack layoutL0 c).extractLsb' 2 2 = c.gain ∧
      (pack layoutL0 c).extractLsb' 4 2 = c.channel ∧ (pack layoutL0 c).extractLsb' 6 2 = 0

/-- 44_host_config_and_sampling.md R220, R235: an unsupported rate is rejected without any command. -/
def Obligations.UnsupportedRateIsRejected : Prop :=
  ∀ (y : System) (p : Params) (k hz : Nat), hz ≠ 10 → hz ≠ 40 → hz ≠ 640 → hz ≠ 1280 → y.activity k = none →
    y.move p (.call k (.writeRate hz)) = { y with answers := y.answers ++ [(k, .rejected .invalidArgument)] }

/-! ### The pins as they are seen -/

/-- 10_state.md R22, R23: what the latches drive in each wiring, and that nothing is driven with `DRIVE` 0. -/
def Obligations.PortsFollowTheWiring : Prop :=
  ∀ s : State,
    (s.pins.drive = false → s.ports = ⟨none, none, none⟩) ∧
      (s.pins.drive = true → s.ports.clk = some s.pins.clkO) ∧
      (s.cfg.sharedPin = false → s.ports.dout = none ∧ (s.pins.drive = true → s.ports.din = some s.pins.dataO)) ∧
      (s.cfg.sharedPin = true → s.ports.din = none ∧ (s.pins.drive = true →
        s.ports.dout = if s.pins.dataDir = .output then some s.pins.dataO else none))

/-- 10_state.md R24: the latches follow the trace event by event in every step but an engine reset, so the pin state over time
is that of the trace; and an event that writes a latch with the value it holds is not seen. (That an event acts when it begins
is the model's, log 16.) -/
def Obligations.TraceGivesThePinState : Prop :=
  (∀ s t : State, ¬ s.resetLands → step s = .next t →
    t.trace = s.trace ++ newEvents s t ∧ (newEvents s t).foldl (fun q e => q.after e.pin) s.pins = t.pins) ∧
    ∀ (shared : Bool) (now : Nat) (q : Pins) (e : Event) (es : List Event), e.pin.isSample = false →
      q.after e.pin = q →
      visible (q.shows shared) (moments shared now q (e :: es))
        = visible (q.shows shared) (moments shared (now + e.took) q es)

/-! ### The callers and the background task -/

/-- 20_memory.md R75 to R77, 44_host_config_and_sampling.md R216, R234, R235: a call whose command is presented waits for the
response, however long; what the others do does not disturb it; and with the response the host state follows on `Ok`, and on
any other status nothing of it changes but the lock, which is released. Only an engine reset ends the wait
(70_reset_and_hazards.md R281, R296, 10_state.md R21): no handle exists then, the lock is free, and the call is left with
nothing to do but to answer `ResourceUnavailable` (that it answers so, and that the task ends, is the model's: log 44). R216 and
R235 say of a failed transaction that it changes nothing; that a DETACH that failed, or a step of an attach, leaves the handle is
the model's (logs 45, 37), and so is that the lock is held until the caller has acted on the response (log 39). -/
def Obligations.CallsAwaitTheirResponse : Prop :=
  ∀ (y : System) (p : Params) (k since : Nat) (a : Activity) (e : Effect), y.activity k = some a →
    a.place = .awaiting since e →
    (replyTo y.engine since (callerRequester k) = none → y.move p (.caller k) = y) ∧
      (∀ r, replyTo y.engine since (callerRequester k) = some r →
        (y.move p (.caller k)).host =
          if r.status = .ok then { e.act p y.host with lock := none } else { y.host with lock := none }) ∧
      (∀ m, m ≠ .caller k → y.strikes m = false → (y.move p m).activity k = some a) ∧
      ∀ m, y.strikes m = true →
        (y.move p m).activity k = some ⟨k, [], .ready, .rejected .resourceUnavailable⟩ ∧
          (y.move p m).engine.eng = .detached ∧ (y.move p m).engine.waiting = [] ∧
          (y.move p m).host.handle = false ∧ (y.move p m).host.lock = none ∧ (y.move p m).host.task = .absent ∧
          (y.move p m).host.desynced = (y.host.desynced || decide (y.engine.eng = .busy))

/-- 44_host_config_and_sampling.md R216, R222, R235: the in-memory fields change in a move only when a caller receives an `Ok`,
or loads the configuration at attach, or when an engine reset strikes, after which there is no handle to hold them (10_state.md
R21; log 44). That the loaded offset is the default's is the model's: R222 has no property for it (log 42). -/
def Obligations.ConfigurationChangesOnlyOnOk : Prop :=
  ∀ (y : System) (p : Params) (m : Move), (y.move p m).host.settings ≠ y.host.settings →
    (∃ k a, m = .caller k ∧ y.activity k = some a ∧
      ((∃ since e r, a.place = .awaiting since e ∧ replyTo y.engine since (callerRequester k) = some r ∧ r.status = .ok ∧
          (y.move p m).host.settings = (e.act p y.host).settings) ∨
        ∃ q rest, a.jobs = .load q :: rest ∧ a.place = .ready ∧ (y.move p m).host.settings = q.settings p.defaults)) ∨
      y.strikes m = true ∧ (y.move p m).host.handle = false ∧ (y.move p m).host.settings = p.defaults

/-- 44_host_config_and_sampling.md R225, R226: one turn of the Sampling Loop while `running`: it sleeps the interval, in which it
does nothing, presents RAWRD, publishes the sample on `Ok`, publishes nothing on any other status, and goes on. The interval is
that of R226 for each rate (rounded down where the rule says "about": the model's, log 25). -/
def Obligations.LoopTurnPublishesOnOk : Prop :=
  (loopInterval 0 = 95000 ∧ loopInterval 1 = 23750 ∧ loopInterval 2 = 1484 ∧ loopInterval 3 = 742) ∧
    (∀ (y : System) (p : Params) (wake : Nat), y.host.task = .sleeping wake → y.engine.now < wake →
      y.move p .task = y) ∧
    ∀ (y : System) (p : Params), y.host.task = .testing → y.host.stop = false → y.host.running = true →
      y.host.lock = none → y.engine.acceptsQuietly → y.engine.waiting = [] →
      let rest := loopInterval y.host.settings.speed
      let s := y.engine.hostAct (.pass rest)
      let z := y.run p [.task, .pass rest, .task, .engine, .task]
      y.move p .task = { y with host := { y.host with task := .sleeping (y.engine.now + rest) } } ∧
        ∃ t r, exec .rawrd (s.serve ⟨taskRequester, encode .rawrd⟩ []) = .next t ∧
          t.responses = y.engine.responses ++ [r] ∧ r.status = t.status.code ∧ z.engine = t ∧ z.calls = y.calls ∧
          z.host = if r.status = .ok then y.host.publish r.value.toInt else y.host

/-- 44_host_config_and_sampling.md R219, R235: `read_channel` in the extended variant, from the call. The channel already
configured: it answers the latest sample at once, or `Busy` when there is none, with no command. Another channel: it presents
the register write of `apply()` with the channel changed; on `Ok` the channel is the in-memory one and the call sleeps
`T_SETTLE`, on any other status the call ends with that status (log 25). It stays in the settle period until that is over, and
then answers the latest sample published by then, or `Busy`. A switch waits for an outstanding CHIPRST as `apply()` does
(70_reset_and_hazards.md R296). The model's own in it: without a Device Handle the channel in memory answers `Busy` too (log 46),
and the latest sample is read whoever holds the lock (log 39). -/
def Obligations.ReadChannelAnswersTheLatestSample : Prop :=
  ∀ (y : System) (p : Params) (k : Nat),
    let latest : Answer := match y.host.latest with
      | none => .rejected .busy
      | some x => .sample x
    (∀ c, p.variant = .extended → y.activity k = none → y.host.lock = none → c = y.host.settings.channel →
      y.run p [.call k (.readChannel c), .caller k, .caller k, .caller k] =
        { y with answers := y.answers ++ [(k, latest)] }) ∧
      (∀ c, p.variant = .extended → y.activity k = none → y.host.lock = none → c ≠ y.host.settings.channel →
        ¬ (y.host.handle = true ∧ y.host.desynced = true) → y.engine.acceptsQuietly → y.engine.waiting = [] →
        let wanted := { y.host.settings with channel := c }
        let i := Instr.regwr p.cfgRegAddr (pack p.layout wanted)
        let w := y.run p [.call k (.readChannel c), .caller k]
        let z := w.run p [.engine, .caller k, .caller k]
        w.engine = y.engine.hostAct (.present ⟨callerRequester k, encode i⟩) ∧
          ∃ t r, exec i (y.engine.serve ⟨callerRequester k, encode i⟩ []) = .next t ∧
            t.responses = y.engine.responses ++ [r] ∧ r.status = t.status.code ∧ z.engine = t ∧
            if r.status = .ok then
              z.host = { y.host with settings := wanted } ∧ z.answers = y.answers ∧
                z.activity k = some ⟨k, [.settle, .giveLatest], .asleep (t.now + p.tSettle), .answered .ok⟩
            else z.host = y.host ∧ z.calls = y.calls ∧ z.answers = y.answers ++ [(k, .answered r.status)]) ∧
      (∀ c, p.variant = .extended → y.activity k = none → y.host.lock = none → c ≠ y.host.settings.channel →
        y.host.handle = true → y.host.desynced = true →
        let w := y.run p [.call k (.readChannel c), .caller k]
        w.engine = y.engine ∧ w.host = y.host ∧ w.answers = y.answers ∧ w.move p (.caller k) = w) ∧
      ∀ (wake : Nat) (reply : Answer), y.activity k = some ⟨k, [.settle, .giveLatest], .asleep wake, reply⟩ →
        (y.engine.now < wake → y.move p (.caller k) = y) ∧
          (wake ≤ y.engine.now →
            (y.run p [.caller k, .caller k, .caller k]).answers = y.answers ++ [(k, latest)])

/-- 44_host_config_and_sampling.md R228, R232, 70_reset_and_hazards.md R295, 95_test_vectors.md S8: detach waits as long as the
task has not exited; a task asleep with the loop paused sees the stop request when it wakes and exits, and the detach ends with
the pins released. An attach whose last step comes after the stop request, or after the handle is gone, starts no loop that the
detach has not waited for (the model's, log 43). -/
def Obligations.DetachWaitsForTheLoop : Prop :=
  (∀ (y : System) (p : Params) (k : Nat) (rest : List Job) (reply : Answer),
    y.activity k = some ⟨k, .awaitExit :: rest, .ready, reply⟩ → y.host.task.ended = false →
    y.move p (.caller k) = y) ∧
    (∀ (y : System) (p : Params) (k : Nat) (rest : List Job) (reply : Answer),
      y.activity k = some ⟨k, .startLoop :: rest, .ready, reply⟩ →
      (y.move p (.caller k)).host =
        if y.host.handle = true ∧ y.host.stop = false then { y.host with task := .testing } else y.host) ∧
    ∀ (y : System) (p : Params) (k wake : Nat), y.activity k = none → y.host.task = .paused wake →
      y.host.lock = none → y.engine.idleQuiet → y.engine.waiting = [] →
      let w := y.run p [.call k .remove, .caller k, .caller k]
      let z := w.run p [.pass (wake - y.engine.now), .task, .task, .caller k, .caller k, .engine, .caller k, .caller k]
      w.engine = y.engine ∧ w.host = { y.host with stop := true } ∧ z.engine.eng = .detached ∧
        z.engine.pins.drive = false ∧ z.host.handle = false ∧ z.host.task = .absent ∧
        z.answers = y.answers ++ [(k, .answered .ok)]

/-- 70_reset_and_hazards.md R285, R296, 44_host_config_and_sampling.md R222, R229: the bring-up up to its `apply()`: engine reset,
the registers set, ATTACH; granted, the handle is created with a history of the wanted capacity, CHIPRST is issued when it is
asked for, or when this reset or one before it has cut an operation off, and the configuration is loaded from the properties or
the defaults before `apply()` is presented and the loop started; refused, the call ends with `ResourceUnavailable` and no
handle. The model's own in it: the loaded offset is the default's (log 42), the slots of the new history hold 0 (log 36), its
capacity is `BUF_CAP` when no property gives one (log 25), no stop is requested (log 38), and the calls, the lock and the
waiting commands of before end with the reset (log 44). -/
def Obligations.ProbeFollowsTheBringUpOrder : Prop :=
  ∀ (y : System) (p : Params) (k : Nat) (c : ConfigRegs) (cycle : Bool) (q : Properties), y.activity k = none →
    y.host.handle = false → y.engine.hostIn = [] →
    let z := y.run p [.call k (.probe c cycle q), .caller k, .caller k, .caller k, .engine, .caller k]
    (∀ n, z.engine.cfg.get n = c.get n) ∧ z.engine.responses.length = y.engine.responses.length + 1 ∧
      if y.engine.granted then
        z.engine.eng = .idle ∧ z.host.handle = true ∧ z.host.stop = false ∧
          z.host.history = History.create (q.bufferSize.getD p.bufCap) ∧
          (∃ reply, z.activity k = some
            ⟨k, .powerCycle cycle :: .load q :: .apply .same :: if p.variant = .extended then [.startLoop] else [],
              .ready, reply⟩) ∧
          if cycle = true ∨ y.host.desynced = true ∨ y.engine.eng = .busy then
            let w := z.run p [.caller k, .engine, .caller k, .caller k]
            (z.move p (.caller k)).engine = z.engine.hostAct (.present ⟨callerRequester k, encode .chiprst⟩) ∧
              exec .chiprst (z.engine.serve ⟨callerRequester k, encode .chiprst⟩ []) = .next w.engine ∧
              w.engine.status.code = .ok ∧ w.host.desynced = false ∧ w.host.settings = q.settings p.defaults
          else
            let w := z.run p [.caller k, .caller k]
            w.host.settings = q.settings p.defaults ∧ w.engine = z.engine
      else
        z.engine.eng = .detached ∧ z.host.handle = false ∧
          (z.move p (.caller k)).answers = y.answers ++ [(k, .answered .resourceUnavailable)]
end

