-- ==== Sys2Proof/Laws/State.lean ====
section
/-! SUPPORT. What each operation does to each field of the state, one lemma per field, so that no proof unfolds a
record update. -/

namespace Sys2Proof.Machine

namespace State

variable (s : State)

/-! ### `emit` -/

@[simp] theorem emit_eng (p : PinEvent) (min : Nat) : (s.emit p min).eng = s.eng := rfl
@[simp] theorem emit_todo (p : PinEvent) (min : Nat) : (s.emit p min).todo = s.todo := rfl
@[simp] theorem emit_pins (p : PinEvent) (min : Nat) : (s.emit p min).pins = s.pins := rfl
@[simp] theorem emit_regs (p : PinEvent) (min : Nat) : (s.emit p min).regs = s.regs := rfl
@[simp] theorem emit_now (p : PinEvent) (min : Nat) : (s.emit p min).now = s.now + (min + s.slack) := rfl
@[simp] theorem emit_cfg (p : PinEvent) (min : Nat) : (s.emit p min).cfg = s.cfg := rfl
@[simp] theorem emit_status (p : PinEvent) (min : Nat) : (s.emit p min).status = s.status := rfl
@[simp] theorem emit_latch (p : PinEvent) (min : Nat) : (s.emit p min).latch = s.latch := rfl
@[simp] theorem emit_env (p : PinEvent) (min : Nat) : (s.emit p min).env = { s.env with slacks := s.env.slacks.rest } :=
    rfl
@[simp] theorem emit_waiting (p : PinEvent) (min : Nat) : (s.emit p min).waiting = s.waiting := rfl
@[simp] theorem emit_requester (p : PinEvent) (min : Nat) : (s.emit p min).requester = s.requester := rfl
@[simp] theorem emit_hostIn (p : PinEvent) (min : Nat) : (s.emit p min).hostIn = s.hostIn := rfl
@[simp] theorem emit_trace (p : PinEvent) (min : Nat) : (s.emit p min).trace = s.trace ++ [⟨p, min + s.slack⟩] := rfl
@[simp] theorem emit_responses (p : PinEvent) (min : Nat) : (s.emit p min).responses = s.responses := rfl
@[simp] theorem emit_reads (p : PinEvent) (min : Nat) : (s.emit p min).reads = s.reads := rfl

/-! ### `clk` -/

@[simp] theorem clk_eng (l : Level) : (s.clk l).eng = s.eng := rfl
@[simp] theorem clk_todo (l : Level) : (s.clk l).todo = s.todo := rfl
@[simp] theorem clk_pins (l : Level) : (s.clk l).pins = { s.pins with clkO := l } := rfl
@[simp] theorem clk_regs (l : Level) : (s.clk l).regs = s.regs := rfl
@[simp] theorem clk_now (l : Level) : (s.clk l).now = s.now + (0 + s.slack) := rfl
@[simp] theorem clk_cfg (l : Level) : (s.clk l).cfg = s.cfg := rfl
@[simp] theorem clk_status (l : Level) : (s.clk l).status = s.status := rfl
@[simp] theorem clk_latch (l : Level) : (s.clk l).latch = s.latch := rfl
@[simp] theorem clk_env (l : Level) : (s.clk l).env = { s.env with slacks := s.env.slacks.rest } := rfl
@[simp] theorem clk_waiting (l : Level) : (s.clk l).waiting = s.waiting := rfl
@[simp] theorem clk_requester (l : Level) : (s.clk l).requester = s.requester := rfl
@[simp] theorem clk_hostIn (l : Level) : (s.clk l).hostIn = s.hostIn := rfl
@[simp] theorem clk_trace (l : Level) : (s.clk l).trace = s.trace ++ [⟨.clk l, 0 + s.slack⟩] := rfl
@[simp] theorem clk_responses (l : Level) : (s.clk l).responses = s.responses := rfl
@[simp] theorem clk_reads (l : Level) : (s.clk l).reads = s.reads := rfl

/-! ### `dat` -/

@[simp] theorem dat_eng (l : Level) : (s.dat l).eng = s.eng := rfl
@[simp] theorem dat_todo (l : Level) : (s.dat l).todo = s.todo := rfl
@[simp] theorem dat_pins (l : Level) : (s.dat l).pins = { s.pins with dataO := l } := rfl
@[simp] theorem dat_regs (l : Level) : (s.dat l).regs = s.regs := rfl
@[simp] theorem dat_now (l : Level) : (s.dat l).now = s.now + (0 + s.slack) := rfl
@[simp] theorem dat_cfg (l : Level) : (s.dat l).cfg = s.cfg := rfl
@[simp] theorem dat_status (l : Level) : (s.dat l).status = s.status := rfl
@[simp] theorem dat_latch (l : Level) : (s.dat l).latch = s.latch := rfl
@[simp] theorem dat_env (l : Level) : (s.dat l).env = { s.env with slacks := s.env.slacks.rest } := rfl
@[simp] theorem dat_waiting (l : Level) : (s.dat l).waiting = s.waiting := rfl
@[simp] theorem dat_requester (l : Level) : (s.dat l).requester = s.requester := rfl
@[simp] theorem dat_hostIn (l : Level) : (s.dat l).hostIn = s.hostIn := rfl
@[simp] theorem dat_trace (l : Level) : (s.dat l).trace = s.trace ++ [⟨.dat l, 0 + s.slack⟩] := rfl
@[simp] theorem dat_responses (l : Level) : (s.dat l).responses = s.responses := rfl
@[simp] theorem dat_reads (l : Level) : (s.dat l).reads = s.reads := rfl

/-! ### `dir` -/

@[simp] theorem dir_eng (d : Dir) : (s.dir d).eng = s.eng := rfl
@[simp] theorem dir_todo (d : Dir) : (s.dir d).todo = s.todo := rfl
@[simp] theorem dir_pins (d : Dir) : (s.dir d).pins = { s.pins with dataDir := d } := rfl
@[simp] theorem dir_regs (d : Dir) : (s.dir d).regs = s.regs := rfl
@[simp] theorem dir_now (d : Dir) : (s.dir d).now = s.now + (0 + s.slack) := rfl
@[simp] theorem dir_cfg (d : Dir) : (s.dir d).cfg = s.cfg := rfl
@[simp] theorem dir_status (d : Dir) : (s.dir d).status = s.status := rfl
@[simp] theorem dir_latch (d : Dir) : (s.dir d).latch = s.latch := rfl
@[simp] theorem dir_env (d : Dir) : (s.dir d).env = { s.env with slacks := s.env.slacks.rest } := rfl
@[simp] theorem dir_waiting (d : Dir) : (s.dir d).waiting = s.waiting := rfl
@[simp] theorem dir_requester (d : Dir) : (s.dir d).requester = s.requester := rfl
@[simp] theorem dir_hostIn (d : Dir) : (s.dir d).hostIn = s.hostIn := rfl
@[simp] theorem dir_trace (d : Dir) : (s.dir d).trace = s.trace ++ [⟨.dir d, 0 + s.slack⟩] := rfl
@[simp] theorem dir_responses (d : Dir) : (s.dir d).responses = s.responses := rfl
@[simp] theorem dir_reads (d : Dir) : (s.dir d).reads = s.reads := rfl

/-! ### `hold` -/

@[simp] theorem hold_eng (i : Interval) : (s.hold i).eng = s.eng := rfl
@[simp] theorem hold_todo (i : Interval) : (s.hold i).todo = s.todo := rfl
@[simp] theorem hold_pins (i : Interval) : (s.hold i).pins = s.pins := rfl
@[simp] theorem hold_regs (i : Interval) : (s.hold i).regs = s.regs := rfl
@[simp] theorem hold_now (i : Interval) : (s.hold i).now = s.now + (s.cfg.interval i + s.slack) := rfl
@[simp] theorem hold_cfg (i : Interval) : (s.hold i).cfg = s.cfg := rfl
@[simp] theorem hold_status (i : Interval) : (s.hold i).status = s.status := rfl
@[simp] theorem hold_latch (i : Interval) : (s.hold i).latch = s.latch := rfl
@[simp] theorem hold_env (i : Interval) : (s.hold i).env = { s.env with slacks := s.env.slacks.rest } := rfl
@[simp] theorem hold_waiting (i : Interval) : (s.hold i).waiting = s.waiting := rfl
@[simp] theorem hold_requester (i : Interval) : (s.hold i).requester = s.requester := rfl
@[simp] theorem hold_hostIn (i : Interval) : (s.hold i).hostIn = s.hostIn := rfl
@[simp] theorem hold_trace (i : Interval) : (s.hold i).trace = s.trace ++ [⟨.hold (s.cfg.interval i), s.cfg.interval i + s.slack⟩] :=
    rfl
@[simp] theorem hold_responses (i : Interval) : (s.hold i).responses = s.responses := rfl
@[simp] theorem hold_reads (i : Interval) : (s.hold i).reads = s.reads := rfl

/-! ### `smp` -/

@[simp] theorem smp_eng : (s.smp).eng = s.eng := rfl
@[simp] theorem smp_todo : (s.smp).todo = s.todo := rfl
@[simp] theorem smp_pins : (s.smp).pins = s.pins := rfl
@[simp] theorem smp_regs : (s.smp).regs = s.regs := rfl
@[simp] theorem smp_now : (s.smp).now = s.now + (0 + s.slack) := rfl
@[simp] theorem smp_cfg : (s.smp).cfg = s.cfg := rfl
@[simp] theorem smp_status : (s.smp).status = s.status := rfl
@[simp] theorem smp_latch : (s.smp).latch = s.latch := rfl
@[simp] theorem smp_env : (s.smp).env = { s.env with samples := s.env.samples.rest, slacks := s.env.slacks.rest } :=
    rfl
@[simp] theorem smp_waiting : (s.smp).waiting = s.waiting := rfl
@[simp] theorem smp_requester : (s.smp).requester = s.requester := rfl
@[simp] theorem smp_hostIn : (s.smp).hostIn = s.hostIn := rfl
@[simp] theorem smp_trace : (s.smp).trace = s.trace ++ [⟨.smp s.line, 0 + s.slack⟩] := rfl
@[simp] theorem smp_responses : (s.smp).responses = s.responses := rfl
@[simp] theorem smp_reads : (s.smp).reads = s.reads := rfl

/-! ### `time` -/

@[simp] theorem time_eng : (s.time).eng = s.eng := rfl
@[simp] theorem time_todo : (s.time).todo = s.todo := rfl
@[simp] theorem time_pins : (s.time).pins = s.pins := rfl
@[simp] theorem time_regs : (s.time).regs = s.regs := rfl
@[simp] theorem time_now : (s.time).now = s.now + (0 + s.slack) := rfl
@[simp] theorem time_cfg : (s.time).cfg = s.cfg := rfl
@[simp] theorem time_status : (s.time).status = s.status := rfl
@[simp] theorem time_latch : (s.time).latch = s.latch := rfl
@[simp] theorem time_env : (s.time).env = { s.env with slacks := s.env.slacks.rest } := rfl
@[simp] theorem time_waiting : (s.time).waiting = s.waiting := rfl
@[simp] theorem time_requester : (s.time).requester = s.requester := rfl
@[simp] theorem time_hostIn : (s.time).hostIn = s.hostIn := rfl
@[simp] theorem time_trace : (s.time).trace = s.trace ++ [⟨.time, 0 + s.slack⟩] := rfl
@[simp] theorem time_responses : (s.time).responses = s.responses := rfl
@[simp] theorem time_reads : (s.time).reads = s.reads := rfl

/-! ### `next` -/

@[simp] theorem next_eng (items : List Item) : (s.next items).eng = s.eng := rfl
@[simp] theorem next_todo (items : List Item) : (s.next items).todo = items ++ s.todo := rfl
@[simp] theorem next_pins (items : List Item) : (s.next items).pins = s.pins := rfl
@[simp] theorem next_regs (items : List Item) : (s.next items).regs = s.regs := rfl
@[simp] theorem next_now (items : List Item) : (s.next items).now = s.now := rfl
@[simp] theorem next_cfg (items : List Item) : (s.next items).cfg = s.cfg := rfl
@[simp] theorem next_status (items : List Item) : (s.next items).status = s.status := rfl
@[simp] theorem next_latch (items : List Item) : (s.next items).latch = s.latch := rfl
@[simp] theorem next_env (items : List Item) : (s.next items).env = s.env := rfl
@[simp] theorem next_waiting (items : List Item) : (s.next items).waiting = s.waiting := rfl
@[simp] theorem next_requester (items : List Item) : (s.next items).requester = s.requester := rfl
@[simp] theorem next_hostIn (items : List Item) : (s.next items).hostIn = s.hostIn := rfl
@[simp] theorem next_trace (items : List Item) : (s.next items).trace = s.trace := rfl
@[simp] theorem next_responses (items : List Item) : (s.next items).responses = s.responses := rfl
@[simp] theorem next_reads (items : List Item) : (s.next items).reads = s.reads := rfl

/-! ### `complete` -/

@[simp] theorem complete_eng (st : Status) (v : Option Word) (n : BitVec 4) (e : Eng) : (s.complete st v n e).eng = e :=
    rfl
@[simp] theorem complete_todo (st : Status) (v : Option Word) (n : BitVec 4) (e : Eng) : (s.complete st v n e).todo = [] :=
    rfl
@[simp] theorem complete_pins (st : Status) (v : Option Word) (n : BitVec 4) (e : Eng) : (s.complete st v n e).pins = s.pins :=
    rfl
@[simp] theorem complete_regs (st : Status) (v : Option Word) (n : BitVec 4) (e : Eng) : (s.complete st v n e).regs = { s.regs with result := (v).getD s.regs.result, bitcnt := 0, deadline := Config.staleDeadline s.env.staleDeadlines } :=
    rfl
@[simp] theorem complete_now (st : Status) (v : Option Word) (n : BitVec 4) (e : Eng) : (s.complete st v n e).now = s.now :=
    rfl
@[simp] theorem complete_cfg (st : Status) (v : Option Word) (n : BitVec 4) (e : Eng) : (s.complete st v n e).cfg = s.cfg :=
    rfl
@[simp] theorem complete_status (st : Status) (v : Option Word) (n : BitVec 4) (e : Eng) : (s.complete st v n e).status = ⟨st, s.regs.op, s.latch.tmo⟩ :=
    rfl
@[simp] theorem complete_latch (st : Status) (v : Option Word) (n : BitVec 4) (e : Eng) : (s.complete st v n e).latch = s.latch :=
    rfl
@[simp] theorem complete_env (st : Status) (v : Option Word) (n : BitVec 4) (e : Eng) : (s.complete st v n e).env = { s.env with staleDeadlines := s.env.staleDeadlines + 1 } :=
    rfl
@[simp] theorem complete_waiting (st : Status) (v : Option Word) (n : BitVec 4) (e : Eng) : (s.complete st v n e).waiting = s.waiting :=
    rfl
@[simp] theorem complete_requester (st : Status) (v : Option Word) (n : BitVec 4) (e : Eng) : (s.complete st v n e).requester = s.requester :=
    rfl
@[simp] theorem complete_hostIn (st : Status) (v : Option Word) (n : BitVec 4) (e : Eng) : (s.complete st v n e).hostIn = s.hostIn :=
    rfl
@[simp] theorem complete_trace (st : Status) (v : Option Word) (n : BitVec 4) (e : Eng) : (s.complete st v n e).trace = s.trace :=
    rfl
@[simp] theorem complete_responses (st : Status) (v : Option Word) (n : BitVec 4) (e : Eng) : (s.complete st v n e).responses = s.responses ++ [⟨s.latch.owner, st, (v).getD 0, n⟩] :=
    rfl
@[simp] theorem complete_reads (st : Status) (v : Option Word) (n : BitVec 4) (e : Eng) : (s.complete st v n e).reads = s.reads :=
    rfl

/-! ### `succeed` -/

@[simp] theorem succeed_eng (c : Completion) : (s.succeed c).eng = completionEng c s := rfl
@[simp] theorem succeed_todo (c : Completion) : (s.succeed c).todo = [] := rfl
@[simp] theorem succeed_pins (c : Completion) : (s.succeed c).pins = s.pins := rfl
@[simp] theorem succeed_regs (c : Completion) : (s.succeed c).regs = { s.regs with result := (completionValue c s).getD s.regs.result, bitcnt := 0, deadline := Config.staleDeadline s.env.staleDeadlines } :=
    rfl
@[simp] theorem succeed_now (c : Completion) : (s.succeed c).now = s.now := rfl
@[simp] theorem succeed_cfg (c : Completion) : (s.succeed c).cfg = s.cfg := rfl
@[simp] theorem succeed_status (c : Completion) : (s.succeed c).status = ⟨.ok, s.regs.op, s.latch.tmo⟩ := rfl
@[simp] theorem succeed_latch (c : Completion) : (s.succeed c).latch = s.latch := rfl
@[simp] theorem succeed_env (c : Completion) : (s.succeed c).env = { s.env with staleDeadlines := s.env.staleDeadlines + 1 } :=
    rfl
@[simp] theorem succeed_waiting (c : Completion) : (s.succeed c).waiting = s.waiting := rfl
@[simp] theorem succeed_requester (c : Completion) : (s.succeed c).requester = s.requester := rfl
@[simp] theorem succeed_hostIn (c : Completion) : (s.succeed c).hostIn = s.hostIn := rfl
@[simp] theorem succeed_trace (c : Completion) : (s.succeed c).trace = s.trace := rfl
@[simp] theorem succeed_responses (c : Completion) : (s.succeed c).responses = s.responses ++ [⟨s.latch.owner, .ok, (completionValue c s).getD 0, completionRecn c s⟩] :=
    rfl
@[simp] theorem succeed_reads (c : Completion) : (s.succeed c).reads = s.reads := rfl

/-! ### `fail` -/

@[simp] theorem fail_eng (st : Status) : (s.fail st).eng = s.latch.heldEng := rfl
@[simp] theorem fail_todo (st : Status) : (s.fail st).todo = [] := rfl
@[simp] theorem fail_pins (st : Status) : (s.fail st).pins = s.pins := rfl
@[simp] theorem fail_regs (st : Status) : (s.fail st).regs = { s.regs with bitcnt := 0, deadline := Config.staleDeadline s.env.staleDeadlines } :=
    rfl
@[simp] theorem fail_now (st : Status) : (s.fail st).now = s.now := rfl
@[simp] theorem fail_cfg (st : Status) : (s.fail st).cfg = s.cfg := rfl
@[simp] theorem fail_status (st : Status) : (s.fail st).status = ⟨st, s.regs.op, s.latch.tmo⟩ := rfl
@[simp] theorem fail_latch (st : Status) : (s.fail st).latch = s.latch := rfl
@[simp] theorem fail_env (st : Status) : (s.fail st).env = { s.env with staleDeadlines := s.env.staleDeadlines + 1 } :=
    rfl
@[simp] theorem fail_waiting (st : Status) : (s.fail st).waiting = s.waiting := rfl
@[simp] theorem fail_requester (st : Status) : (s.fail st).requester = s.requester := rfl
@[simp] theorem fail_hostIn (st : Status) : (s.fail st).hostIn = s.hostIn := rfl
@[simp] theorem fail_trace (st : Status) : (s.fail st).trace = s.trace := rfl
@[simp] theorem fail_responses (st : Status) : (s.fail st).responses = s.responses ++ [⟨s.latch.owner, st, 0, 0⟩] :=
    rfl
@[simp] theorem fail_reads (st : Status) : (s.fail st).reads = s.reads := rfl

/-! ### `acquire` -/

@[simp] theorem acquire_eng : (s.acquire).eng = s.eng := rfl
@[simp] theorem acquire_todo : (s.acquire).todo = s.todo := rfl
@[simp] theorem acquire_pins : (s.acquire).pins = ⟨false, false, .input, true⟩ := rfl
@[simp] theorem acquire_regs : (s.acquire).regs = s.regs := rfl
@[simp] theorem acquire_now : (s.acquire).now = s.now := rfl
@[simp] theorem acquire_cfg : (s.acquire).cfg = s.cfg := rfl
@[simp] theorem acquire_status : (s.acquire).status = s.status := rfl
@[simp] theorem acquire_latch : (s.acquire).latch = s.latch := rfl
@[simp] theorem acquire_env : (s.acquire).env = s.env := rfl
@[simp] theorem acquire_waiting : (s.acquire).waiting = s.waiting := rfl
@[simp] theorem acquire_requester : (s.acquire).requester = s.requester := rfl
@[simp] theorem acquire_hostIn : (s.acquire).hostIn = s.hostIn := rfl
@[simp] theorem acquire_trace : (s.acquire).trace = s.trace ++ [⟨.acquire, 0⟩] := rfl
@[simp] theorem acquire_responses : (s.acquire).responses = s.responses := rfl
@[simp] theorem acquire_reads : (s.acquire).reads = s.reads := rfl

/-! ### `release` -/

@[simp] theorem release_eng : (s.release).eng = s.eng := rfl
@[simp] theorem release_todo : (s.release).todo = s.todo := rfl
@[simp] theorem release_pins : (s.release).pins = { s.pins with drive := false } := rfl
@[simp] theorem release_regs : (s.release).regs = s.regs := rfl
@[simp] theorem release_now : (s.release).now = s.now := rfl
@[simp] theorem release_cfg : (s.release).cfg = s.cfg := rfl
@[simp] theorem release_status : (s.release).status = s.status := rfl
@[simp] theorem release_latch : (s.release).latch = s.latch := rfl
@[simp] theorem release_env : (s.release).env = s.env := rfl
@[simp] theorem release_waiting : (s.release).waiting = s.waiting := rfl
@[simp] theorem release_requester : (s.release).requester = s.requester := rfl
@[simp] theorem release_hostIn : (s.release).hostIn = s.hostIn := rfl
@[simp] theorem release_trace : (s.release).trace = s.trace ++ [⟨.release, 0⟩] := rfl
@[simp] theorem release_responses : (s.release).responses = s.responses := rfl
@[simp] theorem release_reads : (s.release).reads = s.reads := rfl

/-! ### `accept` -/

@[simp] theorem accept_eng (w : Word) (v : Option Status) (b : List Item) : (s.accept w v b).eng = .busy := rfl
@[simp] theorem accept_todo (w : Word) (v : Option Status) (b : List Item) : (s.accept w v b).todo = ⟨⟨.check, 0, 0⟩, .check v⟩ :: b :=
    rfl
@[simp] theorem accept_pins (w : Word) (v : Option Status) (b : List Item) : (s.accept w v b).pins = s.pins := rfl
@[simp] theorem accept_regs (w : Word) (v : Option Status) (b : List Item) : (s.accept w v b).regs = { s.regs with bitcnt := 0, op := opField w, reg := regField w, data := dataField w } :=
    rfl
@[simp] theorem accept_now (w : Word) (v : Option Status) (b : List Item) : (s.accept w v b).now = s.now := rfl
@[simp] theorem accept_cfg (w : Word) (v : Option Status) (b : List Item) : (s.accept w v b).cfg = s.cfg := rfl
@[simp] theorem accept_status (w : Word) (v : Option Status) (b : List Item) : (s.accept w v b).status = s.status :=
    rfl
@[simp] theorem accept_latch (w : Word) (v : Option Status) (b : List Item) : (s.accept w v b).latch = { s.latch with tmo := s.cfg.timeout, heldEng := s.eng, owner := s.requester } :=
    rfl
@[simp] theorem accept_env (w : Word) (v : Option Status) (b : List Item) : (s.accept w v b).env = s.env := rfl
@[simp] theorem accept_waiting (w : Word) (v : Option Status) (b : List Item) : (s.accept w v b).waiting = s.waiting :=
    rfl
@[simp] theorem accept_requester (w : Word) (v : Option Status) (b : List Item) : (s.accept w v b).requester = s.requester :=
    rfl
@[simp] theorem accept_hostIn (w : Word) (v : Option Status) (b : List Item) : (s.accept w v b).hostIn = s.hostIn :=
    rfl
@[simp] theorem accept_trace (w : Word) (v : Option Status) (b : List Item) : (s.accept w v b).trace = s.trace := rfl
@[simp] theorem accept_responses (w : Word) (v : Option Status) (b : List Item) : (s.accept w v b).responses = s.responses :=
    rfl
@[simp] theorem accept_reads (w : Word) (v : Option Status) (b : List Item) : (s.accept w v b).reads = s.reads := rfl

/-! ### `serve` -/

@[simp] theorem serve_eng (c : HostCmd) (o : List HostCmd) : (s.serve c o).eng = s.eng := rfl
@[simp] theorem serve_todo (c : HostCmd) (o : List HostCmd) : (s.serve c o).todo = s.todo := rfl
@[simp] theorem serve_pins (c : HostCmd) (o : List HostCmd) : (s.serve c o).pins = s.pins := rfl
@[simp] theorem serve_regs (c : HostCmd) (o : List HostCmd) : (s.serve c o).regs = s.regs := rfl
@[simp] theorem serve_now (c : HostCmd) (o : List HostCmd) : (s.serve c o).now = s.now := rfl
@[simp] theorem serve_cfg (c : HostCmd) (o : List HostCmd) : (s.serve c o).cfg = s.cfg := rfl
@[simp] theorem serve_status (c : HostCmd) (o : List HostCmd) : (s.serve c o).status = s.status := rfl
@[simp] theorem serve_latch (c : HostCmd) (o : List HostCmd) : (s.serve c o).latch = s.latch := rfl
@[simp] theorem serve_env (c : HostCmd) (o : List HostCmd) : (s.serve c o).env = s.env := rfl
@[simp] theorem serve_waiting (c : HostCmd) (o : List HostCmd) : (s.serve c o).waiting = o := rfl
@[simp] theorem serve_requester (c : HostCmd) (o : List HostCmd) : (s.serve c o).requester = c.who := rfl
@[simp] theorem serve_hostIn (c : HostCmd) (o : List HostCmd) : (s.serve c o).hostIn = s.hostIn := rfl
@[simp] theorem serve_trace (c : HostCmd) (o : List HostCmd) : (s.serve c o).trace = s.trace := rfl
@[simp] theorem serve_responses (c : HostCmd) (o : List HostCmd) : (s.serve c o).responses = s.responses := rfl
@[simp] theorem serve_reads (c : HostCmd) (o : List HostCmd) : (s.serve c o).reads = s.reads := rfl

/-! ### `engineReset` -/

@[simp] theorem engineReset_eng : (s.engineReset).eng = .detached := rfl
@[simp] theorem engineReset_todo : (s.engineReset).todo = [] := rfl
@[simp] theorem engineReset_pins : (s.engineReset).pins = ⟨false, false, .input, false⟩ := rfl
@[simp] theorem engineReset_regs : (s.engineReset).regs = State.reset.regs := rfl
@[simp] theorem engineReset_now : (s.engineReset).now = 0 := rfl
@[simp] theorem engineReset_cfg : (s.engineReset).cfg = State.reset.cfg := rfl
@[simp] theorem engineReset_status : (s.engineReset).status = ⟨.ok, 0, 0⟩ := rfl
@[simp] theorem engineReset_latch : (s.engineReset).latch = State.reset.latch := rfl
@[simp] theorem engineReset_env : (s.engineReset).env = s.env := rfl
@[simp] theorem engineReset_waiting : (s.engineReset).waiting = s.waiting := rfl
@[simp] theorem engineReset_requester : (s.engineReset).requester = s.requester := rfl
@[simp] theorem engineReset_hostIn : (s.engineReset).hostIn = s.hostIn := rfl
@[simp] theorem engineReset_trace : (s.engineReset).trace = s.trace ++ [⟨.release, 0⟩] := rfl
@[simp] theorem engineReset_responses : (s.engineReset).responses = s.responses := rfl
@[simp] theorem engineReset_reads : (s.engineReset).reads = s.reads := rfl

/-! ### `hostRead` -/

@[simp] theorem hostRead_eng (who : Nat) (r : RegNo) : (s.hostRead who r).eng = s.eng := rfl
@[simp] theorem hostRead_todo (who : Nat) (r : RegNo) : (s.hostRead who r).todo = s.todo := rfl
@[simp] theorem hostRead_pins (who : Nat) (r : RegNo) : (s.hostRead who r).pins = s.pins := rfl
@[simp] theorem hostRead_regs (who : Nat) (r : RegNo) : (s.hostRead who r).regs = s.regs := rfl
@[simp] theorem hostRead_now (who : Nat) (r : RegNo) : (s.hostRead who r).now = s.now := rfl
@[simp] theorem hostRead_cfg (who : Nat) (r : RegNo) : (s.hostRead who r).cfg = s.cfg := rfl
@[simp] theorem hostRead_status (who : Nat) (r : RegNo) : (s.hostRead who r).status = s.status := rfl
@[simp] theorem hostRead_latch (who : Nat) (r : RegNo) : (s.hostRead who r).latch = s.latch := rfl
@[simp] theorem hostRead_env (who : Nat) (r : RegNo) : (s.hostRead who r).env = if r.samplesLine then { s.env with pinReads := s.env.pinReads.rest } else s.env :=
    rfl
@[simp] theorem hostRead_waiting (who : Nat) (r : RegNo) : (s.hostRead who r).waiting = s.waiting := rfl
@[simp] theorem hostRead_requester (who : Nat) (r : RegNo) : (s.hostRead who r).requester = s.requester := rfl
@[simp] theorem hostRead_hostIn (who : Nat) (r : RegNo) : (s.hostRead who r).hostIn = s.hostIn := rfl
@[simp] theorem hostRead_trace (who : Nat) (r : RegNo) : (s.hostRead who r).trace = s.trace := rfl
@[simp] theorem hostRead_responses (who : Nat) (r : RegNo) : (s.hostRead who r).responses = s.responses := rfl
@[simp] theorem hostRead_reads (who : Nat) (r : RegNo) : (s.hostRead who r).reads = s.reads ++ [⟨who, r, s.regValue (s.env.pinReads.peek Config.pinReadLevel) r⟩] :=
    rfl

/-! ### `idleStep` -/

@[simp] theorem idleStep_eng : (s.idleStep).eng = s.eng := rfl
@[simp] theorem idleStep_todo : (s.idleStep).todo = s.todo := rfl
@[simp] theorem idleStep_pins : (s.idleStep).pins = s.pins := rfl
@[simp] theorem idleStep_regs : (s.idleStep).regs = s.regs := rfl
@[simp] theorem idleStep_now : (s.idleStep).now = s.now + s.slack := rfl
@[simp] theorem idleStep_cfg : (s.idleStep).cfg = s.cfg := rfl
@[simp] theorem idleStep_status : (s.idleStep).status = s.status := rfl
@[simp] theorem idleStep_latch : (s.idleStep).latch = s.latch := rfl
@[simp] theorem idleStep_env : (s.idleStep).env = { s.env with slacks := s.env.slacks.rest } := rfl
@[simp] theorem idleStep_waiting : (s.idleStep).waiting = s.waiting := rfl
@[simp] theorem idleStep_requester : (s.idleStep).requester = s.requester := rfl
@[simp] theorem idleStep_hostIn : (s.idleStep).hostIn = match s.hostIn with | [] => [] | h :: rest => ⟨0, h.act⟩ :: rest :=
    rfl
@[simp] theorem idleStep_trace : (s.idleStep).trace = s.trace := rfl
@[simp] theorem idleStep_responses : (s.idleStep).responses = s.responses := rfl
@[simp] theorem idleStep_reads : (s.idleStep).reads = s.reads := rfl

end State

end Sys2Proof.Machine
end

