-- ==== Sys2Proof/Laws/Environment.lean ====
section
/-! SUPPORT. The environment's coming answers: how a draw moves them on (20_memory.md R64, R73). -/

namespace Sys2Proof.Machine

/-- The next draw is answer 0. -/
theorem Source.peek_eq_nth {α : Type} (free : Nat → α) (q : Source α) : q.peek free = q.nth free 0 := by
  rcases q with ⟨_ | ⟨a, l⟩, n⟩ <;> simp [Source.peek, Source.nth]

/-- After a draw every answer is one nearer. -/
@[simp] theorem Source.rest_nth {α : Type} (free : Nat → α) (q : Source α) (k : Nat) :
    q.rest.nth free k = q.nth free (k + 1) := by
  rcases q with ⟨_ | ⟨a, l⟩, n⟩ <;> simp [Source.rest, Source.nth, Nat.add_comm, Nat.add_left_comm]

/-- The next sample is answer 0. -/
theorem State.line_eq_answer (s : State) : s.line = s.answer 0 := Source.peek_eq_nth _ _

/-- The next excess is excess 0. -/
theorem State.slack_eq_excess (s : State) : s.slack = s.excess 0 := Source.peek_eq_nth _ _

/-- `answer` reads the sample source alone. -/
theorem State.answer_congr {s t : State} (h : t.env.samples = s.env.samples) (k : Nat) : t.answer k = s.answer k := by
  simp only [State.answer, h]

/-- `excess` reads the slack source alone. -/
theorem State.excess_congr {s t : State} (h : t.env.slacks = s.env.slacks) (k : Nat) : t.excess k = s.excess k := by
  simp only [State.excess, h]

/-- `elapsed` reads the slack source alone. -/
theorem State.elapsed_congr {s t : State} (h : t.env.slacks = s.env.slacks) (n : Nat) : t.elapsed n = s.elapsed n := by
  induction n with
  | zero => rfl
  | succ n ih => simp only [State.elapsed, ih, State.excess_congr h]

/-- A state `m` samples and `n` micro-events further on: its coming answers and excesses are the later ones of `s`. -/
structure State.Later (s : State) (m n : Nat) (t : State) : Prop where
  answer : ∀ k, t.answer k = s.answer (m + k)
  excess : ∀ k, t.excess k = s.excess (n + k)

theorem State.Later.refl (s : State) : s.Later 0 0 s := ⟨by simp, by simp⟩

theorem State.Later.trans {s t u : State} {m n p q : Nat} (h : s.Later m n t) (g : t.Later p q u) :
    s.Later (m + p) (n + q) u :=
  ⟨fun k => by rw [g.answer, h.answer, Nat.add_assoc], fun k => by rw [g.excess, h.excess, Nat.add_assoc]⟩

/-- Later excesses add up to the difference. -/
theorem State.Later.elapsed {s t : State} {m n : Nat} (h : s.Later m n t) (k : Nat) :
    s.elapsed n + t.elapsed k = s.elapsed (n + k) := by
  induction k with
  | zero => rfl
  | succ k ih => rw [State.elapsed, ← Nat.add_assoc, ih, h.excess, ← Nat.add_assoc, State.elapsed]

theorem State.elapsed_zero (s : State) : s.elapsed 0 = 0 := rfl

theorem State.elapsed_one (s : State) : s.elapsed 1 = s.slack := by
  simp [State.elapsed, State.slack_eq_excess]

/-- In the reference timing nothing beyond the minimums elapses (20_memory.md R73). -/
theorem State.elapsed_reference {s : State} {m : Nat} (h : s.referenceTiming m) {n : Nat} (hn : n ≤ m) :
    s.elapsed n = 0 := by
  induction n with
  | zero => rfl
  | succ n ih => simp only [State.elapsed, ih (Nat.le_of_succ_le hn), h n hn]

/-- A state with the same sources is no later. -/
theorem State.later_of_env {s t : State} (h : t.env.samples = s.env.samples) (g : t.env.slacks = s.env.slacks) :
    s.Later 0 0 t :=
  ⟨fun k => by simpa using State.answer_congr h k, fun k => by simpa using State.excess_congr g k⟩

theorem State.later_emit (s : State) (p : PinEvent) (min : Nat) : s.Later 0 1 (s.emit p min) :=
  ⟨fun k => by simp [State.answer], fun k => by simp [State.excess, Nat.add_comm]⟩

theorem State.later_smp (s : State) : s.Later 1 1 s.smp :=
  ⟨fun k => by simp [State.answer, Nat.add_comm], fun k => by simp [State.excess, Nat.add_comm]⟩

/-- `seen` over a longer trace. -/
theorem seen_append (a b : List Event) : seen (a ++ b) = seen a ++ seen b := by simp [seen]

@[simp] theorem seen_nil : seen [] = [] := rfl

@[simp] theorem seen_time (n : Nat) : seen [⟨.time, n⟩] = [] := rfl

/-- What a trace of one event that is no `TIME()` shows. -/
theorem seen_single {p : PinEvent} (h : p ≠ .time) (n : Nat) : seen [⟨p, n⟩] = [p] := by simp [seen, h]

end Sys2Proof.Machine
end

