-- ==== Sys2Proof/Laws/Sequencer.lean ====
section
/-! SUPPORT. The sequencer: how `runItems` composes, and how it performs a stretch of actions that neither branch nor
end the operation (20_memory.md R72). -/

namespace Sys2Proof.Machine

/-! ### `runItems` -/

@[simp] theorem runItems_zero (s : State) : runItems 0 s = s := rfl

theorem runItems_succ (n : Nat) (s : State) :
    runItems (n + 1) s = if s.paused then s else runItems n s.sequence := rfl

/-- A paused sequencer stays. -/
theorem runItems_paused {s : State} (h : s.paused = true) (n : Nat) : runItems n s = s := by
  cases n <;> simp [runItems, h]

/-- Running on is running further. -/
theorem runItems_add (m n : Nat) (s : State) : runItems (m + n) s = runItems n (runItems m s) := by
  induction m generalizing s with
  | zero => simp
  | succ m ih =>
    rw [Nat.succ_add, runItems_succ, runItems_succ]
    by_cases h : s.paused = true
    · simp [h, runItems_paused h]
    · simp [h, ih]

/-- With nothing left to do the sequencer is paused. -/
theorem paused_of_done {s : State} (h : s.todo = []) : s.paused = true := by simp [State.paused, h]

/-- With no action of the host coming, an item to do is performed. -/
theorem runItems_item {s : State} {it : Item} {rest : List Item} (hq : s.hostIn = []) (ht : s.todo = it :: rest)
    (n : Nat) : runItems (n + 1) s = runItems n ({ s with todo := rest }.perform it) := by
  have hp : s.paused = false := by simp [State.paused, State.hostDue, hq, ht]
  have hs : ({ s with todo := rest, hostIn := countDown s.hostIn } : State) = { s with todo := rest } := by
    rw [hq]; simp [countDown, ← hq]
  simp only [runItems_succ, hp, State.sequence, ht, hs]
  rfl

/-! ### What performing an item leaves alone -/

/-- Nothing an item does touches the configuration, the waiting commands, the requester, the host's coming actions or
the values the host read (20_memory.md R79). -/
theorem perform_hostSide (s : State) (it : Item) : HostSideKept s (s.perform it) := by
  unfold HostSideKept
  rcases it with ⟨q, a⟩
  cases a with
  | check v => cases v <;> simp [State.perform]
  | poll => simp only [State.perform, State.poll]; split <;> simp
  | expire => simp only [State.perform, State.expire]; split <;> simp
  | recheck => simp only [State.perform, State.recheck]; split <;> simp
  | recover => simp only [State.perform, State.recover]; split <;> (try split) <;> simp
  | grant => simp only [State.perform, State.grant]; split <;> simp
  | _ => simp [State.perform]

@[simp] theorem perform_cfg (s : State) (it : Item) : (s.perform it).cfg = s.cfg := (perform_hostSide s it).1

@[simp] theorem perform_waiting (s : State) (it : Item) : (s.perform it).waiting = s.waiting :=
  (perform_hostSide s it).2.1

@[simp] theorem perform_requester (s : State) (it : Item) : (s.perform it).requester = s.requester :=
  (perform_hostSide s it).2.2.1

@[simp] theorem perform_hostIn (s : State) (it : Item) : (s.perform it).hostIn = s.hostIn :=
  (perform_hostSide s it).2.2.2.1

@[simp] theorem perform_reads (s : State) (it : Item) : (s.perform it).reads = s.reads :=
  (perform_hostSide s it).2.2.2.2

/-! ### Straight actions -/

/-- An action that neither branches nor ends the operation. -/
def Act.straight : Act → Bool
  | .poll | .expire | .recheck | .recover | .grant | .complete _ | .check (some _) => false
  | .clk _ | .dat _ | .dir _ | .hold _ | .smp | .setDeadline | .check none | .acquire | .release | .startPhase
  | .endCell | .clearShift | .shiftIn | .latchSample | .clearRecn | .bumpRecn => true

/-- The effect of a straight action, without its position. -/
def State.does (s : State) (a : Act) : State := s.perform ⟨⟨.idle, 0, 0⟩, a⟩

/-- A list of straight actions, one after the other (20_memory.md R72). -/
def State.doAll (s : State) (acts : List Act) : State := acts.foldl State.does s

@[simp] theorem State.doAll_nil (s : State) : s.doAll [] = s := rfl

@[simp] theorem State.doAll_cons (s : State) (a : Act) (acts : List Act) : s.doAll (a :: acts) = (s.does a).doAll acts :=
  rfl

@[simp] theorem State.doAll_append (s : State) (a b : List Act) : s.doAll (a ++ b) = (s.doAll a).doAll b := by
  simp [State.doAll]

/-- A straight action does not look at its position nor at the plan. -/
theorem perform_straight {it : Item} (h : it.act.straight = true) (s : State) (l : List Item) :
    { s with todo := l }.perform it = { s.does it.act with todo := l } := by
  rcases it with ⟨q, a⟩
  cases a with
  | check v => cases v <;> first | rfl | cases h
  | _ => first | rfl | cases h

/-- What a straight action leaves alone. -/
theorem does_frame {a : Act} (h : a.straight = true) (s : State) :
    (s.does a).eng = s.eng ∧ (s.does a).todo = s.todo ∧ (s.does a).status = s.status ∧
      (s.does a).responses = s.responses ∧ (s.does a).latch.tmo = s.latch.tmo ∧
      (s.does a).latch.heldEng = s.latch.heldEng ∧ (s.does a).latch.owner = s.latch.owner ∧
      (s.does a).regs.result = s.regs.result ∧ (s.does a).regs.op = s.regs.op ∧
      (s.does a).regs.reg = s.regs.reg ∧ (s.does a).regs.data = s.regs.data ∧
      (s.does a).env.pinReads = s.env.pinReads ∧ (s.does a).env.grants = s.env.grants ∧
      (s.does a).env.picks = s.env.picks ∧ (s.does a).env.staleDeadlines = s.env.staleDeadlines := by
  cases a with
  | check v => cases v <;> simp_all [State.does, State.perform, Act.straight]
  | _ => first | (simp [Act.straight] at h; done) | simp [State.does, State.perform]

/-- A plan's actions. -/
def actsOf (items : List Item) : List Act := items.map Item.act

@[simp] theorem actsOf_nil : actsOf [] = [] := rfl

@[simp] theorem actsOf_cons (it : Item) (l : List Item) : actsOf (it :: l) = it.act :: actsOf l := rfl

@[simp] theorem actsOf_append (a b : List Item) : actsOf (a ++ b) = actsOf a ++ actsOf b := by simp [actsOf]

/-- The sequencer performs a straight stretch of its plan: the effects in order, and the rest of the plan to do. -/
theorem runItems_straight (items : List Item) (h : ∀ it ∈ items, it.act.straight = true) (rest : List Item)
    (s : State) (hq : s.hostIn = []) (n : Nat) :
    runItems (items.length + n) { s with todo := items ++ rest }
      = runItems n { s.doAll (actsOf items) with todo := rest } := by
  induction items generalizing s with
  | nil => simp
  | cons it items ih =>
    have hi : it.act.straight = true := h it (by simp)
    rw [List.length_cons, Nat.add_right_comm,
      runItems_item (s := { s with todo := it :: items ++ rest }) hq (rest := items ++ rest) rfl]
    show runItems _ ({ s with todo := items ++ rest }.perform it) = _
    rw [perform_straight hi s]
    exact ih (fun j hj => h j (by simp [hj])) _ (by simp [State.does, hq])

end Sys2Proof.Machine
end

