-- ==== Sys2Proof/Laws/Straight.lean ====
section
/-! SUPPORT. What a stretch of straight actions does to the environment, the time, the pins and what is seen on them:
each a fold over the actions, so that a frame is read off its list of actions (20_memory.md R72, R73). -/

namespace Sys2Proof.Machine

/-! ### The effect of one straight action, by name -/

section
variable (s : State)

@[simp] theorem does_clk (l : Level) : s.does (.clk l) = s.clk l := rfl
@[simp] theorem does_dat (l : Level) : s.does (.dat l) = s.dat l := rfl
@[simp] theorem does_dir (d : Dir) : s.does (.dir d) = s.dir d := rfl
@[simp] theorem does_hold (i : Interval) : s.does (.hold i) = s.hold i := rfl
@[simp] theorem does_smp : s.does .smp = { s.smp with latch := { s.latch with bit := s.line } } := rfl
@[simp] theorem does_setDeadline :
    s.does .setDeadline = { s.time with regs := { s.regs with deadline := s.now + s.latch.tmo.toNat } } := rfl
@[simp] theorem does_check : s.does (.check none) = s := rfl
@[simp] theorem does_acquire : s.does .acquire = s.acquire := rfl
@[simp] theorem does_release : s.does .release = s.release := rfl
@[simp] theorem does_startPhase : s.does .startPhase = { s with regs := { s.regs with bitcnt := 0 } } := rfl
@[simp] theorem does_endCell :
    s.does .endCell = { s with regs := { s.regs with bitcnt := s.regs.bitcnt + 1 } } := rfl
@[simp] theorem does_clearShift : s.does .clearShift = { s with regs := { s.regs with shift := 0 } } := rfl
@[simp] theorem does_shiftIn :
    s.does .shiftIn = { s with regs := { s.regs with shift := shiftBit s.regs.shift s.latch.bit } } := rfl
@[simp] theorem does_latchSample :
    s.does .latchSample = { s with latch := { s.latch with value := sext32 s.regs.shift } } := rfl
@[simp] theorem does_clearRecn : s.does .clearRecn = { s with regs := { s.regs with recn := 0 } } := rfl
@[simp] theorem does_bumpRecn :
    s.does .bumpRecn = { s with regs := { s.regs with recn := s.regs.recn + 1 } } := rfl

end

/-! ### What an action draws, takes, shows and drives -/

/-- The samples an action takes. -/
def Act.smps : Act → Nat
  | .smp => 1
  | _ => 0

/-- The micro-events of an action. -/
def Act.micros : Act → Nat
  | .clk _ | .dat _ | .dir _ | .hold _ | .smp | .setDeadline => 1
  | _ => 0

/-- The minimum time of an action in ticks. -/
def Act.mins (c : ConfigRegs) : Act → Nat
  | .hold i => c.interval i
  | _ => 0

/-- What is seen of an action; `b` is the answer of its sample. -/
def Act.shows (c : ConfigRegs) (b : Level) : Act → List PinEvent
  | .clk l => [.clk l]
  | .dat l => [.dat l]
  | .dir d => [.dir d]
  | .hold i => [.hold (c.interval i)]
  | .smp => [.smp b]
  | .acquire => [.acquire]
  | .release => [.release]
  | _ => []

/-- The pins after an action. -/
def Act.drives (p : Pins) : Act → Pins
  | .clk l => { p with clkO := l }
  | .dat l => { p with dataO := l }
  | .dir d => { p with dataDir := d }
  | .acquire => ⟨false, false, .input, true⟩
  | .release => { p with drive := false }
  | _ => p

/-- The samples of a list of actions. -/
def smpsOf (acts : List Act) : Nat := (acts.map Act.smps).sum

/-- The micro-events of a list of actions. -/
def microsOf (acts : List Act) : Nat := (acts.map Act.micros).sum

/-- The minimum time of a list of actions. -/
def minsOf (c : ConfigRegs) (acts : List Act) : Nat := (acts.map (Act.mins c)).sum

/-- What is seen of a list of actions when the line gives the answers `ans`. -/
def showsOf (c : ConfigRegs) (ans : Nat → Level) : List Act → List PinEvent
  | [] => []
  | a :: acts => a.shows c (ans 0) ++ showsOf c (fun k => ans (a.smps + k)) acts

/-- The pins after a list of actions. -/
def drivesOf (p : Pins) (acts : List Act) : Pins := acts.foldl Act.drives p

@[simp] theorem smpsOf_nil : smpsOf [] = 0 := rfl
@[simp] theorem smpsOf_cons (a : Act) (l : List Act) : smpsOf (a :: l) = a.smps + smpsOf l := by simp [smpsOf]
@[simp] theorem smpsOf_append (a b : List Act) : smpsOf (a ++ b) = smpsOf a + smpsOf b := by simp [smpsOf]
@[simp] theorem microsOf_nil : microsOf [] = 0 := rfl
@[simp] theorem microsOf_cons (a : Act) (l : List Act) : microsOf (a :: l) = a.micros + microsOf l := by
  simp [microsOf]
@[simp] theorem microsOf_append (a b : List Act) : microsOf (a ++ b) = microsOf a + microsOf b := by simp [microsOf]
@[simp] theorem minsOf_nil (c : ConfigRegs) : minsOf c [] = 0 := rfl
@[simp] theorem minsOf_cons (c : ConfigRegs) (a : Act) (l : List Act) : minsOf c (a :: l) = a.mins c + minsOf c l := by
  simp [minsOf]
@[simp] theorem minsOf_append (c : ConfigRegs) (a b : List Act) : minsOf c (a ++ b) = minsOf c a + minsOf c b := by
  simp [minsOf]
@[simp] theorem showsOf_nil (c : ConfigRegs) (ans : Nat → Level) : showsOf c ans [] = [] := rfl
theorem showsOf_cons (c : ConfigRegs) (ans : Nat → Level) (a : Act) (l : List Act) :
    showsOf c ans (a :: l) = a.shows c (ans 0) ++ showsOf c (fun k => ans (a.smps + k)) l := rfl
theorem showsOf_append (c : ConfigRegs) (ans : Nat → Level) (a b : List Act) :
    showsOf c ans (a ++ b) = showsOf c ans a ++ showsOf c (fun k => ans (smpsOf a + k)) b := by
  induction a generalizing ans with
  | nil => simp
  | cons x a ih => simp [showsOf_cons, ih, Nat.add_assoc]
@[simp] theorem drivesOf_nil (p : Pins) : drivesOf p [] = p := rfl
@[simp] theorem drivesOf_cons (p : Pins) (a : Act) (l : List Act) : drivesOf p (a :: l) = drivesOf (a.drives p) l := rfl
@[simp] theorem drivesOf_append (p : Pins) (a b : List Act) : drivesOf p (a ++ b) = drivesOf (drivesOf p a) b := by
  simp [drivesOf]

/-! ### What a run of the operation's actions has in common with any other -/

/-- From `s` the engine came to `t` inside one operation: it drew `m` samples, performed `n` micro-events of
together `mins` ticks at least, and showed `evs`; `ENG`, the status registers, the responses, the latched operands and
`RESULT`, the configuration and the host's side are what they were. -/
structure Ran (s t : State) (m n mins : Nat) (evs : List PinEvent) : Prop where
  later : s.Later m n t
  now : t.now = s.now + mins + s.elapsed n
  seen : seen t.trace = seen s.trace ++ evs
  eng : t.eng = s.eng
  status : t.status = s.status
  responses : t.responses = s.responses
  tmo : t.latch.tmo = s.latch.tmo
  heldEng : t.latch.heldEng = s.latch.heldEng
  owner : t.latch.owner = s.latch.owner
  result : t.regs.result = s.regs.result
  op : t.regs.op = s.regs.op
  reg : t.regs.reg = s.regs.reg
  data : t.regs.data = s.regs.data
  host : HostSideKept s t

theorem Ran.cfg {s t : State} {m n mins : Nat} {evs : List PinEvent} (h : Ran s t m n mins evs) : t.cfg = s.cfg :=
  h.host.1

theorem Ran.hostIn {s t : State} {m n mins : Nat} {evs : List PinEvent} (h : Ran s t m n mins evs) :
    t.hostIn = s.hostIn := h.host.2.2.2.1

theorem HostSideKept.trans {s t u : State} (h : HostSideKept s t) (g : HostSideKept t u) : HostSideKept s u :=
  ⟨g.1.trans h.1, g.2.1.trans h.2.1, g.2.2.1.trans h.2.2.1, g.2.2.2.1.trans h.2.2.2.1, g.2.2.2.2.trans h.2.2.2.2⟩

theorem Ran.refl (s : State) : Ran s s 0 0 0 [] where
  later := .refl s
  now := by simp [State.elapsed]
  seen := by simp
  eng := rfl
  status := rfl
  responses := rfl
  tmo := rfl
  heldEng := rfl
  owner := rfl
  result := rfl
  op := rfl
  reg := rfl
  data := rfl
  host := ⟨rfl, rfl, rfl, rfl, rfl⟩

theorem Ran.trans {s t u : State} {m n i p q j : Nat} {a b : List PinEvent} (h : Ran s t m n i a)
    (g : Ran t u p q j b) : Ran s u (m + p) (n + q) (i + j) (a ++ b) where
  later := h.later.trans g.later
  now := by
    have := h.later.elapsed q
    rw [g.now, h.now]
    omega
  seen := by rw [g.seen, h.seen, List.append_assoc]
  eng := g.eng.trans h.eng
  status := g.status.trans h.status
  responses := g.responses.trans h.responses
  tmo := g.tmo.trans h.tmo
  heldEng := g.heldEng.trans h.heldEng
  owner := g.owner.trans h.owner
  result := g.result.trans h.result
  op := g.op.trans h.op
  reg := g.reg.trans h.reg
  data := g.data.trans h.data
  host := h.host.trans g.host

/-- The plan is no part of it. -/
theorem Ran.withTodo {s t : State} {m n i : Nat} {a : List PinEvent} (h : Ran s t m n i a) (l : List Item) :
    Ran s { t with todo := l } m n i a where
  later := ⟨h.later.answer, h.later.excess⟩
  now := h.now
  seen := h.seen
  eng := h.eng
  status := h.status
  responses := h.responses
  tmo := h.tmo
  heldEng := h.heldEng
  owner := h.owner
  result := h.result
  op := h.op
  reg := h.reg
  data := h.data
  host := h.host

/-- The numbers and the events may be written otherwise. -/
theorem Ran.cast {s t : State} {m n i m' n' i' : Nat} {a a' : List PinEvent} (h : Ran s t m n i a) (hm : m = m')
    (hn : n = n') (hi : i = i') (ha : a = a') : Ran s t m' n' i' a' := by
  subst hm hn hi ha; exact h

/-- One straight action. -/
theorem ran_does {a : Act} (h : a.straight = true) (s : State) :
    Ran s (s.does a) a.smps a.micros (a.mins s.cfg) (a.shows s.cfg (s.answer 0)) := by
  have hf := does_frame h s
  have host : HostSideKept s (s.does a) := perform_hostSide s _
  have base : s.Later a.smps a.micros (s.does a) ∧ (s.does a).now = s.now + a.mins s.cfg + s.elapsed a.micros ∧
      seen (s.does a).trace = seen s.trace ++ a.shows s.cfg (s.answer 0) := by
    cases a with
    | check v =>
      cases v with
      | none => exact ⟨.refl s, by simp [Act.mins, Act.micros, State.elapsed], by simp [Act.shows]⟩
      | some => simp [Act.straight] at h
    | clk l =>
      have hl := State.later_emit s (.clk l) 0
      exact ⟨⟨hl.answer, hl.excess⟩, by simp [Act.mins, Act.micros, State.elapsed_one],
        by simp [seen_append, Act.shows, seen_single]⟩
    | dat l =>
      have hl := State.later_emit s (.dat l) 0
      exact ⟨⟨hl.answer, hl.excess⟩, by simp [Act.mins, Act.micros, State.elapsed_one],
        by simp [seen_append, Act.shows, seen_single]⟩
    | dir l =>
      have hl := State.later_emit s (.dir l) 0
      exact ⟨⟨hl.answer, hl.excess⟩, by simp [Act.mins, Act.micros, State.elapsed_one],
        by simp [seen_append, Act.shows, seen_single]⟩
    | hold i =>
      exact ⟨State.later_emit _ _ _, by simp [Act.mins, Act.micros, State.elapsed_one, Nat.add_assoc],
        by simp [seen_append, Act.shows, seen_single]⟩
    | smp =>
      have hl := State.later_smp s
      exact ⟨⟨hl.answer, hl.excess⟩, by simp [Act.mins, Act.micros, State.elapsed_one],
        by simp [seen_append, Act.shows, seen_single, State.line_eq_answer]⟩
    | setDeadline =>
      have hl := State.later_emit s .time 0
      exact ⟨⟨hl.answer, hl.excess⟩, by simp [Act.mins, Act.micros, State.elapsed_one],
        by simp [seen_append, Act.shows]⟩
    | _ =>
      first
        | (simp [Act.straight] at h; done)
        | exact ⟨State.later_of_env rfl rfl, by simp [Act.mins, Act.micros, State.elapsed],
            by simp [seen_append, Act.shows, seen_single]⟩
  exact
    { later := base.1
      now := base.2.1
      seen := base.2.2
      eng := hf.1
      status := hf.2.2.1
      responses := hf.2.2.2.1
      tmo := hf.2.2.2.2.1
      heldEng := hf.2.2.2.2.2.1
      owner := hf.2.2.2.2.2.2.1
      result := hf.2.2.2.2.2.2.2.1
      op := hf.2.2.2.2.2.2.2.2.1
      reg := hf.2.2.2.2.2.2.2.2.2.1
      data := hf.2.2.2.2.2.2.2.2.2.2.1
      host := host }

/-- A list of straight actions. -/
theorem ran_doAll {acts : List Act} (h : ∀ a ∈ acts, a.straight = true) (s : State) :
    Ran s (s.doAll acts) (smpsOf acts) (microsOf acts) (minsOf s.cfg acts) (showsOf s.cfg s.answer acts) := by
  induction acts generalizing s with
  | nil => exact .refl s
  | cons a acts ih =>
    have h1 := ran_does (h a (by simp)) s
    have h2 := ih (fun b hb => h b (by simp [hb])) (s.does a)
    rw [h1.cfg] at h2
    refine (h1.trans h2).cast (by simp) (by simp) (by simp) ?_
    simp [showsOf_cons, funext h1.later.answer]

/-- The pins after a straight action. -/
theorem does_pins {a : Act} (h : a.straight = true) (s : State) : (s.does a).pins = a.drives s.pins := by
  cases a with
  | check v => cases v <;> simp_all [Act.straight, Act.drives]
  | _ => first | (simp [Act.straight] at h; done) | simp [Act.drives]

/-- The pins after a list of straight actions. -/
theorem doAll_pins {acts : List Act} (h : ∀ a ∈ acts, a.straight = true) (s : State) :
    (s.doAll acts).pins = drivesOf s.pins acts := by
  induction acts generalizing s with
  | nil => rfl
  | cons a acts ih =>
    rw [State.doAll_cons, ih (fun b hb => h b (by simp [hb])), does_pins (h a (by simp)), drivesOf_cons]

end Sys2Proof.Machine
end

