-- ==== Sys2Proof/Laws/Cells.lean ====
section
/-! SUPPORT. The cells and words of a frame as lists of actions: what they draw, take, show and drive, and what they
leave in the datapath (40_bit_transport.md R130 to R133, 42_frame_codec.md R161, R162). -/

namespace Sys2Proof.Machine

/-! ### From items to actions -/

@[simp] theorem actsOf_cellAt (p : Phase) (i : Nat) (acts : List Act) : actsOf (cellAt p i acts) = acts := by
  simp only [actsOf, cellAt, List.map_map]
  exact List.zipIdx_map_fst 0 acts

theorem actsOf_cells (p : Phase) (cells : List (List Act)) (k : Nat) :
    actsOf ((cells.zipIdx k).flatMap fun c => cellAt p c.2 c.1) = cells.flatten := by
  induction cells generalizing k with
  | nil => rfl
  | cons c cells ih => simp [ih]

@[simp] theorem actsOf_phaseOf (p : Phase) (cells : List (List Act)) :
    actsOf (phaseOf p cells) = .startPhase :: cells.flatten := by
  simp [phaseOf, actsOf_cells]

@[simp] theorem actsOf_readWord (p : Phase) (n : Nat) :
    actsOf (readWord p n) = .clearShift :: .startPhase :: (List.replicate n readWordCell).flatten := by
  simp [readWord]

@[simp] theorem actsOf_writeWord (c : ConfigRegs) (p : Phase) (v : Byte) (n : Nat) :
    actsOf (writeWord c p v n) = .startPhase :: ((bitsMsbFirst v n).map (writeCell c)).flatten := by
  simp [writeWord]

@[simp] theorem actsOf_pulses (p : Phase) (n : Nat) :
    actsOf (pulses p n) = .startPhase :: (List.replicate n pulseCell).flatten := by
  simp [pulses]

/-- An item is straight when its action is. -/
theorem straight_of_actsOf {items : List Item} (h : ∀ a ∈ actsOf items, a.straight = true) :
    ∀ it ∈ items, it.act.straight = true := fun _ hi => h _ (List.mem_map_of_mem hi)

/-! ### Straightness -/

/-- Every action of the list is straight. -/
abbrev allStraight (acts : List Act) : Prop := ∀ a ∈ acts, a.straight = true

theorem allStraight_nil : allStraight [] := by simp [allStraight]

theorem allStraight_cons {a : Act} {l : List Act} (h : a.straight = true) (g : allStraight l) :
    allStraight (a :: l) := by
  intro b hb
  rcases List.mem_cons.mp hb with rfl | hb
  · exact h
  · exact g b hb

theorem allStraight_append {a b : List Act} (h : allStraight a) (g : allStraight b) : allStraight (a ++ b) := by
  intro x hx
  rcases List.mem_append.mp hx with hx | hx
  · exact h x hx
  · exact g x hx

theorem allStraight_flatten {ls : List (List Act)} (h : ∀ l ∈ ls, allStraight l) : allStraight ls.flatten := by
  intro x hx
  obtain ⟨l, hl, hx⟩ := List.mem_flatten.mp hx
  exact h l hl x hx

theorem straight_readWordCell : allStraight readWordCell := by decide

theorem straight_pulseCell : allStraight pulseCell := by decide

theorem straight_readBit : allStraight readBitActs := by decide

theorem straight_dir (c : ConfigRegs) (d : Dir) : allStraight (dirActs c d) := by
  unfold dirActs; split <;> simp [allStraight, Act.straight]

theorem straight_writeCell (c : ConfigRegs) (b : Level) : allStraight (writeCell c b) :=
  allStraight_append
    (allStraight_append (allStraight_append (straight_dir c _) (by simp [allStraight, Act.straight]))
      (straight_dir c _))
    (by simp [allStraight, Act.straight])

theorem straight_readWord (p : Phase) (n : Nat) : allStraight (actsOf (readWord p n)) := by
  rw [actsOf_readWord]
  refine allStraight_cons rfl (allStraight_cons rfl (allStraight_flatten fun l hl => ?_))
  rw [List.eq_of_mem_replicate hl]
  exact straight_readWordCell

theorem straight_pulses (p : Phase) (n : Nat) : allStraight (actsOf (pulses p n)) := by
  rw [actsOf_pulses]
  refine allStraight_cons rfl (allStraight_flatten fun l hl => ?_)
  rw [List.eq_of_mem_replicate hl]
  exact straight_pulseCell

theorem straight_writeWord (c : ConfigRegs) (p : Phase) (v : Byte) (n : Nat) :
    allStraight (actsOf (writeWord c p v n)) := by
  rw [actsOf_writeWord]
  refine allStraight_cons rfl (allStraight_flatten fun l hl => ?_)
  obtain ⟨b, _, rfl⟩ := List.mem_map.mp hl
  exact straight_writeCell c b

/-! ### Read cells -/

theorem showsOf_readWordCell (c : ConfigRegs) (ans : Nat → Level) :
    showsOf c ans readWordCell = readSeen c (ans 0) := rfl

/-- Samples, micro-events, time and events of `n` read cells. -/
theorem readCells_measures (c : ConfigRegs) (ans : Nat → Level) (n : Nat) :
    smpsOf (List.replicate n readWordCell).flatten = n ∧ microsOf (List.replicate n readWordCell).flatten = 5 * n ∧
      minsOf c (List.replicate n readWordCell).flatten = n * (c.tHigh.toNat + c.tLow.toNat) ∧
      showsOf c ans (List.replicate n readWordCell).flatten =
        (List.range n).flatMap fun i => readSeen c (ans i) := by
  induction n generalizing ans with
  | zero => simp
  | succ n ih =>
    obtain ⟨h1, h2, h3, h4⟩ := ih (fun k => ans (1 + k))
    have e1 : smpsOf readWordCell = 1 := rfl
    have e2 : microsOf readWordCell = 5 := rfl
    have e3 : minsOf c readWordCell = c.tHigh.toNat + c.tLow.toNat := by
      simp [readWordCell, readBitActs, Act.mins, ConfigRegs.interval]
    simp only [List.replicate_succ, List.flatten_cons, smpsOf_append, microsOf_append, minsOf_append, showsOf_append,
      h1, h2, h3, h4, e1, e2, e3, showsOf_readWordCell]
    refine ⟨by omega, by omega, by ring, ?_⟩
    rw [List.range_succ_eq_map, List.flatMap_cons, List.flatMap_map]
    simp [Nat.add_comm]

/-- The pins after `n` read cells or pulse cells: the clock is low again. -/
theorem drivesOf_readCells (p : Pins) (n : Nat) :
    drivesOf p (List.replicate n readWordCell).flatten = { p with clkO := if n = 0 then p.clkO else false } := by
  induction n generalizing p with
  | zero => simp
  | succ n ih =>
    simp only [List.replicate_succ, List.flatten_cons, drivesOf_append, ih]
    cases n <;> simp [readWordCell, readBitActs, Act.drives]

/-- `SHIFT` after one read cell of `ReadWord`. -/
theorem readWordCell_shift (s : State) :
    (s.doAll readWordCell).regs.shift = shiftBit s.regs.shift (s.answer 0) := by
  simp [readWordCell, readBitActs, State.line_eq_answer]
  rfl

/-- `shiftBit`, bit by bit. -/
theorem shiftBit_getLsbD (v : BitVec 24) (b : Level) (i : Nat) :
    (shiftBit v b).getLsbD i = (decide (i < 24) && if i = 0 then b else v.getLsbD (i - 1)) := by
  simp only [shiftBit, BitVec.getLsbD_or, BitVec.getLsbD_shiftLeft, BitVec.getLsbD_setWidth, BitVec.getLsbD_ofBool]
  rcases i with _ | i
  · simp
  · by_cases h : i + 1 < 24 <;> simp [h]

/-- `SHIFT` after `n` read cells: the first bit sampled stands highest (42_frame_codec.md R161). -/
theorem readCells_shift (n : Nat) (s : State) (i : Nat) :
    (s.doAll (List.replicate n readWordCell).flatten).regs.shift.getLsbD i =
      (decide (i < 24) && if i < n then s.answer (n - 1 - i) else s.regs.shift.getLsbD (i - n)) := by
  induction n generalizing s with
  | zero =>
    by_cases h : i < 24
    · simp [h]
    · simp [h, BitVec.getLsbD_of_ge _ _ (Nat.le_of_not_lt h)]
  | succ n ih =>
    have hl := (ran_doAll straight_readWordCell s).later
    have e1 : smpsOf readWordCell = 1 := rfl
    rw [e1] at hl
    simp only [List.replicate_succ, List.flatten_cons, State.doAll_append, ih, hl.answer, readWordCell_shift,
      shiftBit_getLsbD]
    by_cases h24 : i < 24
    · by_cases hn : i < n
      · have h2 : i < n + 1 := by omega
        have h3 : 1 + (n - 1 - i) = n + 1 - 1 - i := by omega
        simp [h24, hn, h2, h3]
      · by_cases he : i = n
        · subst he; simp [h24]
        · have h2 : ¬ i < n + 1 := by omega
          have h3 : ¬ i - n = 0 := by omega
          have h4 : i - n < 24 := by omega
          have h5 : i - n - 1 = i - (n + 1) := by omega
          simp [h24, hn, h2, h3, h4, h5]
    · simp [h24]

/-- What a list of actions leaves in the datapath when it has no action on it. -/
def Act.sparesDatapath : Act → Bool
  | .clearShift | .shiftIn | .latchSample | .clearRecn | .bumpRecn | .setDeadline => false
  | _ => true

/-- `SHIFT`, `RECN`, `DEADLINE` and the value `r` are kept by actions that are not on the datapath. -/
theorem doAll_datapath {acts : List Act} (h : allStraight acts) (g : ∀ a ∈ acts, a.sparesDatapath = true)
    (s : State) :
    (s.doAll acts).regs.shift = s.regs.shift ∧ (s.doAll acts).regs.recn = s.regs.recn ∧
      (s.doAll acts).regs.deadline = s.regs.deadline ∧ (s.doAll acts).latch.value = s.latch.value := by
  induction acts generalizing s with
  | nil => simp
  | cons a acts ih =>
    have h1 : (s.does a).regs.shift = s.regs.shift ∧ (s.does a).regs.recn = s.regs.recn ∧
        (s.does a).regs.deadline = s.regs.deadline ∧ (s.does a).latch.value = s.latch.value := by
      have ha := h a (by simp)
      have hg := g a (by simp)
      cases a with
      | check v => cases v <;> simp_all [Act.straight]
      | _ => first | (simp [Act.straight] at ha; done) | (simp [Act.sparesDatapath] at hg; done) | simp
    have h2 := ih (fun b hb => h b (by simp [hb])) (fun b hb => g b (by simp [hb])) (s.does a)
    exact ⟨h2.1.trans h1.1, h2.2.1.trans h1.2.1, h2.2.2.1.trans h1.2.2.1, h2.2.2.2.trans h1.2.2.2⟩

/-- Read cells leave `RECN`, `DEADLINE` and the value `r`. -/
theorem readWordCell_keeps (s : State) :
    (s.doAll readWordCell).regs.recn = s.regs.recn ∧ (s.doAll readWordCell).regs.deadline = s.regs.deadline ∧
      (s.doAll readWordCell).latch.value = s.latch.value := by
  simp [readWordCell, readBitActs]

theorem readCells_keeps (n : Nat) (s : State) :
    (s.doAll (List.replicate n readWordCell).flatten).regs.recn = s.regs.recn ∧
      (s.doAll (List.replicate n readWordCell).flatten).regs.deadline = s.regs.deadline ∧
      (s.doAll (List.replicate n readWordCell).flatten).latch.value = s.latch.value := by
  induction n generalizing s with
  | zero => simp
  | succ n ih =>
    simp only [List.replicate_succ, List.flatten_cons, State.doAll_append]
    obtain ⟨h1, h2, h3⟩ := ih (s.doAll readWordCell)
    obtain ⟨g1, g2, g3⟩ := readWordCell_keeps s
    exact ⟨h1.trans g1, h2.trans g2, h3.trans g3⟩

/-! ### Pulse cells -/

theorem pulseCells_measures (c : ConfigRegs) (ans : Nat → Level) (n : Nat) :
    smpsOf (List.replicate n pulseCell).flatten = 0 ∧ microsOf (List.replicate n pulseCell).flatten = 4 * n ∧
      minsOf c (List.replicate n pulseCell).flatten = n * (c.tHigh.toNat + c.tLow.toNat) ∧
      showsOf c ans (List.replicate n pulseCell).flatten = pulsesSeen c n := by
  induction n generalizing ans with
  | zero => simp [pulsesSeen]
  | succ n ih =>
    obtain ⟨h1, h2, h3, h4⟩ := ih ans
    have e1 : smpsOf pulseCell = 0 := rfl
    have e2 : microsOf pulseCell = 4 := rfl
    have e3 : minsOf c pulseCell = c.tHigh.toNat + c.tLow.toNat := by
      simp [pulseCell, pulseActs, Act.mins, ConfigRegs.interval]
    have e4 : showsOf c ans pulseCell = pulseSeen c := rfl
    simp only [List.replicate_succ, List.flatten_cons, smpsOf_append, microsOf_append, minsOf_append, showsOf_append,
      h1, h2, h3, e1, e2, e3, e4, Nat.zero_add]
    exact ⟨trivial, by omega, by ring, by rw [h4]; simp [pulsesSeen, List.replicate_succ]⟩

theorem drivesOf_pulseCells (p : Pins) (n : Nat) :
    drivesOf p (List.replicate n pulseCell).flatten = { p with clkO := if n = 0 then p.clkO else false } := by
  induction n generalizing p with
  | zero => simp
  | succ n ih =>
    simp only [List.replicate_succ, List.flatten_cons, drivesOf_append, ih]
    cases n <;> simp [pulseCell, pulseActs, Act.drives]

theorem sparesDatapath_pulses (p : Phase) (n : Nat) : ∀ a ∈ actsOf (pulses p n), a.sparesDatapath = true := by
  rw [actsOf_pulses]
  intro a ha
  rcases List.mem_cons.mp ha with rfl | ha
  · rfl
  · obtain ⟨l, hl, ha⟩ := List.mem_flatten.mp ha
    rw [List.eq_of_mem_replicate hl] at ha
    have all : ∀ a ∈ pulseCell, a.sparesDatapath = true := by decide
    exact all a ha

/-! ### Write cells -/

/-- The micro-events of a write cell: five, and two directions in shared wiring. -/
def writeMicros (c : ConfigRegs) : Nat := if c.sharedPin then 7 else 5

theorem writeCell_measures (c : ConfigRegs) (ans : Nat → Level) (b : Level) :
    smpsOf (writeCell c b) = 0 ∧ microsOf (writeCell c b) = writeMicros c ∧
      minsOf c (writeCell c b) = c.tHigh.toNat + c.tLow.toNat ∧ showsOf c ans (writeCell c b) = writeSeen c b := by
  cases h : c.sharedPin <;>
    simp [writeCell, writeBitActs, dirActs, h, Act.smps, Act.micros, Act.mins, writeMicros, ConfigRegs.interval,
      showsOf, Act.shows, writeSeen, dirSeen, dinLevel]

theorem writeCells_measures (c : ConfigRegs) (ans : Nat → Level) (bits : List Level) :
    smpsOf ((bits.map (writeCell c)).flatten) = 0 ∧
      microsOf ((bits.map (writeCell c)).flatten) = bits.length * writeMicros c ∧
      minsOf c ((bits.map (writeCell c)).flatten) = bits.length * (c.tHigh.toNat + c.tLow.toNat) ∧
      showsOf c ans ((bits.map (writeCell c)).flatten) = bits.flatMap (writeSeen c) := by
  induction bits generalizing ans with
  | nil => simp
  | cons b bits ih =>
    obtain ⟨h1, h2, h3, h4⟩ := ih ans
    obtain ⟨e1, e2, e3, e4⟩ := writeCell_measures c ans b
    simp only [List.map_cons, List.flatten_cons, smpsOf_append, microsOf_append, minsOf_append, showsOf_append, h1,
      h2, h3, e1, e2, e3, e4, Nat.zero_add, List.length_cons]
    exact ⟨trivial, by ring, by ring, by rw [h4]; simp⟩

/-- The pins after a write cell: the clock low, the level driven kept, a shared pin an input again
(40_bit_transport.md R131). -/
theorem drivesOf_writeCell (c : ConfigRegs) (b : Level) (p : Pins) :
    drivesOf p (writeCell c b) =
      ⟨false, b ^^ c.dinInvert, if c.sharedPin then .input else p.dataDir, p.drive⟩ := by
  cases h : c.sharedPin <;> simp [writeCell, writeBitActs, dirActs, h, Act.drives, dinLevel]

/-- The pins after write cells: those after the last one. -/
theorem drivesOf_writeCells (c : ConfigRegs) (bits : List Level) (b : Level) (p : Pins) :
    drivesOf p (((bits ++ [b]).map (writeCell c)).flatten) =
      ⟨false, b ^^ c.dinInvert, if c.sharedPin then .input else p.dataDir, p.drive⟩ := by
  induction bits generalizing p with
  | nil => simp [drivesOf_writeCell]
  | cons x bits ih =>
    simp only [List.cons_append, List.map_cons, List.flatten_cons, drivesOf_append, drivesOf_writeCell, ih]
    cases c.sharedPin <;> simp

theorem sparesDatapath_writeCell (c : ConfigRegs) (b : Level) : ∀ a ∈ writeCell c b, a.sparesDatapath = true := by
  intro a ha
  cases h : c.sharedPin <;> simp [writeCell, writeBitActs, dirActs, h] at ha <;>
    rcases ha with rfl | rfl | rfl | rfl | rfl | rfl | rfl | ha <;> first | rfl | skip
  rcases ha with rfl
  rfl

theorem sparesDatapath_writeWord (c : ConfigRegs) (p : Phase) (v : Byte) (n : Nat) :
    ∀ a ∈ actsOf (writeWord c p v n), a.sparesDatapath = true := by
  rw [actsOf_writeWord]
  intro a ha
  rcases List.mem_cons.mp ha with rfl | ha
  · rfl
  · obtain ⟨l, hl, ha⟩ := List.mem_flatten.mp ha
    obtain ⟨b, _, rfl⟩ := List.mem_map.mp hl
    exact sparesDatapath_writeCell c b a ha

/-- The bits of a word, most significant first, end with bit 0. -/
theorem bitsMsbFirst_succ (v : Byte) (n : Nat) :
    bitsMsbFirst v (n + 1) = (List.range n).map (fun k => v.getLsbD (n - k)) ++ [v.getLsbD 0] := by
  simp [bitsMsbFirst, List.range_succ]

@[simp] theorem bitsMsbFirst_length (v : Byte) (n : Nat) : (bitsMsbFirst v n).length = n := by simp [bitsMsbFirst]

theorem writesSeen_eq (c : ConfigRegs) (v : Byte) (n : Nat) :
    (bitsMsbFirst v n).flatMap (writeSeen c) = writesSeen c v n := by
  simp [bitsMsbFirst, writesSeen, List.flatMap_map]

end Sys2Proof.Machine
end

