-- ==== Sys2Proof/Laws/ReadyGate.lean ====
section
/-! SUPPORT. The ready-wait in admitted timing (41_ready_gate.md R151, R154): how the sequencer gets through it, and
that it always ends. -/

namespace Sys2Proof.Machine

/-! ### One turn of the loop -/

/-- A turn that found the line high before the deadline: the sample, the deadline test and the sleep. -/
def State.turn (s : State) : State := s.smp.time.hold .poll

/-- `k` turns. -/
def State.turns : Nat → State → State
  | 0, s => s
  | k + 1, s => State.turns k s.turn

/-- What a single micro-event adds. -/
theorem ran_emit (s : State) (p : PinEvent) (min : Nat) (h : p ≠ .time) : Ran s (s.emit p min) 0 1 min [p] where
  later := State.later_emit s p min
  now := by simp [State.elapsed_one, Nat.add_assoc]
  seen := by simp [seen_append, seen_single h]
  eng := rfl
  status := rfl
  responses := rfl
  tmo := rfl
  heldEng := rfl
  owner := rfl
  result := rfl
  op := rfl
  reg := rfl
  data := rfl
  host := ⟨rfl, rfl, rfl, rfl, rfl⟩

theorem ran_time (s : State) : Ran s s.time 0 1 0 [] where
  later := State.later_emit s .time 0
  now := by simp [State.elapsed_one]
  seen := by simp [seen_append]
  eng := rfl
  status := rfl
  responses := rfl
  tmo := rfl
  heldEng := rfl
  owner := rfl
  result := rfl
  op := rfl
  reg := rfl
  data := rfl
  host := ⟨rfl, rfl, rfl, rfl, rfl⟩

theorem ran_smp (s : State) : Ran s s.smp 1 1 0 [.smp (s.answer 0)] where
  later := State.later_smp s
  now := by simp [State.elapsed_one]
  seen := by simp [seen_append, seen_single, State.line_eq_answer]
  eng := rfl
  status := rfl
  responses := rfl
  tmo := rfl
  heldEng := rfl
  owner := rfl
  result := rfl
  op := rfl
  reg := rfl
  data := rfl
  host := ⟨rfl, rfl, rfl, rfl, rfl⟩

theorem ran_hold (s : State) (i : Interval) :
    Ran s (s.hold i) 0 1 (s.cfg.interval i) [.hold (s.cfg.interval i)] := ran_emit s _ _ (by simp)

theorem ran_turn (s : State) :
    Ran s s.turn 1 3 s.cfg.tPoll.toNat [.smp (s.answer 0), .hold s.cfg.tPoll.toNat] :=
  (((ran_smp s).trans (ran_time s.smp)).trans (ran_hold s.smp.time .poll)).cast (by simp) (by simp)
    (by simp [ConfigRegs.interval]) (by simp [ConfigRegs.interval])

/-- What the turns leave alone besides. -/
theorem turns_keep (k : Nat) (s : State) : (s.turns k).pins = s.pins ∧ (s.turns k).regs = s.regs ∧
    (s.turns k).latch = s.latch := by
  induction k generalizing s with
  | zero => exact ⟨rfl, rfl, rfl⟩
  | succ k ih => exact ih s.turn

/-- `k` turns that find the line high. -/
theorem ran_turns (k : Nat) (s : State) (h : ∀ j, j < k → s.answer j = true) :
    Ran s (s.turns k) k (3 * k) (k * s.cfg.tPoll.toNat)
      (List.replicate k [PinEvent.smp true, .hold s.cfg.tPoll.toNat]).flatten := by
  induction k generalizing s with
  | zero => exact (Ran.refl s).cast rfl rfl (by simp) (by simp)
  | succ k ih =>
    have h1 := ran_turn s
    have h2 := ih s.turn (fun j hj => by rw [h1.later.answer]; exact h _ (by omega))
    rw [h1.cfg] at h2
    refine (h1.trans h2).cast (by omega) (by omega) (by ring) ?_
    rw [h 0 (by omega)]
    simp [List.replicate_succ]

/-! ### The sequencer in the loop -/

/-- A high sample before the deadline: three items later the sequencer stands at the poll again. -/
theorem runItems_turn {s : State} (hq : s.hostIn = []) (q : Seq) (rest : List Item) (hline : s.line = true)
    (hdl : ¬ s.regs.deadline ≤ s.smp.now) (n : Nat) :
    runItems (n + 3) { s with todo := ⟨q, .poll⟩ :: rest }
      = runItems n { s.turn with todo := ⟨q, .poll⟩ :: rest } := by
  have e1 : ({ s with todo := rest } : State).perform ⟨q, .poll⟩
      = { s.smp with todo := ⟨q.succ, .expire⟩ :: rest } := by
    show State.poll _ _ = _
    rw [State.poll, if_pos (show ({ s with todo := rest } : State).line = true from hline)]
    rfl
  have e2 : ({ s.smp with todo := rest } : State).perform ⟨q.succ, .expire⟩
      = { s.smp.time with todo := ⟨q.succ.succ, .hold .poll⟩ :: ⟨q, .poll⟩ :: rest } := by
    show State.expire _ _ = _
    rw [State.expire, if_neg (by simpa using hdl)]
    rfl
  rw [show n + 3 = (n + 2) + 1 from rfl, runItems_item (s := { s with todo := ⟨q, .poll⟩ :: rest }) hq rfl]
  rw [show ({ ({ s with todo := ⟨q, .poll⟩ :: rest } : State) with todo := rest } : State)
    = { s with todo := rest } from rfl, e1]
  rw [show n + 2 = (n + 1) + 1 from rfl,
    runItems_item (s := { s.smp with todo := ⟨q.succ, .expire⟩ :: rest }) (by simpa using hq) rfl]
  rw [show ({ ({ s.smp with todo := ⟨q.succ, .expire⟩ :: rest } : State) with todo := rest } : State)
    = { s.smp with todo := rest } from rfl, e2]
  rw [runItems_item (s := { s.smp.time with todo := ⟨q.succ.succ, .hold .poll⟩ :: ⟨q, .poll⟩ :: rest })
    (by simpa using hq) rfl]
  rfl

/-- `k` turns of the loop. -/
theorem runItems_turns (k : Nat) {s : State} (hq : s.hostIn = []) (q : Seq) (rest : List Item)
    (h : ∀ j, j < k → s.answer j = true ∧
      s.now + s.elapsed (1 + 3 * j) + j * s.cfg.tPoll.toNat < s.regs.deadline) (n : Nat) :
    runItems (n + 3 * k) { s with todo := ⟨q, .poll⟩ :: rest }
      = runItems n { s.turns k with todo := ⟨q, .poll⟩ :: rest } := by
  induction k generalizing s with
  | zero => rfl
  | succ k ih =>
    have h0 := h 0 (by omega)
    have hr := ran_turn s
    have hn : ¬ s.regs.deadline ≤ s.smp.now := by
      have := h0.2
      rw [State.smp_now, State.slack_eq_excess]
      simp [State.elapsed] at this
      omega
    rw [show n + 3 * (k + 1) = (n + 3 * k) + 3 by omega,
      runItems_turn hq q rest (by rw [State.line_eq_answer]; exact h0.1) hn]
    refine ih (s := s.turn) (by simpa [State.turn] using hq) fun j hj => ⟨?_, ?_⟩
    · rw [hr.later.answer]; exact (h (1 + j) (by omega)).1
    · have h1 := (h (1 + j) (by omega)).2
      have h2 := hr.later.elapsed (1 + 3 * j)
      have h3 : 1 + 3 * (1 + j) = 3 + (1 + 3 * j) := by omega
      have h4 : s.turn.regs = s.regs := rfl
      rw [h3, ← h2, Nat.add_mul, Nat.one_mul] at h1
      rw [hr.now, hr.cfg, h4]
      omega

/-- A low sample ends the wait. -/
theorem runItems_low {s : State} (hq : s.hostIn = []) (q : Seq) (rest : List Item) (hline : s.line = false)
    (n : Nat) :
    runItems (n + 1) { s with todo := ⟨q, .poll⟩ :: rest } = runItems n { s.smp with todo := rest } := by
  rw [runItems_item (s := { s with todo := ⟨q, .poll⟩ :: rest }) hq rfl]
  congr 1
  show State.poll _ _ = _
  rw [State.poll, if_neg (by simpa [State.line] using hline)]
  rfl

/-- A high sample at or after the deadline ends the operation with `Timeout`. -/
theorem runItems_expired {s : State} (hq : s.hostIn = []) (q : Seq) (rest : List Item) (hline : s.line = true)
    (hdl : s.regs.deadline ≤ s.smp.now) (n : Nat) :
    runItems (n + 2) { s with todo := ⟨q, .poll⟩ :: rest } = s.smp.time.fail .timeout := by
  have e1 : ({ s with todo := rest } : State).perform ⟨q, .poll⟩
      = { s.smp with todo := ⟨q.succ, .expire⟩ :: rest } := by
    show State.poll _ _ = _
    rw [State.poll, if_pos (show ({ s with todo := rest } : State).line = true from hline)]
    rfl
  have e2 : ({ s.smp with todo := rest } : State).perform ⟨q.succ, .expire⟩ = s.smp.time.fail .timeout := by
    show State.expire _ _ = _
    rw [State.expire, if_pos (by simpa using hdl)]
    rfl
  rw [show n + 2 = (n + 1) + 1 from rfl, runItems_item (s := { s with todo := ⟨q, .poll⟩ :: rest }) hq rfl]
  rw [show ({ ({ s with todo := ⟨q, .poll⟩ :: rest } : State) with todo := rest } : State)
    = { s with todo := rest } from rfl, e1]
  rw [runItems_item (s := { s.smp with todo := ⟨q.succ, .expire⟩ :: rest }) (by simpa using hq) rfl]
  rw [show ({ ({ s.smp with todo := ⟨q.succ, .expire⟩ :: rest } : State) with todo := rest } : State)
    = { s.smp with todo := rest } from rfl, e2]
  exact runItems_paused (paused_of_done (by simp)) n

/-! ### The whole wait -/

/-- The actions before the loop. -/
def waitHead (c : ConfigRegs) : List Act := .startPhase :: (dirActs c .input ++ [.setDeadline])

/-- The items of the wait are its head and the first poll. -/
theorem waitReady_split (c : ConfigRegs) :
    ∃ (pre : List Item) (q : Seq), waitReady c = pre ++ [⟨q, .poll⟩] ∧ actsOf pre = waitHead c ∧
      pre.length = (if c.sharedPin then 1 else 0) + 2 := by
  cases h : c.sharedPin
  · exact ⟨[⟨⟨.wait, 0, 0⟩, .startPhase⟩, ⟨⟨.wait, 0, 0⟩, .setDeadline⟩], ⟨.wait, 0, 1⟩, by
      simp [waitReady, cellAt, dirActs, h], by simp [waitHead, dirActs, h], by simp⟩
  · exact ⟨[⟨⟨.wait, 0, 0⟩, .startPhase⟩, ⟨⟨.wait, 0, 0⟩, .dir .input⟩, ⟨⟨.wait, 0, 1⟩, .setDeadline⟩],
      ⟨.wait, 0, 2⟩, by simp [waitReady, cellAt, dirActs, h], by simp [waitHead, dirActs, h], by simp⟩

theorem straight_waitHead (c : ConfigRegs) : allStraight (waitHead c) :=
  allStraight_cons rfl (allStraight_append (straight_dir c _) (by decide))

/-- The pins once a ready-wait has begun: a shared pin is an input. -/
def waitPins (c : ConfigRegs) (p : Pins) : Pins :=
  { p with dataDir := if c.sharedPin then .input else p.dataDir }

/-- The state at the first poll. -/
theorem waitHead_run (s : State) :
    Ran s (s.doAll (waitHead s.cfg)) 0 (s.waitBase + 1) 0 (dirSeen s.cfg .input) ∧
      (s.doAll (waitHead s.cfg)).pins = waitPins s.cfg s.pins ∧
      (s.doAll (waitHead s.cfg)).regs.shift = s.regs.shift ∧ (s.doAll (waitHead s.cfg)).regs.recn = s.regs.recn ∧
      (s.doAll (waitHead s.cfg)).regs.deadline = s.now + s.elapsed s.waitBase + s.latch.tmo.toNat ∧
      (s.doAll (waitHead s.cfg)).latch = s.latch := by
  refine ⟨(ran_doAll (straight_waitHead s.cfg) s).cast ?_ ?_ ?_ ?_, ?_⟩
  · cases h : s.cfg.sharedPin <;> simp [waitHead, dirActs, h, Act.smps]
  · cases h : s.cfg.sharedPin <;> simp [waitHead, dirActs, h, Act.micros, State.waitBase]
  · cases h : s.cfg.sharedPin <;> simp [waitHead, dirActs, h, Act.mins]
  · cases h : s.cfg.sharedPin <;> simp [waitHead, dirActs, h, showsOf, Act.shows, dirSeen]
  · cases h : s.cfg.sharedPin <;>
      simp [waitHead, dirActs, h, waitPins, State.waitBase, State.elapsed, State.slack, State.excess,
        Source.peek_eq_nth]

/-- What the wait leaves when it ends with `Ok` at the sample numbered `k`. -/
structure Waited (s u : State) (k : Nat) : Prop where
  ran : Ran s u (k + 1) (s.waitBase + 1 + 3 * k + 1) (k * s.cfg.tPoll.toNat) (pollSeen s.cfg k ++ [.smp false])
  pins : u.pins = waitPins s.cfg s.pins
  shift : u.regs.shift = s.regs.shift
  recn : u.regs.recn = s.regs.recn
  value : u.latch.value = s.latch.value

/-- The deadline tests of the coming wait, seen from its first poll. -/
theorem stillWaiting_at_poll {s : State} {k : Nat} (ht : s.latch.tmo = s.cfg.timeout) (h : s.stillWaiting k) :
    ∀ j, j < k → (s.doAll (waitHead s.cfg)).answer j = true ∧
      (s.doAll (waitHead s.cfg)).now + (s.doAll (waitHead s.cfg)).elapsed (1 + 3 * j)
        + j * (s.doAll (waitHead s.cfg)).cfg.tPoll.toNat < (s.doAll (waitHead s.cfg)).regs.deadline := by
  obtain ⟨hr, -, -, -, hd, -⟩ := waitHead_run s
  intro j hj
  obtain ⟨h1, h2⟩ := h j hj
  refine ⟨by rw [hr.later.answer, Nat.zero_add]; exact h1, ?_⟩
  have he := hr.later.elapsed (1 + 3 * j)
  rw [hr.now, hr.cfg, hd, ht]
  unfold State.testTime State.waitDeadline at h2
  rw [show s.waitBase + 2 + 3 * j = s.waitBase + 1 + (1 + 3 * j) by omega] at h2
  omega

/-- The ready-wait that ends with `Ok` at the sample numbered `k` (41_ready_gate.md R151). -/
theorem wait_ok {s : State} {k : Nat} (hq : s.hostIn = []) (ht : s.latch.tmo = s.cfg.timeout) (h : s.readyAt k) :
    ∃ u, Waited s u k ∧ ∀ (rest : List Item) (n : Nat),
      runItems (n + 3 * k + (s.waitBase + 3)) { s with todo := waitReady s.cfg ++ rest }
        = runItems n { u with todo := rest } := by
  obtain ⟨pre, q, hsplit, hacts, hlen⟩ := waitReady_split s.cfg
  obtain ⟨hr, hpins, hshift, hrecn, -, hlatch⟩ := waitHead_run s
  have hq1 : (s.doAll (waitHead s.cfg)).hostIn = [] := hr.hostIn.trans hq
  have hturns := stillWaiting_at_poll ht h.1
  have hrt := ran_turns k (s.doAll (waitHead s.cfg)) (fun j hj => (hturns j hj).1)
  obtain ⟨kp, kr, kl⟩ := turns_keep k (s.doAll (waitHead s.cfg))
  have hlow : ((s.doAll (waitHead s.cfg)).turns k).answer 0 = false := by
    rw [hrt.later.answer, hr.later.answer]; simpa using h.2
  have hq2 : ((s.doAll (waitHead s.cfg)).turns k).hostIn = [] := hrt.hostIn.trans hq1
  refine ⟨((s.doAll (waitHead s.cfg)).turns k).smp, ⟨?_, ?_, ?_, ?_, ?_⟩, fun rest n => ?_⟩
  · refine ((hr.trans hrt).trans (ran_smp _)).cast (by omega) (by omega) (by rw [hr.cfg]; omega) ?_
    rw [hlow, hr.cfg]
    simp [pollSeen]
  · rw [State.smp_pins, kp, hpins]
  · rw [State.smp_regs, kr, hshift]
  · rw [State.smp_regs, kr, hrecn]
  · rw [State.smp_latch, kl, hlatch]
  · have hb : pre.length = s.waitBase + 2 := by rw [hlen]; rfl
    rw [show n + 3 * k + (s.waitBase + 3) = pre.length + (n + 1 + 3 * k) by omega, hsplit, List.append_assoc,
      runItems_straight pre (straight_of_actsOf (by rw [hacts]; exact straight_waitHead s.cfg)) _ s hq, hacts]
    rw [List.singleton_append, runItems_turns k hq1 q rest hturns (n + 1),
      runItems_low hq2 q rest (by rw [State.line_eq_answer]; exact hlow)]

/-- The ready-wait that ends with `Timeout` at the sample numbered `k`: the operation is over
(41_ready_gate.md R151, 42_frame_codec.md R170). -/
theorem wait_timeout {s : State} {k : Nat} (hq : s.hostIn = []) (ht : s.latch.tmo = s.cfg.timeout)
    (h : s.expiresAt k) :
    ∃ u, Ran s u (k + 1) (s.waitBase + 1 + 3 * k + 2) (k * s.cfg.tPoll.toNat)
        (pollSeen s.cfg k ++ [.smp true]) ∧ u.pins = waitPins s.cfg s.pins ∧ u.regs.shift = s.regs.shift ∧
      u.regs.recn = s.regs.recn ∧ ∀ (rest : List Item) (n : Nat),
      runItems (n + 3 * k + (s.waitBase + 4)) { s with todo := waitReady s.cfg ++ rest } = u.fail .timeout := by
  obtain ⟨pre, q, hsplit, hacts, hlen⟩ := waitReady_split s.cfg
  obtain ⟨hr, hpins, hshift, hrecn, hdl, -⟩ := waitHead_run s
  have hq1 : (s.doAll (waitHead s.cfg)).hostIn = [] := hr.hostIn.trans hq
  have hturns := stillWaiting_at_poll ht h.1
  have hrt := ran_turns k (s.doAll (waitHead s.cfg)) (fun j hj => (hturns j hj).1)
  obtain ⟨kp, kr, -⟩ := turns_keep k (s.doAll (waitHead s.cfg))
  have hhigh : ((s.doAll (waitHead s.cfg)).turns k).answer 0 = true := by
    rw [hrt.later.answer, hr.later.answer]; simpa using h.2.1
  have hq2 : ((s.doAll (waitHead s.cfg)).turns k).hostIn = [] := hrt.hostIn.trans hq1
  have hexp : ((s.doAll (waitHead s.cfg)).turns k).regs.deadline
      ≤ ((s.doAll (waitHead s.cfg)).turns k).smp.now := by
    have h2 := h.2.2
    have e1 := (hr.trans hrt).later.elapsed 1
    rw [kr, hdl, State.smp_now, ← State.elapsed_one, hrt.now, hr.now, hr.cfg, ht]
    have e2 := hr.later.elapsed (3 * k)
    unfold State.testTime State.waitDeadline at h2
    rw [show s.waitBase + 2 + 3 * k = s.waitBase + 1 + 3 * k + 1 by omega] at h2
    omega
  refine ⟨((s.doAll (waitHead s.cfg)).turns k).smp.time, ?_, ?_, ?_, ?_, fun rest n => ?_⟩
  · refine (((hr.trans hrt).trans (ran_smp _)).trans (ran_time _)).cast (by omega) (by omega)
      (by rw [hr.cfg]; omega) ?_
    rw [hhigh, hr.cfg]
    simp [pollSeen]
  · rw [State.time_pins, State.smp_pins, kp, hpins]
  · rw [State.time_regs, State.smp_regs, kr, hshift]
  · rw [State.time_regs, State.smp_regs, kr, hrecn]
  · have hb : pre.length = s.waitBase + 2 := by rw [hlen]; rfl
    rw [show n + 3 * k + (s.waitBase + 4) = pre.length + (n + 2 + 3 * k) by omega, hsplit, List.append_assoc,
      runItems_straight pre (straight_of_actsOf (by rw [hacts]; exact straight_waitHead s.cfg)) _ s hq, hacts]
    rw [List.singleton_append, runItems_turns k hq1 q rest hturns (n + 2),
      runItems_expired hq2 q rest (by rw [State.line_eq_answer]; exact hhigh) hexp]

end Sys2Proof.Machine
end

