-- ==== Sys2Proof/Laws/Commands.lean ====
section
/-! SUPPORT. A command from its acceptance to its completion: what the shared operations `issue`, `fail`, `succeed` and the
recovery loop can do, and the state each body leaves (20_memory.md R75, 60_exceptions.md R252, R254). -/

namespace Sys2Proof.Machine

/-! ### Acceptance -/

/-- The state right after the acceptance of a word, with nothing to do. -/
def State.opened (s : State) (w : Word) : State := s.accept w none []

@[simp] theorem opened_eng (s : State) (w : Word) : (s.opened w).eng = .busy := rfl
@[simp] theorem opened_pins (s : State) (w : Word) : (s.opened w).pins = s.pins := rfl
@[simp] theorem opened_now (s : State) (w : Word) : (s.opened w).now = s.now := rfl
@[simp] theorem opened_cfg (s : State) (w : Word) : (s.opened w).cfg = s.cfg := rfl
@[simp] theorem opened_status (s : State) (w : Word) : (s.opened w).status = s.status := rfl
@[simp] theorem opened_env (s : State) (w : Word) : (s.opened w).env = s.env := rfl
@[simp] theorem opened_waiting (s : State) (w : Word) : (s.opened w).waiting = s.waiting := rfl
@[simp] theorem opened_requester (s : State) (w : Word) : (s.opened w).requester = s.requester := rfl
@[simp] theorem opened_hostIn (s : State) (w : Word) : (s.opened w).hostIn = s.hostIn := rfl
@[simp] theorem opened_trace (s : State) (w : Word) : (s.opened w).trace = s.trace := rfl
@[simp] theorem opened_responses (s : State) (w : Word) : (s.opened w).responses = s.responses := rfl
@[simp] theorem opened_reads (s : State) (w : Word) : (s.opened w).reads = s.reads := rfl
@[simp] theorem opened_regs_shift (s : State) (w : Word) : (s.opened w).regs.shift = s.regs.shift := rfl
@[simp] theorem opened_regs_result (s : State) (w : Word) : (s.opened w).regs.result = s.regs.result := rfl
@[simp] theorem opened_regs_bitcnt (s : State) (w : Word) : (s.opened w).regs.bitcnt = 0 := rfl
@[simp] theorem opened_regs_recn (s : State) (w : Word) : (s.opened w).regs.recn = s.regs.recn := rfl
@[simp] theorem opened_regs_deadline (s : State) (w : Word) : (s.opened w).regs.deadline = s.regs.deadline := rfl
@[simp] theorem opened_latch_bit (s : State) (w : Word) : (s.opened w).latch.bit = s.latch.bit := rfl
@[simp] theorem opened_latch_value (s : State) (w : Word) : (s.opened w).latch.value = s.latch.value := rfl
@[simp] theorem opened_regs_op (s : State) (w : Word) : (s.opened w).regs.op = opField w := rfl
@[simp] theorem opened_regs_reg (s : State) (w : Word) : (s.opened w).regs.reg = regField w := rfl
@[simp] theorem opened_regs_data (s : State) (w : Word) : (s.opened w).regs.data = dataField w := rfl
@[simp] theorem opened_latch_heldEng (s : State) (w : Word) : (s.opened w).latch.heldEng = s.eng := rfl
@[simp] theorem opened_latch_owner (s : State) (w : Word) : (s.opened w).latch.owner = s.requester := rfl
@[simp] theorem opened_tmo (s : State) (w : Word) : (s.opened w).latch.tmo = s.cfg.timeout := rfl

/-- Acceptance touches neither the environment, the time nor the configuration: the coming ready-wait is the same. -/
theorem opened_answer (s : State) (w : Word) (k : Nat) : (s.opened w).answer k = s.answer k := rfl

theorem opened_elapsed (s : State) (w : Word) (k : Nat) : (s.opened w).elapsed k = s.elapsed k :=
  State.elapsed_congr (s := s) (t := s.opened w) rfl k

theorem opened_testTime (s : State) (w : Word) (j : Nat) : (s.opened w).testTime j = s.testTime j := by
  simp only [State.testTime, opened_elapsed]; rfl

theorem opened_waitDeadline (s : State) (w : Word) : (s.opened w).waitDeadline = s.waitDeadline := by
  simp only [State.waitDeadline, opened_elapsed]; rfl

theorem opened_stillWaiting (s : State) (w : Word) (k : Nat) : (s.opened w).stillWaiting k ↔ s.stillWaiting k := by
  simp only [State.stillWaiting, opened_answer, opened_testTime, opened_waitDeadline]

theorem opened_readyAt (s : State) (w : Word) (k : Nat) : (s.opened w).readyAt k ↔ s.readyAt k := by
  simp only [State.readyAt, opened_answer, opened_stillWaiting]

theorem opened_expiresAt (s : State) (w : Word) (k : Nat) : (s.opened w).expiresAt k ↔ s.expiresAt k := by
  simp only [State.expiresAt, opened_answer, opened_stillWaiting, opened_testTime, opened_waitDeadline]

/-- A verdict of `PH_CHECK` ends the command at once (60_exceptions.md R252). -/
theorem issue_refused {s : State} (h : s.acceptsQuietly) (w : Word) (st : Status) (body : List Item) :
    s.issue w (some st) body = (s.opened w).fail st := by
  rw [State.issue, if_neg h.1, State.engineRun, show itemBound = (itemBound - 1) + 1 from rfl,
    runItems_item (s := s.accept w (some st) body) h.2 rfl]
  exact runItems_paused (paused_of_done (by rfl)) _

/-- Without one the sequencer goes on to the body. -/
theorem issue_passed {s : State} (h : s.acceptsQuietly) (w : Word) (body : List Item) :
    s.issue w none body = runItems (itemBound - 1) { s.opened w with todo := body } := by
  rw [State.issue, if_neg h.1, State.engineRun, show itemBound = (itemBound - 1) + 1 from rfl,
    runItems_item (s := s.accept w none body) h.2 rfl]
  rfl

/-! ### Completion -/

/-- How a command of word `w` that was accepted in `s` ended in `t`: with the status `st`, the value `v` and the
recovery count `n`, after `evs` were seen, `mins` ticks at least and `micros` micro-events. -/
structure Finished (s t : State) (w : Word) (st : Status) (v : Option Word) (n : BitVec 4) (evs : List PinEvent)
    (mins micros : Nat) : Prop where
  completed : Completed s t (opField w) st (v.getD 0) n
  host : HostSideKept s t
  operands : OperandsLatched t w
  result : t.regs.result = v.getD s.regs.result
  bitcnt : t.regs.bitcnt = 0
  seen : seen t.trace = seen s.trace ++ evs
  now : t.now = s.now + mins + s.elapsed micros

/-- Completion after a run of the operation's actions (60_exceptions.md R254). -/
theorem finished_complete {s u : State} {w : Word} {m n i : Nat} {evs : List PinEvent}
    (h : Ran (s.opened w) u m n i evs) (st : Status) (v : Option Word) (c : BitVec 4) (e : Eng) :
    Finished s (u.complete st v c e) w st v c evs i n where
  completed := ⟨by simp [h.op, h.tmo], by simp [h.owner, h.responses], rfl⟩
  host := h.host
  operands := ⟨h.op, h.reg, h.data⟩
  result := by
    have := h.result
    simp only [State.complete_regs, this]
    rfl
  bitcnt := rfl
  seen := h.seen
  now := by rw [State.complete_now, h.now, opened_elapsed]; rfl

/-- A straight body and its completion. -/
theorem runItems_straight_complete (items : List Item) (h : allStraight (actsOf items)) (q : Seq) (c : Completion)
    (s : State) (hq : s.hostIn = []) (n : Nat) :
    runItems (items.length + (n + 1)) { s with todo := items ++ [⟨q, .complete c⟩] }
      = (s.doAll (actsOf items)).succeed c := by
  rw [runItems_straight items (straight_of_actsOf h) _ s hq,
    runItems_item (s := { s.doAll (actsOf items) with todo := [⟨q, .complete c⟩] })
      ((ran_doAll h s).hostIn.trans hq) rfl]
  exact runItems_paused (paused_of_done (by rfl)) n

/-! ### The ready-wait ends soon enough -/

/-- The deadline tests come `T_POLL` apart at least (41_ready_gate.md R152 f). -/
theorem testTime_ge (s : State) (j : Nat) : s.now + s.elapsed s.waitBase + j * s.cfg.tPoll.toNat ≤ s.testTime j := by
  have mono : ∀ a b, s.elapsed a ≤ s.elapsed (a + b) := by
    intro a b
    induction b with
    | zero => simp
    | succ b ih => exact Nat.le_trans ih (Nat.le_add_right _ _)
  have := mono s.waitBase (2 + 3 * j)
  unfold State.testTime
  rw [show s.waitBase + 2 + 3 * j = s.waitBase + (2 + 3 * j) by omega]
  omega

/-- At most `TIMEOUT` turns find the deadline not reached. -/
theorem stillWaiting_le {s : State} {k : Nat} (hp : s.cfg.tPoll ≠ 0#32) (h : s.stillWaiting k) :
    k ≤ s.cfg.timeout.toNat := by
  rcases k with _ | k
  · simp
  · have h1 := (h k (by omega)).2
    have h2 := testTime_ge s k
    have h3 : 1 ≤ s.cfg.tPoll.toNat := by
      rcases Nat.eq_zero_or_pos s.cfg.tPoll.toNat with h | h
      · exact absurd (BitVec.eq_of_toNat_eq (by simpa using h)) hp
      · exact h
    have h4 : k ≤ k * s.cfg.tPoll.toNat := Nat.le_mul_of_pos_right k h3
    unfold State.waitDeadline at h1
    omega

/-- So a ready-wait takes far fewer items than the sequencer may perform. -/
theorem wait_items_le {s : State} {k : Nat} (hp : s.cfg.tPoll ≠ 0#32) (h : s.stillWaiting k) :
    3 * k + (s.waitBase + 4) + 10000 ≤ itemBound - 1 := by
  have h1 := stillWaiting_le hp h
  have h2 := s.cfg.timeout.isLt
  have h3 : s.waitBase ≤ 1 := by unfold State.waitBase; split <;> omega
  unfold itemBound
  omega

/-! ### The recovery loop (42_frame_codec.md R165) -/

/-- The actions of a turn that found the line low. -/
def recoverActs : List Act := pulseCell ++ [.bumpRecn]

theorem straight_recoverActs : allStraight recoverActs := by decide

/-- What a low turn does to the datapath and the pins. -/
theorem recoverActs_effect (s : State) :
    (s.doAll recoverActs).regs.recn = s.regs.recn + 1 ∧ (s.doAll recoverActs).regs.shift = s.regs.shift ∧
      (s.doAll recoverActs).latch.value = s.latch.value ∧
      (s.doAll recoverActs).pins = { s.pins with clkO := false } := by
  simp [recoverActs, pulseCell, pulseActs]

/-- What the recovery loop leaves: `r` pulses issued, and a high sample when fewer than `RECOVER_MAX`. -/
structure Recovered (s u : State) (r : Nat) (high : Bool) : Prop where
  ran : Ran s u (r + if high then 1 else 0) (5 * r + if high then 1 else 0)
    (r * (s.cfg.tHigh.toNat + s.cfg.tLow.toNat)) (recoverSeen s.cfg r ++ if high then [.smp true] else [])
  recn : u.regs.recn = s.regs.recn + BitVec.ofNat 4 r
  shift : u.regs.shift = s.regs.shift
  value : u.latch.value = s.latch.value
  pins : u.pins = { s.pins with clkO := if r = 0 then s.pins.clkO else false }

/-- The test with no pulse left. -/
theorem recover_spent {s : State} {q : Seq} (rest : List Item) (h : ¬ s.regs.recn < s.cfg.recoverMax) :
    ({ s with todo := rest } : State).perform ⟨q, .recover⟩ = { s with todo := rest } :=
  if_neg h

/-- A high sample ends the loop. -/
theorem recover_high {s : State} {q : Seq} (rest : List Item) (h : s.regs.recn < s.cfg.recoverMax)
    (hl : s.line = true) : ({ s with todo := rest } : State).perform ⟨q, .recover⟩ = { s.smp with todo := rest } := by
  show State.recover _ _ = _
  unfold State.recover
  exact (if_pos h).trans (if_pos hl)

/-- A low sample: a pulse, its count, and the next test. -/
theorem recover_low {s : State} {q : Seq} (rest : List Item) (h : s.regs.recn < s.cfg.recoverMax)
    (hl : s.line = false) : ({ s with todo := rest } : State).perform ⟨q, .recover⟩
      = { s.smp with todo := (cellAt q.phase q.cnt pulseCell).map (fun it : Item => (⟨it.seq.succ, it.act⟩ : Item))
          ++ [⟨⟨q.phase, q.cnt, 6⟩, .bumpRecn⟩, ⟨⟨q.phase, q.cnt + 1, 0⟩, .recover⟩] ++ rest } := by
  show State.recover _ _ = _
  unfold State.recover
  refine (if_pos h).trans ((if_neg ?_).trans rfl)
  show ¬ s.line = true
  simp [hl]

/-- The recovery loop issues `r` pulses: the samples before were low, and the loop ends by its bound or a high one. -/
theorem recover_run (r : Nat) {s : State} (hq : s.hostIn = []) (hmax : s.regs.recn.toNat + r ≤ s.cfg.recoverMax.toNat)
    (hlow : ∀ j, j < r → s.answer j = false)
    (hend : s.regs.recn.toNat + r < s.cfg.recoverMax.toNat → s.answer r = true) :
    ∃ u, Recovered s u r (decide (s.regs.recn.toNat + r < s.cfg.recoverMax.toNat)) ∧
      ∀ (q : Seq) (rest : List Item) (n : Nat),
        runItems (n + 7 * r + 1) { s with todo := ⟨q, .recover⟩ :: rest } = runItems n { u with todo := rest } := by
  induction r generalizing s with
  | zero =>
    by_cases h : s.regs.recn.toNat < s.cfg.recoverMax.toNat
    · have ha : s.answer 0 = true := hend (by simpa using h)
      refine ⟨s.smp, ?_, fun q rest n => ?_⟩
      · simp only [Nat.add_zero, h, decide_true]
        exact ⟨(ran_smp s).cast (by simp) (by simp) (by simp) (by simp [recoverSeen, ha]), by simp, by simp, by simp, by simp⟩
      · rw [Nat.mul_zero, Nat.add_zero, runItems_item (s := { s with todo := ⟨q, .recover⟩ :: rest }) hq rfl]
        congr 1
        exact recover_high rest h (by rw [State.line_eq_answer]; exact ha)
    · refine ⟨s, ?_, fun q rest n => ?_⟩
      · simp only [Nat.add_zero, h, decide_false]
        exact ⟨(Ran.refl s).cast (by simp) (by simp) (by simp) (by simp [recoverSeen]), by simp, rfl, rfl, by simp⟩
      · rw [Nat.mul_zero, Nat.add_zero, runItems_item (s := { s with todo := ⟨q, .recover⟩ :: rest }) hq rfl]
        congr 1
        exact recover_spent rest h
  | succ r ih =>
    have h0 : s.answer 0 = false := hlow 0 (by omega)
    have hlt : s.regs.recn.toNat < s.cfg.recoverMax.toNat := by omega
    have hm16 := s.cfg.recoverMax.isLt
    have hr1 := ran_smp s
    have hr2 := ran_doAll straight_recoverActs s.smp
    obtain ⟨e1, e2, e3, e4⟩ := recoverActs_effect s.smp
    have hr := hr1.trans hr2
    have hn : (s.smp.doAll recoverActs).regs.recn.toNat = s.regs.recn.toNat + 1 := by
      rw [e1, State.smp_regs, BitVec.toNat_add]
      simp only [BitVec.reduceToNat]
      omega
    have m1 : smpsOf recoverActs = 0 := rfl
    have hans : ∀ j, (s.smp.doAll recoverActs).answer j = s.answer (1 + j) := by
      intro j; rw [hr.later.answer, m1]
    obtain ⟨u, hu, hrun⟩ := ih (s := s.smp.doAll recoverActs) (hr.hostIn.trans hq)
      (by rw [hn, hr.cfg]; omega) (fun j hj => by rw [hans]; exact hlow _ (by omega))
      (by rw [hn, hr.cfg, hans]; intro h; rw [Nat.add_comm 1 r]; exact hend (by omega))
    refine ⟨u, ?_, fun q rest n => ?_⟩
    · have hd : decide ((s.smp.doAll recoverActs).regs.recn.toNat + r
          < (s.smp.doAll recoverActs).cfg.recoverMax.toNat)
          = decide (s.regs.recn.toNat + (r + 1) < s.cfg.recoverMax.toNat) := by
        rw [hn, hr.cfg, Nat.add_assoc, Nat.add_comm 1 r]
      rw [hd] at hu
      refine ⟨(hr.trans hu.ran).cast ?_ ?_ ?_ ?_, ?_, ?_, ?_, ?_⟩
      · rw [m1]; omega
      · have m2 : microsOf recoverActs = 4 := rfl
        rw [m2]; omega
      · rw [hr.cfg]
        have m3 : minsOf s.smp.cfg recoverActs = s.cfg.tHigh.toNat + s.cfg.tLow.toNat := by
          simp [recoverActs, pulseCell, pulseActs, Act.mins, ConfigRegs.interval]
        rw [m3]; ring
      · rw [hr.cfg, h0]
        have m4 : showsOf s.smp.cfg s.smp.answer recoverActs = pulseSeen s.cfg := rfl
        rw [m4]
        simp [recoverSeen, List.replicate_succ]
      · rw [hu.recn, e1, State.smp_regs, BitVec.add_assoc]
        congr 1
        rw [Nat.add_comm r 1, BitVec.ofNat_add]
        rfl
      · rw [hu.shift, e2]; rfl
      · rw [hu.value, e3]; rfl
      · rw [hu.pins, e4]
        simp
    · have hstep : ({ s with todo := rest } : State).perform ⟨q, .recover⟩
          = { s.smp with todo := ((cellAt q.phase q.cnt pulseCell).map (fun it : Item => (⟨it.seq.succ, it.act⟩ : Item))
              ++ [⟨⟨q.phase, q.cnt, 6⟩, .bumpRecn⟩])
              ++ (⟨⟨q.phase, q.cnt + 1, 0⟩, .recover⟩ :: rest) } := by
        rw [recover_low rest hlt (by rw [State.line_eq_answer]; exact h0)]
        simp
      have hacts : actsOf ((cellAt q.phase q.cnt pulseCell).map (fun it : Item => (⟨it.seq.succ, it.act⟩ : Item))
          ++ [(⟨⟨q.phase, q.cnt, 6⟩, .bumpRecn⟩ : Item)]) = recoverActs := by
        simp [cellAt, pulseCell, pulseActs, recoverActs]
      have hlen : ((cellAt q.phase q.cnt pulseCell).map (fun it : Item => (⟨it.seq.succ, it.act⟩ : Item))
          ++ [(⟨⟨q.phase, q.cnt, 6⟩, .bumpRecn⟩ : Item)]).length = 6 := by
        simp [cellAt, pulseCell, pulseActs]
      rw [runItems_item (s := { s with todo := ⟨q, .recover⟩ :: rest }) hq rfl]
      rw [show ({ ({ s with todo := ⟨q, .recover⟩ :: rest } : State) with todo := rest } : State)
        = { s with todo := rest } from rfl, hstep]
      have hs := runItems_straight ((cellAt q.phase q.cnt pulseCell).map (fun it : Item => (⟨it.seq.succ, it.act⟩ : Item))
        ++ [⟨⟨q.phase, q.cnt, 6⟩, .bumpRecn⟩])
        (straight_of_actsOf (by rw [hacts]; exact straight_recoverActs))
        (⟨⟨q.phase, q.cnt + 1, 0⟩, .recover⟩ :: rest) s.smp (by simpa using hq) (n + 7 * r + 1)
      rw [hlen, hacts] at hs
      rw [show n + 7 * (r + 1) = 6 + (n + 7 * r + 1) by omega, hs]
      exact hrun _ rest n

end Sys2Proof.Machine
end

