-- ==== Sys2Proof/Laws/Frames.lean ====
section
/-! SUPPORT. The pieces of a frame one after the other: what each leaves, how they compose, and how a command that has
performed its last piece completes (42_frame_codec.md R160 to R171, 60_exceptions.md R254). -/

namespace Sys2Proof.Machine

/-! ### Pieces of a plan -/

/-- The sequencer gets from `s` to `u` by performing `items`, in `cost` items with those the loops insert, whatever
stands after them; on the way it draws `m` samples in `n` micro-events of together `i` ticks at least, and shows
`evs`. -/
structure Passed (items : List Item) (s u : State) (cost m n i : Nat) (evs : List PinEvent) : Prop where
  ran : Ran s u m n i evs
  runs : ∀ (rest : List Item) (k : Nat),
    runItems (cost + k) { s with todo := items ++ rest } = runItems k { u with todo := rest }

/-- Two pieces one after the other. -/
theorem Passed.trans {a b : List Item} {s t u : State} {c m n i d p q j : Nat} {x y : List PinEvent}
    (h : Passed a s t c m n i x) (g : Passed b t u d p q j y) :
    Passed (a ++ b) s u (c + d) (m + p) (n + q) (i + j) (x ++ y) where
  ran := h.ran.trans g.ran
  runs rest k := by rw [Nat.add_assoc, List.append_assoc, h.runs, g.runs]

/-- The numbers and the events may be written otherwise. -/
theorem Passed.cast {items : List Item} {s u : State} {c m n i c' m' n' i' : Nat} {x x' : List PinEvent}
    (h : Passed items s u c m n i x) (hc : c = c') (hm : m = m') (hn : n = n') (hi : i = i') (hx : x = x') :
    Passed items s u c' m' n' i' x' := by
  subst hc hm hn hi hx; exact h

theorem Passed.cfg {items : List Item} {s u : State} {c m n i : Nat} {x : List PinEvent}
    (h : Passed items s u c m n i x) : u.cfg = s.cfg := h.ran.cfg

theorem Passed.hostIn {items : List Item} {s u : State} {c m n i : Nat} {x : List PinEvent}
    (h : Passed items s u c m n i x) (hq : s.hostIn = []) : u.hostIn = [] := h.ran.hostIn.trans hq

/-- A stretch of straight actions is a piece. -/
theorem passed_straight {items : List Item} (h : allStraight (actsOf items)) {s : State} (hq : s.hostIn = []) :
    Passed items s (s.doAll (actsOf items)) items.length (smpsOf (actsOf items)) (microsOf (actsOf items))
      (minsOf s.cfg (actsOf items)) (showsOf s.cfg s.answer (actsOf items)) where
  ran := ran_doAll h s
  runs rest k := runItems_straight items (straight_of_actsOf h) rest s hq k

/-- Nothing to perform. -/
theorem passed_nil (s : State) : Passed [] s s 0 0 0 0 [] where
  ran := .refl s
  runs rest k := by simp

/-! ### The length of a piece -/

@[simp] theorem cellAt_length (p : Phase) (i : Nat) (acts : List Act) : (cellAt p i acts).length = acts.length := by
  simp [cellAt]

theorem length_eq_actsOf (items : List Item) : items.length = (actsOf items).length := by simp [actsOf]

/-! ### Read words -/

/-- `ReadWord(n)` (42_frame_codec.md R161): `n` samples, the first the most significant; the clock is low after it,
and nothing else of the datapath changes. -/
theorem readWord_passed {s : State} (hq : s.hostIn = []) (p : Phase) (n : Nat) :
    ∃ u, Passed (readWord p n) s u (7 * n + 2) n (5 * n) (n * (s.cfg.tHigh.toNat + s.cfg.tLow.toNat))
        (s.readsSeen 0 n) ∧ u.pins = { s.pins with clkO := if n = 0 then s.pins.clkO else false } ∧
      (∀ i, u.regs.shift.getLsbD i = (decide (i < 24) && (decide (i < n) && s.answer (n - 1 - i)))) ∧
      u.regs.recn = s.regs.recn ∧ u.latch.value = s.latch.value := by
  have hs := straight_readWord p n
  have ha := actsOf_readWord p n
  obtain ⟨h1, h2, h3, h4⟩ := readCells_measures s.cfg s.answer n
  refine ⟨s.doAll (actsOf (readWord p n)), (passed_straight hs hq).cast ?_ ?_ ?_ ?_ ?_, ?_, ?_, ?_⟩
  · rw [length_eq_actsOf, ha]
    simp [readWordCell, readBitActs]
    omega
  · rw [ha]; simp [h1, Act.smps]
  · rw [ha]; simp [h2, Act.micros]
  · rw [ha]; simp [h3, Act.mins]
  · rw [ha]; simp [h4, showsOf_cons, Act.shows, Act.smps, State.readsSeen]
  · rw [doAll_pins hs, ha]; simp [drivesOf_readCells, Act.drives]
  · intro i
    rw [ha, State.doAll_cons, State.doAll_cons, readCells_shift]
    have hc : ∀ k, ((s.does .clearShift).does .startPhase).answer k = s.answer k := fun k =>
      State.answer_congr rfl k
    simp only [hc]
    by_cases hn : i < n <;> simp [hn]
  · rw [ha, State.doAll_cons, State.doAll_cons]
    obtain ⟨g1, -, g3⟩ := readCells_keeps n ((s.does .clearShift).does .startPhase)
    exact ⟨g1, g3⟩

/-! ### Pulses -/

/-- `n` pulses (40_bit_transport.md R132): the clock is low after them and nothing of the datapath changes. -/
theorem pulses_passed {s : State} (hq : s.hostIn = []) (p : Phase) (n : Nat) :
    ∃ u, Passed (pulses p n) s u (5 * n + 1) 0 (4 * n) (n * (s.cfg.tHigh.toNat + s.cfg.tLow.toNat))
        (pulsesSeen s.cfg n) ∧ u.pins = { s.pins with clkO := if n = 0 then s.pins.clkO else false } ∧
      u.regs.shift = s.regs.shift ∧ u.regs.recn = s.regs.recn ∧ u.latch.value = s.latch.value := by
  have hs := straight_pulses p n
  have ha := actsOf_pulses p n
  obtain ⟨h1, h2, h3, h4⟩ := pulseCells_measures s.cfg s.answer n
  obtain ⟨g1, g2, -, g4⟩ := doAll_datapath hs (sparesDatapath_pulses p n) s
  refine ⟨s.doAll (actsOf (pulses p n)), (passed_straight hs hq).cast ?_ ?_ ?_ ?_ ?_, ?_, g1, g2, g4⟩
  · rw [length_eq_actsOf, ha]
    simp [pulseCell, pulseActs]
    omega
  · rw [ha]; simp [h1, Act.smps]
  · rw [ha]; simp [h2, Act.micros]
  · rw [ha]; simp [h3, Act.mins]
  · rw [ha]; simp [h4, showsOf_cons, Act.shows, Act.smps]
  · rw [doAll_pins hs, ha]; simp [drivesOf_pulseCells, Act.drives]

/-! ### Write words -/

/-- The items of a write cell. -/
def writeCost (c : ConfigRegs) : Nat := if c.sharedPin then 8 else 6

theorem writeCells_length (c : ConfigRegs) (bits : List Level) :
    ((bits.map (writeCell c)).flatten).length = bits.length * writeCost c := by
  induction bits with
  | nil => simp
  | cons b bits ih =>
    have h1 : (writeCell c b).length = writeCost c := by
      cases h : c.sharedPin <;> simp [writeCell, writeBitActs, dirActs, h, writeCost]
    rw [List.map_cons, List.flatten_cons, List.length_append, ih, h1, List.length_cons]
    ring

/-- The pins after a word of at least one bit: the clock low, the level of its bit 0 on the data pin, a shared pin
an input (40_bit_transport.md R131). -/
def writtenPins (c : ConfigRegs) (p : Pins) (v : Byte) : Pins :=
  ⟨false, v.getLsbD 0 ^^ c.dinInvert, if c.sharedPin then .input else p.dataDir, p.drive⟩

/-- `WriteWord(v, n)` (42_frame_codec.md R162), MSB first, for `n` at least 1; nothing of the datapath changes. -/
theorem writeWord_passed {s : State} (hq : s.hostIn = []) (p : Phase) (v : Byte) (n : Nat) (hn : 1 ≤ n) :
    ∃ u, Passed (writeWord s.cfg p v n) s u (n * writeCost s.cfg + 1) 0 (n * writeMicros s.cfg)
        (n * (s.cfg.tHigh.toNat + s.cfg.tLow.toNat)) (writesSeen s.cfg v n) ∧
      u.pins = writtenPins s.cfg s.pins v ∧ u.regs.shift = s.regs.shift ∧ u.regs.recn = s.regs.recn ∧
      u.latch.value = s.latch.value := by
  have hs := straight_writeWord s.cfg p v n
  have ha := actsOf_writeWord s.cfg p v n
  obtain ⟨h1, h2, h3, h4⟩ := writeCells_measures s.cfg s.answer (bitsMsbFirst v n)
  obtain ⟨g1, g2, -, g4⟩ := doAll_datapath hs (sparesDatapath_writeWord s.cfg p v n) s
  refine ⟨s.doAll (actsOf (writeWord s.cfg p v n)), (passed_straight hs hq).cast ?_ ?_ ?_ ?_ ?_, ?_, g1, g2, g4⟩
  · rw [length_eq_actsOf, ha, List.length_cons, writeCells_length, bitsMsbFirst_length]
  · rw [ha]; simp [h1, Act.smps]
  · rw [ha]; simp [h2, Act.micros]
  · rw [ha]; simp [h3, Act.mins]
  · rw [ha]; simp [h4, showsOf_cons, Act.shows, Act.smps, writesSeen_eq]
  · obtain ⟨k, rfl⟩ : ∃ k, n = k + 1 := ⟨n - 1, by omega⟩
    rw [doAll_pins hs, ha, drivesOf_cons, bitsMsbFirst_succ, drivesOf_writeCells]
    rfl

/-! ### The turn-around and the value of RAWRD -/

/-- `DIR(in)` before the register byte (42_frame_codec.md R169). -/
theorem turn_passed {s : State} (hq : s.hostIn = []) :
    ∃ u, Passed (turnItems s.cfg) s u (s.waitBase + 1) 0 s.waitBase 0 (dirSeen s.cfg .input) ∧
      u.pins = waitPins s.cfg s.pins ∧ u.regs.shift = s.regs.shift ∧ u.regs.recn = s.regs.recn ∧
      u.latch.value = s.latch.value := by
  have ha : actsOf (turnItems s.cfg) = .startPhase :: dirActs s.cfg .input := by simp [turnItems, actsOf_cellAt]
  have hs : allStraight (actsOf (turnItems s.cfg)) := by
    rw [ha]; cases h : s.cfg.sharedPin <;> simp only [dirActs, h] <;> decide
  refine ⟨_, (passed_straight hs hq).cast ?_ ?_ ?_ ?_ ?_, ?_⟩
  · rw [length_eq_actsOf, ha]; cases h : s.cfg.sharedPin <;> simp [dirActs, h, State.waitBase]
  · rw [ha]; cases h : s.cfg.sharedPin <;> simp [dirActs, h, Act.smps]
  · rw [ha]; cases h : s.cfg.sharedPin <;> simp [dirActs, h, Act.micros, State.waitBase]
  · rw [ha]; cases h : s.cfg.sharedPin <;> simp [dirActs, h, Act.mins]
  · rw [ha]; cases h : s.cfg.sharedPin <;> simp [dirActs, h, showsOf_cons, Act.shows, dirSeen]
  · rw [ha]; cases h : s.cfg.sharedPin <;> simp [dirActs, h, waitPins]

/-- `r <- sext_32(v)` (42_frame_codec.md R160). -/
theorem latchSample_passed {s : State} (hq : s.hostIn = []) (q : Seq) :
    ∃ u, Passed [⟨q, .latchSample⟩] s u 1 0 0 0 [] ∧ u.pins = s.pins ∧ u.regs = s.regs ∧
      u.latch.value = sext32 s.regs.shift :=
  ⟨_, passed_straight (items := [⟨q, .latchSample⟩]) (show allStraight [.latchSample] by decide) hq, rfl, rfl, rfl⟩

/-! ### The ready-wait, the re-check and the recovery loop as pieces -/

/-- The ready-wait that ends with `Ok` (41_ready_gate.md R151). -/
theorem wait_passed {s : State} {k : Nat} (hq : s.hostIn = []) (ht : s.latch.tmo = s.cfg.timeout) (h : s.readyAt k) :
    ∃ u, Passed (waitReady s.cfg) s u (3 * k + (s.waitBase + 3)) (k + 1) (s.waitBase + 1 + 3 * k + 1)
        (k * s.cfg.tPoll.toNat) (pollSeen s.cfg k ++ [.smp false]) ∧ u.pins = waitPins s.cfg s.pins ∧
      u.regs.shift = s.regs.shift ∧ u.regs.recn = s.regs.recn ∧ u.latch.value = s.latch.value := by
  obtain ⟨u, hu, hr⟩ := wait_ok hq ht h
  exact ⟨u, ⟨hu.ran, fun rest n => by rw [← hr rest n]; congr 1; omega⟩, hu.pins, hu.shift, hu.recn, hu.value⟩

/-- The re-check that finds the line low (42_frame_codec.md R163). -/
theorem recheck_passed {s : State} (hq : s.hostIn = []) (h : s.cfg.busyRecheck = true → s.answer 0 = false) :
    ∃ u, Passed (recheckItems s.cfg) s u (if s.cfg.busyRecheck then 1 else 0) (if s.cfg.busyRecheck then 1 else 0)
        (if s.cfg.busyRecheck then 1 else 0) 0 (if s.cfg.busyRecheck then [.smp false] else []) ∧
      u.pins = s.pins ∧ u.regs = s.regs ∧ u.latch = s.latch := by
  cases hb : s.cfg.busyRecheck
  · exact ⟨s, by simpa [recheckItems, hb] using passed_nil s, rfl, rfl, rfl⟩
  · have ha := h hb
    refine ⟨s.smp, ⟨by simpa [ha] using ran_smp s, fun rest k => ?_⟩, rfl, rfl, rfl⟩
    simp only [recheckItems, hb, if_true]
    rw [Nat.add_comm, List.singleton_append,
      runItems_item (s := { s with todo := ⟨⟨.recheck, 0, 0⟩, .recheck⟩ :: rest }) hq rfl]
    congr 1
    show State.recheck _ = _
    rw [State.recheck, if_neg]
    · rfl
    · show ¬ s.line = true
      simp [State.line_eq_answer, ha]

/-- The recovery phase (42_frame_codec.md R165): `r` pulses, counted in `RECN`. -/
theorem recovery_passed {s : State} (hq : s.hostIn = []) {r : Nat} (h : RecoversAfter s 0 r) :
    ∃ u, Passed [⟨⟨.recover, 0, 0⟩, .startPhase⟩, ⟨⟨.recover, 0, 0⟩, .clearRecn⟩, ⟨⟨.recover, 0, 0⟩, .recover⟩] s u
        (7 * r + 3) (r + if r < s.cfg.recoverMax.toNat then 1 else 0)
        (5 * r + if r < s.cfg.recoverMax.toNat then 1 else 0)
        (r * (s.cfg.tHigh.toNat + s.cfg.tLow.toNat))
        (recoverSeen s.cfg r ++ if r < s.cfg.recoverMax.toNat then [.smp true] else []) ∧
      u.pins = { s.pins with clkO := if r = 0 then s.pins.clkO else false } ∧ u.regs.shift = s.regs.shift ∧
      u.regs.recn = BitVec.ofNat 4 r ∧ u.latch.value = s.latch.value := by
  obtain ⟨h1, h2, h3⟩ := h
  have hp := passed_straight (items := [⟨⟨.recover, 0, 0⟩, .startPhase⟩, ⟨⟨.recover, 0, 0⟩, .clearRecn⟩])
    (by decide) hq
  generalize hw : s.doAll (actsOf [⟨⟨.recover, 0, 0⟩, .startPhase⟩, ⟨⟨.recover, 0, 0⟩, .clearRecn⟩]) = w at hp
  have e1 : w.regs.recn = 0 := by rw [← hw]; rfl
  have e2 : w.pins = s.pins := by rw [← hw]; rfl
  have e3 : w.regs.shift = s.regs.shift := by rw [← hw]; rfl
  have e4 : w.latch.value = s.latch.value := by rw [← hw]; rfl
  have e5 : ∀ k, w.answer k = s.answer k := fun k => by
    have := hp.ran.later.answer k
    simpa [Act.smps] using this
  have e0 : w.regs.recn.toNat = 0 := by rw [e1]; rfl
  obtain ⟨u, hu, hrun⟩ := recover_run r (s := w) (hp.hostIn hq) (by rw [e0, hp.cfg]; omega)
    (fun j hj => by rw [e5]; simpa using h2 j hj)
    (by rw [e0, hp.cfg, e5]; intro hlt; simpa using h3 (by omega))
  have hd : w.regs.recn.toNat + r = r := by rw [e0]; omega
  rw [hd, hp.cfg] at hu
  have hx : Passed [⟨⟨.recover, 0, 0⟩, .recover⟩] w u (7 * r + 1)
      (r + if r < s.cfg.recoverMax.toNat then 1 else 0) (5 * r + if r < s.cfg.recoverMax.toNat then 1 else 0)
      (r * (s.cfg.tHigh.toNat + s.cfg.tLow.toNat))
      (recoverSeen s.cfg r ++ if r < s.cfg.recoverMax.toNat then [.smp true] else []) := by
    refine ⟨?_, fun rest k => ?_⟩
    · have := hu.ran
      rw [hp.cfg] at this
      simpa using this
    · rw [show 7 * r + 1 + k = k + 7 * r + 1 by omega]
      exact hrun _ rest k
  refine ⟨u, (hp.trans hx).cast ?_ ?_ ?_ ?_ ?_, ?_, ?_, ?_, ?_⟩
  · simp; omega
  · simp [Act.smps]
  · simp [Act.micros]
  · simp [Act.mins]
  · simp [showsOf_cons, Act.shows]
  · rw [hu.pins, e2]
  · rw [hu.shift, e3]
  · rw [hu.recn, e1]; simp
  · rw [hu.value, e4]

/-! ### The preamble (42_frame_codec.md R166) -/

/-- `Preamble()` when the wait ends with `Ok` at the sample numbered `k`: the sample lands in `SHIFT`. -/
theorem preamble_passed {s : State} {k : Nat} (hq : s.hostIn = []) (ht : s.latch.tmo = s.cfg.timeout)
    (h : s.readyAt k) :
    ∃ u, Passed (preamble s.cfg) s u (3 * k + s.waitBase + 179) (k + 25) (s.waitBase + 3 * k + 126)
        (k * s.cfg.tPoll.toNat + 25 * (s.cfg.tHigh.toNat + s.cfg.tLow.toNat))
        (pollSeen s.cfg k ++ [.smp false] ++ s.readsSeen (k + 1) 24 ++ pulseSeen s.cfg) ∧
      u.pins = { waitPins s.cfg s.pins with clkO := false } ∧ SampleFrom s (k + 1) u.regs.shift ∧
      u.regs.recn = s.regs.recn ∧ u.latch.value = s.latch.value := by
  obtain ⟨u1, p1, a1, b1, c1, d1⟩ := wait_passed hq ht h
  obtain ⟨u2, p2, a2, b2, c2, d2⟩ := readWord_passed (p1.hostIn hq) .data Config.sampleBits
  obtain ⟨u3, p3, a3, b3, c3, d3⟩ := pulses_passed (p2.hostIn (p1.hostIn hq)) .enter Config.nEnter
  have e24 : Config.sampleBits = 24 := rfl
  have e1 : Config.nEnter = 1 := rfl
  refine ⟨u3, ((p1.trans p2).trans p3).cast ?_ ?_ ?_ ?_ ?_, ?_, ?_, ?_, ?_⟩
  · rw [e24, e1]; omega
  · rw [e24]
  · rw [e24, e1]; omega
  · rw [e24, e1, p2.cfg, p1.cfg]; ring
  · have hs : u1.readsSeen 0 24 = s.readsSeen (k + 1) 24 := by
      simp only [State.readsSeen, p1.cfg, p1.ran.later.answer, Nat.zero_add]
    rw [e24, e1, hs, p2.cfg, p1.cfg]
    simp [pulsesSeen]
  · rw [a3, a2, a1]; rfl
  · intro i hi
    rw [b3, b2, e24, p1.ran.later.answer]
    simp [hi]
  · rw [c3, c2, c1]
  · rw [d3, d2, d1]

/-! ### Completion of a command that has performed its body -/

/-- A command that passes its tests and performs its body completes with `Ok` (60_exceptions.md R254). -/
theorem issue_finished {s u : State} (h : s.acceptsQuietly) {w : Word} {items : List Item} {cost m n i : Nat}
    {evs : List PinEvent} (hp : Passed items (s.opened w) u cost m n i evs) (hc : cost + 1 ≤ itemBound - 1) (q : Seq)
    (c : Completion) : s.issue w none (items ++ [⟨q, .complete c⟩]) = u.succeed c := by
  rw [issue_passed h, show itemBound - 1 = cost + ((itemBound - 1 - cost - 1) + 1) by omega, hp.runs,
    runItems_item (s := { u with todo := [⟨q, .complete c⟩] }) (hp.hostIn h.2) rfl,
    runItems_paused (paused_of_done (by rfl))]
  rfl

end Sys2Proof.Machine
end

