-- ==== Sys2Proof/Laws/Operations.lean ====
section
/-! SUPPORT. For each shared operation that branches, one lemma that says once everything it can do; the step and the
meanings in one form. -/

namespace Sys2Proof.Machine

/-! ### The tests of `PH_CHECK` (60_exceptions.md R252) -/

/-- The first failure is none when every test passes. -/
theorem firstFailure_none {l : List (Option Status)} : firstFailure l = none ↔ ∀ c ∈ l, c = none := by
  induction l with
  | nil => simp [firstFailure]
  | cons a l ih => cases a <;> simp [firstFailure, ih]

/-- A failure is that of a test. -/
theorem firstFailure_mem {l : List (Option Status)} {st : Status} (h : firstFailure l = some st) : some st ∈ l := by
  induction l with
  | nil => simp [firstFailure] at h
  | cons a l ih =>
    cases a with
    | none => exact List.mem_cons_of_mem _ (ih h)
    | some b => simp [firstFailure] at h; simp [h]

theorem checkFormat_none {b : Bool} : checkFormat b = none ↔ b = true := by cases b <;> simp [checkFormat]

theorem checkAttached_none {s : State} : checkAttached s = none ↔ s.eng ≠ .detached := by
  unfold checkAttached; split <;> simp_all

theorem checkNotAttached_none {s : State} : checkNotAttached s = none ↔ s.eng = .detached := by
  unfold checkNotAttached; split <;> simp_all

theorem checkPoll_none {s : State} : checkPoll s = none ↔ s.cfg.tPoll ≠ 0#32 := by
  unfold checkPoll; split <;> simp_all

theorem checkWidth_none {s : State} : checkWidth s = none ↔ s.cfg.widthLegal := by
  unfold checkWidth ConfigRegs.widthLegal; split <;> simp_all

theorem checkAddress_none {s : State} {reg : Byte} : checkAddress s reg = none ↔ addressLegal s.cfg reg = true := by
  unfold checkAddress; split <;> simp_all

/-! ### The meanings in one form -/

/-- The verdict of `PH_CHECK` on a command. -/
def verdictOf (i : Instr) (s : State) : Option Status :=
  match i with
  | .rdbit => firstFailure [checkAttached s]
  | .wrbit data => firstFailure [checkFormat (fitsFormatB data), checkAttached s]
  | .pulse => firstFailure [checkAttached s]
  | .waitrdy => firstFailure [checkAttached s, checkPoll s]
  | .rawrd => firstFailure [checkAttached s, checkPoll s]
  | .regwr reg _ => firstFailure [checkAttached s, checkPoll s, checkWidth s, checkAddress s reg]
  | .regrd reg => firstFailure [checkAttached s, checkPoll s, checkWidth s, checkAddress s reg]
  | .chiprst => firstFailure [checkAttached s]
  | .attach => firstFailure [checkNotAttached s]
  | .detach => firstFailure [checkAttached s]

/-- What a command performs after its tests. -/
def bodyOf (i : Instr) (c : ConfigRegs) : List Item :=
  match i with
  | .rdbit => phaseOf .prim [readBitActs ++ [.endCell]] ++ completeAt .prim .bit
  | .wrbit data => phaseOf .prim [writeCell c (bitOperand data)] ++ completeAt .prim .plain
  | .pulse => pulses .prim 1 ++ completeAt .prim .plain
  | .waitrdy => waitReady c ++ completeAt .wait .plain
  | .rawrd => rawrdBody c
  | .regwr reg data => regwrBody c reg data
  | .regrd reg => regrdBody c reg
  | .chiprst => cellAt .reset 0 [.clk true, .hold .reset, .clk false, .hold .startup, .complete .plain]
  | .attach => cellAt .attach 0 [.grant, .acquire, .complete .attached]
  | .detach => cellAt .detach 0 [.release, .complete .detached]

/-- Every command is issued in the same way. -/
theorem exec_eq (i : Instr) (s : State) : exec i s = .next (s.issue (encode i) (verdictOf i s) (bodyOf i s.cfg)) := by
  cases i <;> rfl

/-- The verdict looks at nothing but `ENG` and the configuration. -/
theorem verdictOf_congr {s t : State} (i : Instr) (h : t.eng = s.eng) (g : t.cfg = s.cfg) :
    verdictOf i t = verdictOf i s := by
  cases i <;> simp only [verdictOf, checkAttached, checkNotAttached, checkPoll, checkWidth, checkAddress, h, g]

/-- A command passes when each of its tests passes. -/
theorem verdictOf_none (i : Instr) (s : State) : verdictOf i s = none ↔ PassesChecks i s := by
  cases i <;>
    simp [verdictOf, firstFailure_none, checkFormat_none, checkAttached_none, checkNotAttached_none, checkPoll_none,
      checkWidth_none, checkAddress_none, PassesChecks, Instr.wellFormed, waitsForReady, addressOperand]

/-- A verdict is `InvalidArgument` or `ResourceUnavailable` (60_exceptions.md R252). -/
theorem verdictOf_some {i : Instr} {s : State} {st : Status} (h : verdictOf i s = some st) :
    st = .invalidArgument ∨ st = .resourceUnavailable := by
  have f1 : ∀ b, checkFormat b = none ∨ checkFormat b = some .invalidArgument := by decide
  have f2 : checkAttached s = none ∨ checkAttached s = some .resourceUnavailable := by
    unfold checkAttached; split <;> simp
  have f3 : checkNotAttached s = none ∨ checkNotAttached s = some .invalidArgument := by
    unfold checkNotAttached; split <;> simp
  have f4 : checkPoll s = none ∨ checkPoll s = some .invalidArgument := by unfold checkPoll; split <;> simp
  have f5 : checkWidth s = none ∨ checkWidth s = some .invalidArgument := by unfold checkWidth; split <;> simp
  have f6 : ∀ reg, checkAddress s reg = none ∨ checkAddress s reg = some .invalidArgument := by
    intro reg; unfold checkAddress; split <;> simp
  cases i <;> have hm := firstFailure_mem h <;> simp only [List.mem_cons, List.not_mem_nil, or_false] at hm <;>
    grind

/-! ### The branching actions -/

/-- `poll`: low goes on, high goes to the deadline test (41_ready_gate.md R151). -/
theorem poll_cases (s : State) (q : Seq) :
    (s.line = false ∧ s.poll q = s.smp) ∨ (s.line = true ∧ s.poll q = s.smp.next [⟨q.succ, .expire⟩]) := by
  unfold State.poll; cases h : s.line <;> simp

/-- `expire`: the deadline passed ends the operation, else the sleep and the next poll (41_ready_gate.md R151). -/
theorem expire_cases (s : State) (q : Seq) :
    (s.regs.deadline ≤ s.now ∧ s.expire q = s.time.fail .timeout) ∨
      (s.now < s.regs.deadline ∧
        s.expire q = s.time.next [⟨q.succ, .hold .poll⟩, ⟨⟨q.phase, q.cnt, q.sub - 1⟩, .poll⟩]) := by
  unfold State.expire
  by_cases h : s.regs.deadline ≤ s.now
  · exact .inl ⟨h, if_pos h⟩
  · exact .inr ⟨Nat.lt_of_not_le h, if_neg h⟩

/-- `recheck`: high ends the operation with `Busy` (42_frame_codec.md R163). -/
theorem recheck_cases (s : State) :
    (s.line = false ∧ s.recheck = s.smp) ∨ (s.line = true ∧ s.recheck = s.smp.fail .busy) := by
  unfold State.recheck; cases h : s.line <;> simp

/-- `grant`: the answer is drawn; a refusal ends the operation (43_system_ops.md R190). -/
theorem grant_cases (s : State) :
    (s.granted = true ∧ s.grant = { s with env := { s.env with grants := s.env.grants.rest } }) ∨
      (s.granted = false ∧
        s.grant = { s with env := { s.env with grants := s.env.grants.rest } }.fail .resourceUnavailable) := by
  unfold State.grant; cases h : s.granted <;> simp

/-! ### Acceptance -/

/-- `issue`: it waits, or it is refused by the tests, or its body is performed (20_memory.md R75, R76). -/
theorem issue_cases {s : State} (hq : s.hostIn = []) (w : Word) (v : Option Status) (body : List Item) :
    (s.eng = .busy ∧ s.issue w v body = { s with waiting := s.waiting ++ [⟨s.requester, w⟩] }) ∨
      (s.eng ≠ .busy ∧ ∃ st, v = some st ∧ s.issue w v body = (s.opened w).fail st) ∨
      (s.eng ≠ .busy ∧ v = none ∧ s.issue w v body = runItems (itemBound - 1) { s.opened w with todo := body }) := by
  by_cases h : s.eng = .busy
  · exact .inl ⟨h, if_pos h⟩
  · cases v with
    | none => exact .inr (.inr ⟨h, rfl, issue_passed ⟨h, hq⟩ w body⟩)
    | some st => exact .inr (.inl ⟨h, st, rfl, issue_refused ⟨h, hq⟩ w st body⟩)

/-! ### The host port -/

/-- `arbitrate`: it serves one of the waiting commands; the engine is untouched (20_memory.md R76). -/
theorem arbitrate_frame {s t : State} {c : HostCmd} (h : s.arbitrate = some (c, t)) :
    t.eng = s.eng ∧ t.todo = s.todo ∧ t.pins = s.pins ∧ t.regs = s.regs ∧ t.now = s.now ∧ t.cfg = s.cfg ∧
      t.status = s.status ∧ t.latch = s.latch ∧ t.hostIn = s.hostIn ∧ t.trace = s.trace ∧
      t.responses = s.responses ∧ t.reads = s.reads ∧ t.requester = c.who ∧
      t.env = { s.env with picks := t.env.picks } := by
  unfold State.arbitrate at h
  split at h
  · cases h
  · simp only [Option.some.injEq, Prod.mk.injEq] at h
    obtain ⟨rfl, rfl⟩ := h
    simp [State.serve]
  · simp only [Option.some.injEq, Prod.mk.injEq] at h
    obtain ⟨hc, rfl⟩ := h
    rw [← hc]
    simp [State.serve]

/-- `hostWrite`: dropped, or one configuration register written (10_state.md R28). -/
theorem hostWrite_cases (s : State) (r : RegNo) (v : Word) :
    s.hostWrite r v = s ∨ ∃ n, r = .cr n ∧ s.eng ≠ .busy ∧ s.hostWrite r v = { s with cfg := s.cfg.set n v } := by
  cases r with
  | sr n => exact .inl rfl
  | cr n =>
    unfold State.hostWrite
    by_cases h : s.eng = .busy
    · simp [h]
    · exact .inr ⟨n, rfl, h, if_neg h⟩

/-- An access leaves the engine's running operation as it is while BUSY (20_memory.md R79). -/
theorem hostAct_busy {s : State} (h : s.eng = .busy) {a : HostAct} (ha : a.isAccess = true) :
    (s.hostAct a).todo = s.todo ∧ (s.hostAct a).hostIn = s.hostIn ∧ SameEngine (s.hostAct a) s := by
  cases a with
  | present c => simp [State.hostAct, SameEngine]
  | write r v =>
    cases r with
    | cr n => simp [State.hostAct, State.hostWrite, h, SameEngine]
    | sr n => simp [State.hostAct, State.hostWrite, SameEngine]
  | read who r => cases hr : r.samplesLine <;> simp [State.hostAct, State.hostRead, hr, SameEngine]
  | engineReset => cases ha
  | pass n => cases ha

/-! ### The step -/

/-- `engineTurn`, whole: the running operation, a served command, a reserved word, or time. -/
theorem engineTurn_cases (s : State) :
    (s.eng = .busy ∧ engineTurn s = .next s.engineRun) ∨
      (s.eng ≠ .busy ∧ s.arbitrate = none ∧ engineTurn s = .next s.idleStep) ∨
      (s.eng ≠ .busy ∧ ∃ c t, s.arbitrate = some (c, t) ∧
        ((∃ i, decode c.word = .ok i ∧ engineTurn s = exec i t) ∨
          (∃ e, decode c.word = .error e ∧ engineTurn s = .next (t.reject c.word)))) := by
  unfold engineTurn
  cases he : s.eng with
  | busy => exact .inl ⟨rfl, rfl⟩
  | idle | detached =>
    cases ha : s.arbitrate with
    | none => simp
    | some p =>
      obtain ⟨c, t⟩ := p
      cases hd : decode c.word <;> simp [hd]

/-- `step`, whole: the host's action that lands now, or the engine's turn. -/
theorem step_cases (s : State) :
    (∃ a rest, s.hostIn = ⟨0, a⟩ :: rest ∧ step s = .next ({ s with hostIn := rest }.hostAct a)) ∨
      (s.hostDue = false ∧ step s = engineTurn s) := by
  unfold step State.hostDue
  cases hq : s.hostIn with
  | nil => exact .inr ⟨rfl, rfl⟩
  | cons h rest =>
    obtain ⟨k, a⟩ := h
    by_cases hk : k = 0
    · subst hk
      exact .inl ⟨a, rest, rfl, by simp⟩
    · exact .inr ⟨by simp [hk], by simp [hk]⟩

/-! ### Completion -/

/-- A command that has performed its body completes with `Ok` (60_exceptions.md R254). -/
theorem succeed_finished {s u : State} {w : Word} {m n i : Nat} {evs : List PinEvent}
    (h : Ran (s.opened w) u m n i evs) (c : Completion) :
    Finished s (u.succeed c) w .ok (completionValue c u) (completionRecn c u) evs i n ∧
      (u.succeed c).pins = u.pins ∧ (u.succeed c).regs.shift = u.regs.shift ∧
      (u.succeed c).regs.recn = u.regs.recn ∧ (u.succeed c).eng = completionEng c u :=
  ⟨finished_complete h _ _ _ _, rfl, rfl, rfl, rfl⟩

/-- A command that fails in the middle (60_exceptions.md R254, R256). -/
theorem fail_finished {s u : State} {w : Word} {m n i : Nat} {evs : List PinEvent}
    (h : Ran (s.opened w) u m n i evs) (st : Status) :
    Finished s (u.fail st) w st none 0 evs i n ∧ (u.fail st).pins = u.pins ∧
      (u.fail st).regs.shift = u.regs.shift ∧ (u.fail st).regs.recn = u.regs.recn ∧ (u.fail st).eng = s.eng :=
  ⟨finished_complete h _ _ _ _, rfl, rfl, rfl, h.heldEng⟩

/-- The ready-wait leaves the sequencer room for any frame. -/
theorem wait_budget {s : State} {k : Nat} (hp : s.cfg.tPoll ≠ 0#32) (h : s.stillWaiting k) :
    3 * k + s.waitBase + 2000 ≤ itemBound := by
  have := wait_items_le hp h
  omega

end Sys2Proof.Machine
end

