-- ==== Sys2Proof/Laws/Discipline.lean ====
section
/-! SUPPORT. The discipline of the pins (40_bit_transport.md R133) of every piece of a plan and of every body. -/

namespace Sys2Proof.Machine

/-- From rest, the items come back to rest: what is disciplined after them is disciplined with them. -/
def Keeps (held : Eng) (items : List Item) : Prop :=
  ∀ rest drive, disciplined held rest false .input drive = true →
    disciplined held (items ++ rest) false .input drive = true

theorem keeps_nil (held : Eng) : Keeps held [] := fun _ _ h => h

theorem keeps_append {held : Eng} {a b : List Item} (h : Keeps held a) (g : Keeps held b) : Keeps held (a ++ b) :=
  fun rest drive hr => by rw [List.append_assoc]; exact h _ _ (g _ _ hr)

theorem keeps_cells (held : Eng) (p : Phase) (cells : List (List Act)) (k : Nat)
    (h : ∀ c ∈ cells, ∀ i, Keeps held (cellAt p i c)) :
    Keeps held ((cells.zipIdx k).flatMap fun c => cellAt p c.2 c.1) := by
  induction cells generalizing k with
  | nil => exact keeps_nil held
  | cons c cs ih =>
    simp only [List.zipIdx_cons, List.flatMap_cons]
    exact keeps_append (h c (by simp) _) (ih _ fun c hc => h c (by simp [hc]))

theorem keeps_phaseOf (held : Eng) (p : Phase) (cells : List (List Act))
    (h : ∀ c ∈ cells, ∀ i, Keeps held (cellAt p i c)) : Keeps held (phaseOf p cells) := by
  intro rest drive hr
  simp only [phaseOf, List.cons_append, disciplined]
  exact keeps_cells held p cells 0 h rest drive hr

theorem keeps_readWordCell (held : Eng) (p : Phase) (i : Nat) : Keeps held (cellAt p i readWordCell) := by
  intro rest d h; simp [cellAt, readWordCell, readBitActs, disciplined, h]

theorem keeps_pulseCell (held : Eng) (p : Phase) (i : Nat) : Keeps held (cellAt p i pulseCell) := by
  intro rest d h; simp [cellAt, pulseCell, pulseActs, disciplined, h]

theorem keeps_writeCell (held : Eng) (p : Phase) (i : Nat) (c : ConfigRegs) (b : Level) :
    Keeps held (cellAt p i (writeCell c b)) := by
  intro rest d h
  cases hs : c.sharedPin <;> simp [cellAt, writeCell, writeBitActs, dirActs, hs, disciplined, h]

theorem keeps_turn (held : Eng) (c : ConfigRegs) : Keeps held (turnItems c) := by
  intro rest d h
  cases hs : c.sharedPin <;> simp [turnItems, cellAt, dirActs, hs, disciplined, h]

theorem keeps_pulses (held : Eng) (p : Phase) (n : Nat) : Keeps held (pulses p n) :=
  keeps_phaseOf held p _ fun c hc i => by rw [List.eq_of_mem_replicate hc]; exact keeps_pulseCell held p i

theorem keeps_writeWord (held : Eng) (c : ConfigRegs) (p : Phase) (v : Byte) (n : Nat) :
    Keeps held (writeWord c p v n) :=
  keeps_phaseOf held p _ fun x hx i => by
    obtain ⟨b, _, rfl⟩ := List.mem_map.mp hx
    exact keeps_writeCell held p i c b

theorem keeps_readWord (held : Eng) (p : Phase) (n : Nat) : Keeps held (readWord p n) := by
  intro rest d h
  simp only [readWord, List.cons_append, disciplined]
  exact keeps_phaseOf held p _
    (fun c hc i => by rw [List.eq_of_mem_replicate hc]; exact keeps_readWordCell held p i) rest d h

theorem waitReady_disciplined (c : ConfigRegs) {rest : List Item}
    (h : disciplined .idle rest false .input true = true) :
    disciplined .idle (waitReady c ++ rest) false .input true = true := by
  cases hs : c.sharedPin <;> simp [waitReady, cellAt, dirActs, hs, disciplined, mayEnd, atRest, h]

theorem preamble_disciplined (c : ConfigRegs) {rest : List Item}
    (h : disciplined .idle rest false .input true = true) :
    disciplined .idle (preamble c ++ rest) false .input true = true := by
  rw [preamble, List.append_assoc, List.append_assoc]
  exact waitReady_disciplined c (keeps_readWord _ _ _ _ _ (keeps_pulses _ _ _ _ _ h))

theorem rawrdBody_disciplined (c : ConfigRegs) : disciplined .idle (rawrdBody c) false .input true = true := by
  have h : disciplined .idle (readWord .data Config.sampleBits ++ (⟨⟨.data, Config.sampleBits, 0⟩, .latchSample⟩ ::
      (pulses .trail c.trailPulses.toNat ++ (⟨⟨.recover, 0, 0⟩, .startPhase⟩ :: ⟨⟨.recover, 0, 0⟩, .clearRecn⟩ ::
        ⟨⟨.recover, 0, 0⟩, .recover⟩ :: completeAt .recover .sample)))) false .input true = true := by
    refine keeps_readWord _ _ _ _ _ ?_
    rw [disciplined]
    exact keeps_pulses _ _ _ _ _ (by decide)
  simp only [rawrdBody, List.append_assoc, List.cons_append, List.nil_append]
  refine waitReady_disciplined c ?_
  unfold recheckItems
  split
  · simp only [List.cons_append, List.nil_append, disciplined, h]
    decide
  · exact h

theorem regwrBody_disciplined (c : ConfigRegs) (reg data : Byte) :
    disciplined .idle (regwrBody c reg data) false .input true = true := by
  simp only [regwrBody, List.append_assoc]
  exact preamble_disciplined c
    (keeps_writeWord _ _ _ _ _ _ _ (keeps_writeWord _ _ _ _ _ _ _ (keeps_pulses _ _ _ _ _ (by decide))))

theorem regrdBody_disciplined (c : ConfigRegs) (reg : Byte) :
    disciplined .idle (regrdBody c reg) false .input true = true := by
  simp only [regrdBody, List.append_assoc]
  exact preamble_disciplined c (keeps_writeWord _ _ _ _ _ _ _
    (keeps_turn _ _ _ _ (keeps_readWord _ _ _ _ _ (keeps_pulses _ _ _ _ _ (by decide)))))

/-- The body of every command but ATTACH, from rest with the pins driven. -/
theorem bodyOf_disciplined (i : Instr) (h : i ≠ .attach) (c : ConfigRegs) :
    disciplined .idle (bodyOf i c) false .input true = true := by
  cases i with
  | rdbit => rfl
  | wrbit data =>
    exact keeps_phaseOf .idle .prim [writeCell c (bitOperand data)]
      (fun x hx k => by rw [List.mem_singleton.mp hx]; exact keeps_writeCell _ _ _ _ _) _ _ (by decide)
  | pulse => rfl
  | waitrdy => exact waitReady_disciplined c (by decide)
  | rawrd => exact rawrdBody_disciplined c
  | regwr reg data => exact regwrBody_disciplined c reg data
  | regrd reg => exact regrdBody_disciplined c reg
  | chiprst => rfl
  | attach => exact absurd rfl h
  | detach => rfl

/-- The body of ATTACH, from rest with the pins not driven. -/
theorem attach_disciplined (c : ConfigRegs) : disciplined .detached (bodyOf .attach c) false .input false = true := rfl

end Sys2Proof.Machine
end

