-- ==== Sys2Proof/Laws/Encoding.lean ====
section
/-! SUPPORT. The fields of a command word (30_encoding.md R90): reading them back, and a word from its fields. -/

namespace Sys2Proof

theorem opField_commandWord (op reg data : Byte) : opField (commandWord op reg data) = op := by
  apply BitVec.eq_of_getLsbD_eq
  intro i hi
  simp only [opField, commandWord, BitVec.getLsbD_extractLsb', BitVec.getLsbD_append]
  simp [hi, show ¬ 24 + i < 8 by omega, show ¬ 24 + i - 8 < 8 by omega, show ¬ 24 + i - 8 - 8 < 8 by omega,
    show 24 + i - 8 - 8 - 8 = i by omega]

theorem zeroField_commandWord (op reg data : Byte) : zeroField (commandWord op reg data) = 0#8 := by
  apply BitVec.eq_of_getLsbD_eq
  intro i hi
  simp only [zeroField, commandWord, BitVec.getLsbD_extractLsb', BitVec.getLsbD_append]
  simp [show ¬ 16 + i < 8 by omega, show ¬ 16 + i - 8 < 8 by omega, show 16 + i - 8 - 8 < 8 by omega]

theorem regField_commandWord (op reg data : Byte) : regField (commandWord op reg data) = reg := by
  apply BitVec.eq_of_getLsbD_eq
  intro i hi
  simp only [regField, commandWord, BitVec.getLsbD_extractLsb', BitVec.getLsbD_append]
  simp [hi, show ¬ 8 + i < 8 by omega, show 8 + i - 8 = i by omega]

theorem dataField_commandWord (op reg data : Byte) : dataField (commandWord op reg data) = data := by
  apply BitVec.eq_of_getLsbD_eq
  intro i hi
  simp only [dataField, commandWord, BitVec.getLsbD_extractLsb', BitVec.getLsbD_append]
  simp [hi]

/-- A word is its four fields. -/
theorem word_of_fields (w : Word) : opField w ++ zeroField w ++ regField w ++ dataField w = w := by
  apply BitVec.eq_of_getLsbD_eq
  intro i hi
  simp only [opField, zeroField, regField, dataField, BitVec.getLsbD_append, BitVec.getLsbD_extractLsb']
  by_cases h1 : i < 8
  · simp [h1]
  · by_cases h2 : i - 8 < 8
    · simp [h1, h2, show 8 + (i - 8) = i by omega]
    · by_cases h3 : i - 8 - 8 < 8
      · simp [h1, h2, h3, show 16 + (i - 8 - 8) = i by omega]
      · simp [h1, h2, h3, show 24 + (i - 8 - 8 - 8) = i by omega, show i - 8 - 8 - 8 < 8 by omega]

/-- A word whose `zero` field is 0 is the command word of its other fields. -/
theorem commandWord_of_fields {w : Word} (h : zeroField w = 0#8) :
    commandWord (opField w) (regField w) (dataField w) = w := by
  conv_rhs => rw [← word_of_fields w, h]
  rfl

end Sys2Proof
end

