-- ==== Sys2Proof/Laws/HostSystem.lean ====
section
/-! SUPPORT. The host at work: what each of its operations does to whom, and what a move can do. -/

namespace Sys2Proof.Facade

open Sys2Proof.Machine

/-! ### The calls in progress -/

/-- The call found for a caller is that caller's. -/
theorem activity_caller {y : System} {k : Nat} {a : Activity} (h : y.activity k = some a) : a.caller = k := by
  simpa using List.find?_some h

/-- The call found depends on the calls alone. -/
theorem activity_congr {y z : System} (h : z.calls = y.calls) {k : Nat} : z.activity k = y.activity k := by
  unfold System.activity; rw [h]

@[simp] theorem put_host (y : System) (a : Activity) : (y.put a).host = y.host := rfl
@[simp] theorem put_engine (y : System) (a : Activity) : (y.put a).engine = y.engine := rfl
@[simp] theorem put_answers (y : System) (a : Activity) : (y.put a).answers = y.answers := rfl

/-- The call that goes on is the one found after. -/
theorem put_activity_self {y : System} {a b : Activity} (h : y.activity a.caller = some b) :
    (y.put a).activity a.caller = some a := by
  unfold System.activity System.put at *
  induction hc : y.calls with
  | nil => simp [hc] at h
  | cons c cs ih =>
    clear ih
    revert h
    rw [hc]
    induction c :: cs with
    | nil => simp
    | cons d ds ih =>
      by_cases hd : d.caller = a.caller
      · simp [hd]
      · simpa [hd] using ih

/-- The calls of the others stay. -/
theorem put_activity_other (y : System) {a : Activity} {k : Nat} (h : k ≠ a.caller) :
    (y.put a).activity k = y.activity k := by
  unfold System.activity System.put
  simp only
  induction y.calls with
  | nil => rfl
  | cons d ds ih =>
    by_cases hd : d.caller = a.caller
    · have hk : d.caller ≠ k := fun e => h (e ▸ hd)
      simp [hd, h.symm, ih]
    · by_cases hk : d.caller = k
      · subst hk; simp [hd]
      · simp [hd, hk, ih]

@[simp] theorem next_caller (a : Activity) : a.next.caller = a.caller := rfl
@[simp] theorem fail_caller (a : Activity) (reply : Answer) : (a.fail reply).caller = a.caller := rfl
@[simp] theorem succeed_caller (a : Activity) (e : Effect) (r : Response) : (a.succeed e r).caller = a.caller := by
  cases e <;> rfl
@[simp] theorem cut_caller (a : Activity) : a.cut.caller = a.caller := by unfold Activity.cut; split <;> rfl

/-! ### An engine reset strikes -/

@[simp] theorem struck_handle (p : Params) (c : Bool) (h : HostState) : (h.struck p c).handle = false := rfl
@[simp] theorem struck_lock (p : Params) (c : Bool) (h : HostState) : (h.struck p c).lock = none := rfl
@[simp] theorem struck_task (p : Params) (c : Bool) (h : HostState) : (h.struck p c).task = .absent := rfl
@[simp] theorem struck_desynced (p : Params) (c : Bool) (h : HostState) : (h.struck p c).desynced = (h.desynced || c) := rfl
@[simp] theorem strike_host (p : Params) (y : System) (t : State) :
    (y.strike p t).host = y.host.struck p (decide (y.engine.eng = .busy)) := rfl
@[simp] theorem strike_engine (p : Params) (y : System) (t : State) :
    (y.strike p t).engine = { t with waiting := [] } := rfl
@[simp] theorem strike_answers (p : Params) (y : System) (t : State) : (y.strike p t).answers = y.answers := rfl

/-- Every call is cut, each at its place (70_reset_and_hazards.md R296). -/
theorem strike_activity (p : Params) (y : System) (t : State) (k : Nat) :
    (y.strike p t).activity k = (y.activity k).map Activity.cut := by
  unfold System.activity System.strike
  simp only
  induction y.calls with
  | nil => rfl
  | cons a as ih => by_cases h : a.caller = k <;> simp [h, ih]

/-- A call that waits for a response ends. -/
theorem cut_awaiting {a : Activity} {since : Nat} {e : Effect} (h : a.place = .awaiting since e) :
    a.cut = { a with jobs := [], place := .ready, reply := .rejected .resourceUnavailable } := by
  unfold Activity.cut; simp [h]

/-- A reset lands exactly when one is due (10_state.md R20; log 11). -/
theorem resetDue_iff (s : State) : resetDue s = true ↔ ∃ rest, s.hostIn = ⟨0, .engineReset⟩ :: rest := by
  unfold resetDue
  split <;> simp [*]

/-- With nothing scheduled none is. -/
theorem resetDue_of_hostIn {s : State} (h : s.hostIn = []) : resetDue s = false := by unfold resetDue; rw [h]

/-- The engine move in which one lands. -/
theorem engineMove_reset (p : Params) {y : System} {rest : List HostIn} (h : y.engine.hostIn = ⟨0, .engineReset⟩ :: rest) :
    y.engineMove p = y.strike p ({ y.engine with hostIn := rest }.hostAct .engineReset) := by
  have hr : resetDue y.engine = true := (resetDue_iff _).mpr ⟨rest, h⟩
  unfold System.engineMove step
  simp only [h, if_true, hr]

/-! ### One lemma for each operation -/

/-- Nothing has to wait: the lock is free and the command is not held back. -/
theorem blocked_eq_false {y : System} {i : Instr} :
    y.blocked i = false ↔ y.host.lock = none ∧ y.host.holdsBack i = false := by
  unfold System.blocked; cases y.host.lock <;> simp

/-- With the chip in step, or no handle, no command is held back. -/
theorem holdsBack_eq_false {h : HostState} (hd : ¬ (h.handle = true ∧ h.desynced = true)) (i : Instr) :
    h.holdsBack i = false := by
  unfold HostState.holdsBack
  cases hh : h.handle <;> cases hs : h.desynced <;> simp_all

/-- `present`: the caller waits, or it takes the lock and its command is presented. -/
theorem present_cases (y : System) (a : Activity) (i : Instr) (e : Effect) :
    (y.blocked i = true ∧ y.present a i e = y) ∨
      (y.blocked i = false ∧ y.present a i e =
        ({ y with
            host := { y.host with lock := some a.caller }
            engine := y.engine.hostAct (.present ⟨callerRequester a.caller, encode i⟩) } : System).put
          { a with place := .awaiting y.engine.responses.length e }) := by
  unfold System.present
  cases y.blocked i with
  | false => exact .inr ⟨rfl, rfl⟩
  | true => exact .inl ⟨rfl, rfl⟩

theorem present_settings (y : System) (a : Activity) (i : Instr) (e : Effect) :
    (y.present a i e).host.settings = y.host.settings := by
  rcases present_cases y a i e with ⟨_, h⟩ | ⟨_, h⟩ <;> rw [h]
  rfl

theorem present_other (y : System) (a : Activity) (i : Instr) (e : Effect) {k : Nat} (hk : k ≠ a.caller) :
    (y.present a i e).activity k = y.activity k := by
  rcases present_cases y a i e with ⟨_, h⟩ | ⟨_, h⟩ <;> rw [h]
  exact put_activity_other _ hk

/-- A job changes the in-memory fields only when it is the configuration load (R216, R222), or the engine reset of an attach,
after which no handle exists (10_state.md R21). -/
theorem doJob_settings (p : Params) (y : System) (a : Activity) (j : Job) :
    (y.doJob p a j).host.settings = y.host.settings ∨
      (∃ q, j = .load q ∧ (y.doJob p a j).host.settings = q.settings p.defaults) ∨
      (j = .engineReset ∧ y.host.handle = false ∧
        (y.doJob p a j).host = y.host.struck p (decide (y.engine.eng = .busy))) := by
  have hpres : ∀ (z : System) (i : Instr) (e : Effect), z.host.settings = y.host.settings →
      (z.present a i e).host.settings = y.host.settings := fun z i e hz => by rw [present_settings z a i e, hz]
  cases j
  case load q =>
    by_cases h : y.host.lock.isSome
    · exact .inl (by simp [System.doJob, h])
    · exact .inr (.inl ⟨q, rfl, by simp [System.doJob, h]⟩)
  case engineReset =>
    by_cases h : y.host.handle
    · exact .inl (by simp [System.doJob, h])
    · exact .inr (.inr ⟨rfl, by simpa using h, by simp [System.doJob, h]⟩)
  all_goals left; simp only [System.doJob, System.presentApply]
  case powerCycle asked =>
    split
    · exact hpres y _ _ rfl
    · rfl
  case command i e => exact hpres y i e rfl
  case apply ch => exact hpres y _ _ rfl
  case writeOffset v => exact hpres y _ _ rfl
  case switchChannel c =>
    split
    · rfl
    · split
      · rfl
      · exact hpres y _ _ rfl
  case boundedWait t =>
    split
    · rfl
    · exact hpres _ _ _ rfl
  case giveLatest => split <;> rfl
  case settle => rfl
  case requestStop => rfl
  case setRunning b => rfl
  all_goals split <;> rfl

/-- A job leaves the calls of the others alone, but for the engine reset of an attach. -/
theorem doJob_other (p : Params) (y : System) (a : Activity) (j : Job) {k : Nat} (hk : k ≠ a.caller)
    (hj : j = .engineReset → y.host.handle = true) : (y.doJob p a j).activity k = y.activity k := by
  have hput : ∀ (z : System) (b : Activity), b.caller = a.caller → z.calls = y.calls →
      (z.put b).activity k = y.activity k := fun z b hb hz => by
    rw [put_activity_other z (by rw [hb]; exact hk), activity_congr hz]
  have hpres : ∀ (z : System) (i : Instr) (e : Effect), z.calls = y.calls →
      (z.present a i e).activity k = y.activity k := fun z i e hz => by
    rw [present_other z a i e hk, activity_congr hz]
  cases j with
  | engineReset =>
    simp only [System.doJob, hj rfl, if_true]
    exact hput y (a.fail (.rejected .invalidArgument)) rfl rfl
  | configure c =>
    simp only [System.doJob]
    split
    · rfl
    · exact hput _ a.next rfl rfl
  | command i e => exact hpres y i e rfl
  | powerCycle asked =>
    simp only [System.doJob]
    split
    · exact hpres y .chiprst .powerCycled rfl
    · exact hput y a.next rfl rfl
  | apply ch => exact hpres y _ _ rfl
  | switchChannel c =>
    simp only [System.doJob]
    split
    · rfl
    · split
      · exact hput y a.next rfl rfl
      · exact hpres y _ _ rfl
  | settle => exact hput y { a with place := .asleep (y.engine.now + p.tSettle) } rfl rfl
  | giveLatest =>
    simp only [System.doJob]
    split
    · exact hput y (a.fail (.rejected .busy)) rfl rfl
    · rename_i x _
      exact hput y { a.next with reply := .sample x } rfl rfl
  | writeOffset v => exact hpres y _ _ rfl
  | boundedWait t =>
    simp only [System.doJob]
    split
    · rfl
    · exact hpres _ .waitrdy .nothing rfl
  | load q =>
    simp only [System.doJob]
    split
    · rfl
    · exact hput _ a.next rfl rfl
  | startLoop =>
    simp only [System.doJob]
    split
    · exact hput _ a.next rfl rfl
    · exact hput y a.next rfl rfl
  | requestStop => exact hput _ a.next rfl rfl
  | awaitExit =>
    simp only [System.doJob]
    split
    · exact hput y a.next rfl rfl
    · rfl
  | setRunning b => exact hput _ a.next rfl rfl
  | clearStatistics =>
    simp only [System.doJob]
    split
    · rfl
    · exact hput _ a.next rfl rfl
  | clearBuffer =>
    simp only [System.doJob]
    split
    · rfl
    · exact hput _ a.next rfl rfl

/-- `receive`: on `Ok` the effect, else nothing; the lock is free either way (20_memory.md R77). -/
theorem receive_host (p : Params) (y : System) (a : Activity) (e : Effect) (r : Response) :
    (y.receive p a e r).host =
      if r.status = .ok then { e.act p y.host with lock := none } else { y.host with lock := none } := by
  unfold System.receive; split <;> rfl

/-- `taskMove`: the task goes on, or it presents its RAWRD, or it publishes; the in-memory fields and the calls stay
(R224, R225). -/
theorem taskMove_frame (p : Params) (y : System) :
    (y.taskMove p).host.settings = y.host.settings ∧ (y.taskMove p).calls = y.calls ∧
      (y.taskMove p).answers = y.answers ∧ (y.taskMove p).host.lock = y.host.lock := by
  unfold System.taskMove
  dsimp only
  split
  · exact ⟨rfl, rfl, rfl, rfl⟩
  · exact ⟨rfl, rfl, rfl, rfl⟩
  · split
    · exact ⟨rfl, rfl, rfl, rfl⟩
    · split <;> exact ⟨rfl, rfl, rfl, rfl⟩
  · split <;> exact ⟨rfl, rfl, rfl, rfl⟩
  · split <;> exact ⟨rfl, rfl, rfl, rfl⟩
  · split
    · exact ⟨rfl, rfl, rfl, rfl⟩
    · split
      · split <;> exact ⟨rfl, rfl, rfl, rfl⟩
      · exact ⟨rfl, rfl, rfl, rfl⟩

/-- The engine's move is its step, when no engine reset lands. -/
theorem engineMove_eq (p : Params) {y : System} {t : State} (h : step y.engine = .next t) (hr : resetDue y.engine = false) :
    y.engineMove p = { y with engine := t } := by
  unfold System.engineMove; rw [h, hr]; rfl

/-- An engine at rest runs the one command presented to it (20_memory.md R75). -/
theorem step_presented {s : State} {i : Instr} (hq : s.acceptsQuietly) (hw : s.waiting = []) (c : HostCmd)
    (hd : decode c.word = .ok i) : step (s.hostAct (.present c)) = exec i (s.serve c []) := by
  have h1 : (s.hostAct (.present c)).hostIn = [] := hq.2
  have h2 : (s.hostAct (.present c)).arbitrate = some (c, s.serve c []) := by
    simp [State.hostAct, State.arbitrate, hw, State.serve]
  have h3 : (s.hostAct (.present c)).eng = s.eng := rfl
  unfold step
  rw [h1]
  simp only [engineTurn, h2, h3]
  cases he : s.eng with
  | busy => exact absurd he hq.1
  | idle => simp [hd]
  | detached => simp [hd]

/-- SETCR 0 to 7 on an engine that is not BUSY (10_state.md R28): only the configuration changes, and each register then reads
as given. -/
theorem setRegisters_spec (s : State) (c : ConfigRegs) (h : s.eng ≠ .busy) :
    ∃ cfg, setRegisters s c = { s with cfg := cfg } ∧ ∀ n, cfg.get n = c.get n := by
  refine ⟨⟨c.mode &&& modeMask, c.cmdcode &&& cmdcodeMask, c.timeout, c.tHigh, c.tLow, c.tPoll, c.tReset, c.tStartup⟩,
    ?_, fun n => ?_⟩
  · simp [setRegisters, List.range, List.range.loop, State.hostAct, State.hostWrite, h, ConfigRegs.set, ConfigRegs.get,
      BitVec.and_assoc]
  · rcases n with _ | _ | _ | _ | _ | _ | _ | _ | n <;> simp [ConfigRegs.get, BitVec.and_assoc]

/-! ### A caller in its call, beside the others -/

/-- The system with one call in progress more. -/
def System.withCall (y : System) (a : Activity) : System := { y with calls := y.calls ++ [a] }

@[simp] theorem withCall_host (y : System) (a : Activity) : (y.withCall a).host = y.host := rfl
@[simp] theorem withCall_engine (y : System) (a : Activity) : (y.withCall a).engine = y.engine := rfl
@[simp] theorem withCall_answers (y : System) (a : Activity) : (y.withCall a).answers = y.answers := rfl

/-- An engine reset cuts it off with the others. -/
theorem withCall_strike (p : Params) (y : System) (a : Activity) (t : State) :
    (y.withCall a).strike p t = (y.strike p t).withCall a.cut := by
  unfold System.withCall System.strike; simp only [List.map_append, List.map_cons, List.map_nil]

/-- A caller that is in no call is not that of any call in progress. -/
theorem caller_ne_of_activity_none {y : System} {k : Nat} (h : y.activity k = none) : ∀ a ∈ y.calls, a.caller ≠ k := by
  intro a ha; simpa using List.find?_eq_none.mp h a ha

/-- A caller in no call, whose call the host does not reject, is in it after making it. -/
theorem begin_fresh (p : Params) {y : System} {k : Nat} {c : Call} (h : y.activity k = none)
    (hr : c.rejection y.host = none) :
    y.move p (.call k c) = y.withCall ⟨k, c.jobs p y.host, .ready, .answered .ok⟩ := by
  simp [System.move, System.begin, h, hr, System.withCall]

/-- A call the host rejects is answered at once, and nothing else changes (R235). -/
theorem begin_rejected (p : Params) {y : System} {k : Nat} {c : Call} {st : Status} (h : y.activity k = none)
    (hr : c.rejection y.host = some st) :
    y.move p (.call k c) = { y with answers := y.answers ++ [(k, .rejected st)] } := by
  simp [System.move, System.begin, h, hr]

section
variable {y : System} {a : Activity} (h : y.activity a.caller = none)
include h

theorem withCall_activity : (y.withCall a).activity a.caller = some a := by
  unfold System.activity System.withCall at *
  simp [List.find?_append, h]

theorem withCall_put {b : Activity} (hb : b.caller = a.caller) : (y.withCall a).put b = y.withCall b := by
  have hne := caller_ne_of_activity_none h
  unfold System.put System.withCall
  simp only [List.map_append, List.map_cons, hb, if_true, List.map_nil]
  congr 2
  conv_rhs => rw [← List.map_id y.calls]
  refine List.map_congr_left fun c hc => ?_
  simp [hne c hc]

/-- It moves. -/
theorem withCall_caller (p : Params) : (y.withCall a).move p (.caller a.caller) = (y.withCall a).callerMove p a := by
  simp only [System.move, withCall_activity h]

/-- It presents a command when it need not wait. -/
theorem withCall_present (i : Instr) (hb : y.blocked i = false) (e : Effect) :
    (y.withCall a).present a i e =
      ({ y with
          host := { y.host with lock := some a.caller }
          engine := y.engine.hostAct (.present ⟨callerRequester a.caller, encode i⟩) } : System).withCall
        { a with place := .awaiting y.engine.responses.length e } := by
  have hy : ∀ (g : HostState) (s : State), ({ y with host := g, engine := s } : System).activity a.caller = none :=
    fun _ _ => h
  refine Eq.trans ?_ (withCall_put (hy _ _) rfl)
  unfold System.present
  have hb' : (y.withCall a).blocked i = false := hb
  rw [hb']
  rfl

/-- It receives an `Ok`. -/
theorem withCall_receive_ok (p : Params) (e : Effect) {r : Response} (hr : r.status = .ok) :
    (y.withCall a).receive p a e r =
      ({ y with host := { e.act p y.host with lock := none } } : System).withCall (a.succeed e r) := by
  have hy : ∀ g : HostState, ({ y with host := g } : System).activity a.caller = none := fun _ => h
  refine Eq.trans ?_ (withCall_put (hy _) (succeed_caller a e r))
  unfold System.receive
  rw [if_pos hr]
  rfl

/-- It receives a failure. -/
theorem withCall_receive_failure (p : Params) (e : Effect) {r : Response} (hr : r.status ≠ .ok) :
    (y.withCall a).receive p a e r =
      ({ y with host := { y.host with lock := none } } : System).withCall (a.fail (.answered r.status)) := by
  have hy : ∀ g : HostState, ({ y with host := g } : System).activity a.caller = none := fun _ => h
  refine Eq.trans ?_ (withCall_put (hy _) (fail_caller a _))
  unfold System.receive
  rw [if_neg hr]
  rfl

/-- With nothing left to do it answers. -/
theorem withCall_done (p : Params) (hj : a.jobs = []) (hp : a.place = .ready) :
    (y.withCall a).move p (.caller a.caller) = { y with answers := y.answers ++ [(a.caller, a.reply)] } := by
  have hne := caller_ne_of_activity_none h
  rw [withCall_caller h]
  unfold System.callerMove
  rw [hp]
  simp only [hj]
  have : (y.withCall a).calls.filter (fun b => decide (b.caller ≠ a.caller)) = y.calls := by
    unfold System.withCall
    rw [List.filter_append, List.filter_eq_self.mpr (fun c hc => by simpa using hne c hc)]
    simp
  rw [this]
  rfl

end

/-- The engine moves beside it. -/
theorem withCall_engineMove (p : Params) {y : System} {t : State} (h : step y.engine = .next t)
    (hr : resetDue y.engine = false) (a : Activity) :
    (y.withCall a).move p .engine = ({ y with engine := t } : System).withCall a := by
  show (y.withCall a).engineMove p = _
  rw [engineMove_eq p (y := y.withCall a) h hr]
  rfl

/-- The response that has just been delivered is the one awaited. -/
theorem replyTo_last {s t : State} {r : Response} {who : Nat} (h : t.responses = s.responses ++ [r])
    (hw : r.who = who) : replyTo t s.responses.length who = some r := by
  simp [replyTo, h, hw]

end Sys2Proof.Facade
end

