-- ==== Sys2Proof/Laws/PerInstr.lean ====
section
/-! SUPPORT. Statements about every command, made per constructor: the word of a well-formed command lies in its row of
30_encoding.md R92. -/

namespace Sys2Proof.Laws

/-- The word of the command matches the row of the opcode table it belongs to. -/
def MatchesRow.Statement (i : Instr) : Prop := i.wellFormed = true → encode i &&& i.rowMask = i.rowMatch

theorem MatchesRow.rdbit : MatchesRow.Statement .rdbit := fun _ => by decide

theorem MatchesRow.wrbit (data : Byte) : MatchesRow.Statement (.wrbit data) := by
  unfold MatchesRow.Statement
  simp only [Instr.wellFormed, fitsFormatB, encode, commandWord, Instr.rowMask, Instr.rowMatch]
  revert data
  decide +kernel

theorem MatchesRow.pulse : MatchesRow.Statement .pulse := fun _ => by decide

theorem MatchesRow.waitrdy : MatchesRow.Statement .waitrdy := fun _ => by decide

theorem MatchesRow.rawrd : MatchesRow.Statement .rawrd := fun _ => by decide

theorem MatchesRow.regwr (reg data : Byte) : MatchesRow.Statement (.regwr reg data) := by
  intro _
  simp only [encode, commandWord, Instr.rowMask, Instr.rowMatch]
  have h : ∀ v : Byte, v &&& 0#8 = 0#8 := by decide
  rw [show (0xFFFF0000 : Word) = 0xFF#8 ++ 0xFF#8 ++ 0#8 ++ 0#8 by decide, BitVec.and_append, BitVec.and_append,
    BitVec.and_append, h, h]
  decide

theorem MatchesRow.regrd (reg : Byte) : MatchesRow.Statement (.regrd reg) := by
  intro _
  simp only [encode, commandWord, Instr.rowMask, Instr.rowMatch]
  revert reg
  decide +kernel

theorem MatchesRow.chiprst : MatchesRow.Statement .chiprst := fun _ => by decide

theorem MatchesRow.attach : MatchesRow.Statement .attach := fun _ => by decide

theorem MatchesRow.detach : MatchesRow.Statement .detach := fun _ => by decide

end Sys2Proof.Laws
end

