-- ==== Sys2Proof/Laws/Ports.lean ====
section
/-! SUPPORT. The trace as the record of the pins: what an item adds to it, and that the latches follow it. -/

namespace Sys2Proof.Machine

/-- `t` is `s` with some events more: the latches follow them, and each hold among them lasts at least its minimum, which
is what one of the timing registers of `s` holds. -/
def Traced (s t : State) : Prop :=
  ∃ evs, t.trace = s.trace ++ evs ∧ evs.foldl (fun q e => q.after e.pin) s.pins = t.pins ∧ t.cfg = s.cfg ∧
    ∀ e ∈ evs, ∀ n, e.pin = .hold n → n ≤ e.took ∧ ∃ i, n = s.cfg.interval i

/-- Nothing added. -/
theorem traced_same {s t : State} (h : t.trace = s.trace) (hp : t.pins = s.pins) (hc : t.cfg = s.cfg) : Traced s t :=
  ⟨[], by simp [h], hp.symm, hc, by simp⟩

theorem Traced.trans {s t u : State} (h : Traced s t) (g : Traced t u) : Traced s u := by
  obtain ⟨a, h1, h2, h3, h4⟩ := h
  obtain ⟨b, g1, g2, g3, g4⟩ := g
  refine ⟨a ++ b, by rw [g1, h1, List.append_assoc], by rw [List.foldl_append, h2, g2], g3.trans h3, ?_⟩
  intro e he n hn
  rcases List.mem_append.mp he with he | he
  · exact h4 e he n hn
  · rw [← h3]; exact g4 e he n hn

/-- One event. -/
theorem traced_event {s t : State} (e : Event) (h : t.trace = s.trace ++ [e]) (hp : t.pins = s.pins.after e.pin)
    (hc : t.cfg = s.cfg) (hh : ∀ n, e.pin = .hold n → n ≤ e.took ∧ ∃ i, n = s.cfg.interval i) : Traced s t :=
  ⟨[e], h, by rw [hp]; rfl, hc, by simpa using hh⟩

/-- A sample. -/
theorem smp_traced (s : State) : Traced s s.smp :=
  traced_event ⟨.smp s.line, s.slack⟩ (by simp) (by simp [Pins.after]) (by simp) (by simp)

/-- A `TIME()`. -/
theorem time_traced (s : State) : Traced s s.time :=
  traced_event ⟨.time, s.slack⟩ (by simp) (by simp [Pins.after]) (by simp) (by simp)

/-- What only moves the plan, the registers, the answers and the status adds nothing. -/
theorem Traced.onto {s t u : State} (h : Traced s t) (ht : u.trace = t.trace) (hp : u.pins = t.pins)
    (hc : u.cfg = t.cfg) : Traced s u := h.trans (traced_same ht hp hc)

/-- Every item the sequencer performs is recorded. -/
theorem perform_traced (s : State) (it : Item) : Traced s (s.perform it) := by
  obtain ⟨q, a⟩ := it
  cases a with
  | clk l =>
    exact traced_event ⟨.clk l, s.slack⟩ (by simp [State.perform, State.slack]) (by simp [State.perform, Pins.after])
      (by simp) (by simp)
  | dat l =>
    exact traced_event ⟨.dat l, s.slack⟩ (by simp [State.perform, State.slack]) (by simp [State.perform, Pins.after])
      (by simp) (by simp)
  | dir d =>
    exact traced_event ⟨.dir d, s.slack⟩ (by simp [State.perform, State.slack]) (by simp [State.perform, Pins.after])
      (by simp) (by simp)
  | hold i =>
    refine traced_event ⟨.hold (s.cfg.interval i), s.cfg.interval i + s.slack⟩ (by simp [State.perform])
      (by simp [State.perform, Pins.after]) (by simp) ?_
    intro n hn
    cases hn
    exact ⟨Nat.le_add_right _ _, i, rfl⟩
  | smp => exact (smp_traced s).onto rfl rfl rfl
  | setDeadline => exact (time_traced s).onto rfl rfl rfl
  | poll => rcases poll_cases s q with ⟨_, h⟩ | ⟨_, h⟩ <;> simp only [State.perform, h] <;>
      exact (smp_traced s).onto rfl rfl rfl
  | expire => rcases expire_cases s q with ⟨_, h⟩ | ⟨_, h⟩ <;> simp only [State.perform, h] <;>
      exact (time_traced s).onto rfl rfl rfl
  | recheck => rcases recheck_cases s with ⟨_, h⟩ | ⟨_, h⟩ <;> simp only [State.perform, h] <;>
      exact (smp_traced s).onto rfl rfl rfl
  | recover =>
    simp only [State.perform, State.recover]
    split
    · split <;> exact (smp_traced s).onto rfl rfl rfl
    · exact traced_same rfl rfl rfl
  | grant => rcases grant_cases s with ⟨_, h⟩ | ⟨_, h⟩ <;> simp only [State.perform, h] <;>
      exact traced_same rfl rfl rfl
  | acquire => exact traced_event ⟨.acquire, 0⟩ rfl rfl rfl (by simp)
  | release => exact traced_event ⟨.release, 0⟩ rfl rfl rfl (by simp)
  | check v => cases v <;> exact traced_same rfl rfl rfl
  | _ => exact traced_same rfl rfl rfl

/-- The sequencer's run is recorded. -/
theorem runItems_traced (n : Nat) (s : State) : Traced s (runItems n s) := by
  induction n generalizing s with
  | zero => exact traced_same rfl rfl rfl
  | succ n ih =>
    rw [runItems_succ]
    split
    · exact traced_same rfl rfl rfl
    · refine Traced.trans ?_ (ih s.sequence)
      unfold State.sequence
      split
      · exact traced_same rfl rfl rfl
      · rename_i it rest _
        exact (traced_same (s := s) (t := { s with todo := rest, hostIn := countDown s.hostIn }) rfl rfl rfl).trans
          (perform_traced _ it)

/-- The events a step adds, from the record. -/
theorem newEvents_of_append {s t : State} {evs : List Event} (h : t.trace = s.trace ++ evs) : newEvents s t = evs := by
  simp [newEvents, h]

/-- An event that writes a latch with the level it holds, and is no sample, is not seen (10_state.md R24). -/
theorem visible_skip {q : PinState} {m : Moment} {ms : List Moment} (hp : m.pins = q) (hs : m.sampled = false) :
    visible q (m :: ms) = visible q ms := by
  simp [visible, hp, hs]

end Sys2Proof.Machine
end

