-- ==== Sys2Proof/Tests/Slice0.lean ====
section
/-! SUPPORT. Tests of the model against the words, traces and values 95_test_vectors.md gives, the refusals of
WellFormed, and for each statement with hypotheses a state that meets them. -/

namespace Sys2Proof.Tests

open Sys2Proof.Machine Sys2Proof.Facade

-- One after the other: each of these theorems is a kernel evaluation, and together they need a thread each.
set_option Elab.async false

/-! ### Helpers -/

/-- The next state of an outcome. -/
def after (o : Host.Outcome State Fault Refusal) : Option State :=
  match o with
  | .next s => some s
  | .fault _ => none
  | .refused _ => none

/-- The `n` low bits of a number, most significant first. -/
def bits (v n : Nat) : List Bool := (List.range n).map fun k => v.testBit (n - 1 - k)

/-- An attached, idle engine with `T_HIGH = 3`, `T_LOW = 2`, in the reference timing for 400 micro-events. -/
def engine (mode cmdcode timeout tPoll : Word) (samples : List Bool) : State :=
  { State.reset with
    eng := .idle
    pins := ⟨false, false, .input, true⟩
    cfg := ⟨mode, cmdcode, timeout, 3, 2, tPoll, 200, 1000⟩
    env := { State.reset.env with samples := ⟨samples, 0⟩, slacks := ⟨List.replicate 400 0, 0⟩ } }

/-- The setting of section 4 of 95_test_vectors.md: dedicated wiring, basic variant, `T_POLL = 1000`. -/
def std (samples : List Bool) : State := engine 0 0 100000 1000 samples

/-- Profile P4 on it, with `CMD_RD = 0`. -/
def stdP4 (samples : List Bool) : State := engine 0x00040000 0x00070008 100000 1000 samples

/-- Profile P7 in shared, inverted wiring, with `CMD_RD = 0x56`. -/
def stdP7 (samples : List Bool) : State := engine 0x00070003 0x00005665 100000 1000 samples

/-- Right after reset, with an answer of the platform. -/
def detached (grant : Bool) : State :=
  { State.reset with env := { State.reset.env with grants := ⟨[grant], 0⟩ } }

/-- Host parameters: layout L0, the configuration register 0, the offset register 1, all defaults 0. -/
def params : Params :=
  ⟨.extended, 0, 1, layoutL0, Config.vrefExtended, 500, 300, 4, ⟨0, 0, 0, false, false, false, 0⟩⟩

/-- A host with its handle, in front of an engine, and its background task somewhere. -/
def attachedTo (s : State) (task : Task) : System :=
  ⟨{ HostState.unattached params with
      handle := true, running := true, task := task, latest := some 99, history := History.create 4 }, s, [], []⟩

/-- What a command leaves. -/
def ran (i : Instr) (s : State) : Option State := after (exec i s)

/-- The levels driven on the data pin, in order. -/
def driven (es : List PinEvent) : List Bool :=
  es.filterMap fun e => match e with
    | .dat l => some l
    | _ => none

/-! ### WellFormed refuses -/

theorem test_wrbit_data_1_refused : (Instr.wrbit 2).wellFormed = false := by decide

theorem test_wrbit_data_7_refused : (Instr.wrbit 0x80).wellFormed = false := by decide

theorem test_wrbit_0_and_1_accepted : (Instr.wrbit 0).wellFormed = true ∧ (Instr.wrbit 1).wellFormed = true := by decide

/-! ### Decoding, from words written out field by field (30_encoding.md R90 to R93) -/

theorem test_decode_rdbit : decode 0b00000001000000000000000000000000 = .ok .rdbit := by decide

theorem test_decode_wrbit : decode 0b00000010000000000000000000000001 = .ok (.wrbit 1) := by decide

theorem test_decode_pulse : decode 0b00000011000000000000000000000000 = .ok .pulse := by decide

theorem test_decode_waitrdy : decode 0b00000100000000000000000000000000 = .ok .waitrdy := by decide

theorem test_decode_rawrd : decode 0b00010000000000000000000000000000 = .ok .rawrd := by decide

theorem test_decode_regwr : decode 0b00010001000000000000001010100101 = .ok (.regwr 2 0xA5) := by decide

theorem test_decode_regrd : decode 0b00010010000000000000001100000000 = .ok (.regrd 3) := by decide

theorem test_decode_chiprst : decode 0b00100000000000000000000000000000 = .ok .chiprst := by decide

theorem test_decode_attach : decode 0b00110000000000000000000000000000 = .ok .attach := by decide

theorem test_decode_detach : decode 0b00110001000000000000000000000000 = .ok .detach := by decide

/-- V6, V9, V40, V47, V48: reserved words. -/
theorem test_reserved_words :
    decode 0x02000002 = .error (.forbiddenOperand 0 2) ∧ decode 0x01000100 = .error (.forbiddenOperand 1 0) ∧
      decode 0x12000005 = .error (.forbiddenOperand 0 5) ∧ decode 0x05000000 = .error (.unknownOp 5) ∧
      decode 0x10010000 = .error (.nonZeroZeroField 1) := by decide

/-- The word placed for a test is the word decoded. -/
theorem test_decodeTableWord : decodeTableWord 32 0x110002A5 = some (.regwr 2 0xA5) ∧
    decodeTableWord 32 0x110102A5 = none := by decide

/-- 00_scope.md R6: the fields of the profiles and of the extended variant. -/
theorem test_profiles :
    State.reset.cfg.profileP4.cmdWidth = 4 ∧ State.reset.cfg.profileP4.cmdWr = 0x08 ∧
      State.reset.cfg.profileP4.regMask = 0x07 ∧ State.reset.cfg.profileP7.cmdWidth = 7 ∧
      State.reset.cfg.profileP7.cmdWr = 0x65 ∧ State.reset.cfg.profileP7.regMask = 0 ∧
      (State.reset.cfg.extended true 50000).trailPulses = 3 ∧
      (State.reset.cfg.extended true 50000).recoverMax = 5 ∧ (State.reset.cfg.extended false 50000).trailPulses = 3 ∧
      (State.reset.cfg.extended false 50000).recoverMax = 0 ∧ (State.reset.cfg.extended false 50000).timeout = 50000 ∧
      State.reset.cfg.basic.timeout = 100000 := by decide

/-! ### One step of each command -/

/-- V1: the trace and the value. -/
theorem test_rdbit : (ran .rdbit (std [true])).map (fun t => (seen t.trace, t.regs.result, t.now))
    = some ([.clk true, .hold 3, .smp true, .clk false, .hold 2], 1, 5) := by decide +kernel

/-- V8: refused while detached. -/
theorem test_rdbit_detached : (ran .rdbit (detached true)).map (fun t => (t.statusWord, seen t.trace))
    = some (0x00000010, []) := by decide +kernel

/-- V5: shared, inverted. -/
theorem test_wrbit : (ran (.wrbit 0) (engine 3 0 100000 1000 [])).map (fun t => (seen t.trace, t.pins))
    = some ([.dir .output, .dat true, .clk true, .hold 3, .clk false, .hold 2, .dir .input],
        ⟨false, true, .input, true⟩) := by decide +kernel

/-- V6: a reserved form of it. -/
theorem test_wrbit_ill_formed : (ran (.wrbit 2) (std [])).map (fun t => (t.status.code, t.status.lastop, seen t.trace))
    = some (.invalidArgument, 0x02, []) := by decide +kernel

/-- V7. -/
theorem test_pulse : (ran .pulse (std [])).map (fun t => (seen t.trace, t.status.lastop))
    = some ([.clk true, .hold 3, .clk false, .hold 2], 0x03) := by decide +kernel

/-- V16: the low sample at the deadline wins. -/
theorem test_waitrdy : (ran .waitrdy (engine 0 0 2000 1000 [true, true, false])).map
      (fun t => (seen t.trace, t.status.code, t.now))
    = some ([.smp true, .hold 1000, .smp true, .hold 1000, .smp false], .ok, 2000) := by decide +kernel

/-- V18: the timeout. -/
theorem test_waitrdy_timeout : (ran .waitrdy (engine 0 0 2500 1000 [true, true, true, true])).map
      (fun t => (t.statusWord, t.status.lasttmo, t.now)) = some (0x00000005, 2500, 3000) := by decide +kernel

/-- V20: the sign-extended sample. -/
theorem test_rawrd : (ran .rawrd (std (false :: bits 0xABCDEF 24))).map
      (fun t => (t.regs.result.toInt, pulseCount (seen t.trace))) = some (-5517841, 24) := by decide +kernel

/-- V23: trailing pulses and two recovery pulses. -/
theorem test_rawrd_recovery :
    (ran .rawrd (engine 0x5300 0 100000 1000 (false :: bits 0x10 24 ++ [false, false, true]))).map
      (fun t => (t.regs.result, t.statusWord, pulseCount (seen t.trace))) = some (16, 0x00000041, 29) := by
  decide +kernel

/-- V32: profile P7, shared and inverted. -/
theorem test_regwr : (ran (.regwr 0 0x1C) (stdP7 (false :: bits 0 24))).map
      (fun t => (driven (seen t.trace), t.pins, pulseCount (seen t.trace)))
    = some (bits 0b001101011100011 15, ⟨false, true, .input, true⟩, 41) := by decide +kernel

/-- V31: an address outside the mask. -/
theorem test_regwr_address : (ran (.regwr 8 0) (stdP4 [])).map (fun t => (t.statusWord, seen t.trace))
    = some (0x00000009, []) := by decide +kernel

/-- V35: the value is zero-extended. -/
theorem test_regrd : (ran (.regrd 3) (stdP4 (false :: bits 0 24 ++ bits 0xFF 8))).map
      (fun t => (driven (seen t.trace), t.regs.result, pulseCount (seen t.trace)))
    = some (bits 0b0011 4, 255, 38) := by decide +kernel

/-- V37: a command width of 0 or 9. -/
theorem test_regrd_width :
    (ran (.regrd 0) (engine 0 0 100000 1000 [])).map (fun t => t.status.code) = some .invalidArgument ∧
      (ran (.regrd 0) (engine 0x00090000 0 100000 1000 [])).map (fun t => t.status.code) = some .invalidArgument := by
  decide +kernel

/-- V46. -/
theorem test_chiprst : (ran .chiprst (std [])).map (fun t => (seen t.trace, t.now))
    = some ([.clk true, .hold 200, .clk false, .hold 1000], 1200) := by decide +kernel

/-- V41, V42. -/
theorem test_attach :
    (ran .attach (detached true)).map (fun t => (t.eng, t.statusWord, t.pins))
        = some (.idle, 0x00000001, ⟨false, false, .input, true⟩) ∧
      (ran .attach (detached false)).map (fun t => (t.eng, t.statusWord, t.pins))
        = some (.detached, 0x00000010, ⟨false, false, .input, false⟩) := by decide +kernel

/-- V44. -/
theorem test_detach : (ran .detach (std [])).map (fun t => (t.eng, t.statusWord, t.pins.drive))
    = some (.detached, 0x00000000, false) := by decide +kernel

/-- V49: a write to CR2 while a RAWRD polls is dropped, and the wait goes on. -/
theorem test_write_while_busy :
    ((ran .rawrd { engine 0 0 2500 1000 [true, true, true, true] with
        hostIn := [⟨6, .write (.cr 2) 5⟩] }).bind fun t => after (step t)).map (fun t => (t.eng, t.cfg.timeout, t.seq.phase))
      = some (.busy, 2500, .wait) := by decide +kernel

/-! ### Host tables (95_test_vectors.md section 4.7) -/

/-- V50, V51, V52. -/
theorem test_host_tables :
    codeFor 20 = none ∧ codeFor 1281 = none ∧ codeFor 640 = some 2 ∧
      scaleFor params 3 = (3300, 1073741824) ∧
      pack layoutL0 ⟨1, 1, 0, false, false, false, 0⟩ = 0x05 ∧ pack layoutL0 ⟨3, 3, 3, false, false, false, 0⟩ = 0x3F ∧
      pack layoutL0 ⟨2, 0, 1, false, false, false, 0⟩ = 0x18 := by decide

/-- V53. -/
theorem test_history : [1, 2, 3, 4, 5, 6].foldl History.append (History.create 4) = ⟨[5, 6, 3, 4], 2⟩ := by decide

/-- S7: rate 40 Hz and gain ×2 go out as 0x05 to register 0, and read back as 40 and (3300, 8388608 * 2). -/
theorem test_apply :
    (let z := (attachedTo (stdP4 (false :: bits 0 24)) .absent).run params
        [.call 0 (.apply (.fields ⟨1, 1, 0, false, false, false, 0⟩)), .caller 0, .engine, .caller 0, .caller 0]
     (z.host.readRate, readScale params z.host.settings.gain, z.answers, driven (seen z.engine.trace)))
      = (40, (3300, 8388608 * 2), [(0, .answered .ok)], bits 0b1000 4 ++ bits 0x05 8) := by decide +kernel

/-- V55: the low 8 bits go out, the value is stored. -/
theorem test_write_offset :
    (let z := (attachedTo (stdP4 (false :: bits 0 24)) .absent).run params
        [.call 0 (.writeOffset 300), .caller 0, .engine, .caller 0, .caller 0]
     (z.host.readOffset, driven (seen z.engine.trace))) = (300, bits 0b1001 4 ++ bits 0x2C 8) := by decide +kernel

/-- 30_encoding.md R105: the bound is in CR2 before WAITRDY is accepted. -/
theorem test_wait_ready :
    (let z := (attachedTo (std [false]) .absent).run params
        [.call 3 (.waitReady 77), .caller 3, .engine, .caller 3, .caller 3]
     (z.engine.cfg.timeout, z.engine.status, z.answers)) = (77, ⟨.ok, 0x04, 77⟩, [(3, .answered .ok)]) := by
  decide +kernel

/-- 44_host_config_and_sampling.md R219: a sample published in the settle period is the one answered. -/
theorem test_read_channel :
    ((attachedTo { stdP4 (false :: bits 0 24) with
        env := { (stdP4 (false :: bits 0 24 ++ false :: bits 7 24)).env with picks := ⟨[0], 0⟩ } } (.sleeping 0)).run params
        [.call 0 (.readChannel 2), .caller 0, .task, .engine, .caller 0, .caller 0, .engine, .task, .pass 500,
          .caller 0, .caller 0, .caller 0]).answers = [(0, .sample 7)] := by decide +kernel

/-- The bring-up of 70_reset_and_hazards.md R285, with the chip's power-cycle. -/
theorem test_probe :
    (let z := (System.initial params { detached true with
        env := { (std (false :: bits 0 24)).env with grants := ⟨[true], 0⟩ } }).run params
        ([.call 0 (.probe (stdP4 []).cfg true ⟨some 1, some 2, none, none, none, none, some 6⟩), .caller 0, .caller 0,
          .caller 0, .engine, .caller 0, .caller 0, .engine, .caller 0, .caller 0, .caller 0, .engine, .caller 0,
          .caller 0, .caller 0])
     (z.host.task, z.host.history, z.answers, driven (seen z.engine.trace)))
      = (.testing, History.create 6, [(0, .answered .ok)], bits 0b1000 4 ++ bits 0b00000110 8) := by decide +kernel

/-- 70_reset_and_hazards.md R296: an engine reset in the middle of the task's RAWRD, with an apply() waiting; the call ends,
the handle, the lock and the task are gone. -/
def resetMidFrame : System :=
  (attachedTo { std [false] with hostIn := [⟨8, .engineReset⟩] } (.sleeping 0)).run params
    [.task, .engine, .call 1 (.apply .same), .caller 1, .engine, .caller 1]

/-- Its remedy: an attach is accepted and issues CHIPRST, unasked, before the apply() of another caller. -/
theorem test_engine_reset_remedy :
    (resetMidFrame.host = { HostState.unattached params with desynced := true } ∧
      resetMidFrame.engine.waiting = [] ∧ resetMidFrame.answers = [(1, .rejected .resourceUnavailable)]) ∧
    (let z := resetMidFrame.run params [.call 0 (.probe (std []).cfg false ⟨none, none, none, none, none, none, none⟩),
        .caller 0, .caller 0, .caller 0]
     let u := ({ z with engine := { z.engine with env := { z.engine.env with grants := ⟨[true], 0⟩ } } } : System).run params
        [.engine, .caller 0, .call 2 (.apply .same), .caller 2, .caller 0, .engine]
     (u.host.handle, u.host.desynced, u.engine.status.lastop, (u.activity 2).map (fun a => a.place),
       (u.move params (.caller 0)).host.desynced)) = (true, true, 0x20, some .ready, false) := by decide +kernel

/-! ### The pins as they are seen -/

/-- V5 as changes of the pin state (10_state.md R24): WRBIT 0, shared and inverted. -/
theorem test_pinRecord :
    (({ engine 3 0 100000 1000 [] with waiting := [⟨1, 0x02000000⟩] } : State).pinRecord 1).map
        (fun m => (m.now, m.pins.clk, m.pins.dataIn))
      = [(0, some false, some false), (0, some false, some true), (0, some true, some true),
          (3, some false, some true), (5, some false, none)] := by decide +kernel

/-- The test engines are attached, idle and undisturbed. -/
theorem engine_idleQuiet (mode cmdcode timeout tPoll : Word) (samples : List Bool) :
    (engine mode cmdcode timeout tPoll samples).idleQuiet := ⟨rfl, rfl⟩

/-! ### States that meet the hypotheses of the statements, at the edges of each clause -/

/-- DecodeOfEncodeIsTheCommand, EncodeOfDecodeIsTheWord, DecodeSelectsRowByMaskAndMatch. -/
theorem witness_encoding :
    (Instr.wrbit 1).wellFormed = true ∧ (Instr.regwr 0xFF 0xFF).wellFormed = true ∧
      decode 0x1100FFFF = .ok (.regwr 0xFF 0xFF) ∧ (0x1100FFFF : Word) &&& (Instr.regwr 0 0).rowMask = (Instr.regwr 0 0).rowMatch := by
  decide

/-- Two commands wait, an ill-formed word before a PULSE; the environment picks the second. -/
def twoWaiting : State :=
  { std [] with
    waiting := [⟨1, 0x05000000⟩, ⟨2, 0x03000000⟩]
    env := { (std []).env with picks := ⟨[1], 0⟩ } }

/-- StepRunsTheDecodedCommand. -/
theorem witness_StepRunsTheDecodedCommand : twoWaiting.hostDue = false ∧ twoWaiting.eng ≠ .busy ∧
    (∃ t, twoWaiting.arbitrate = some (⟨2, 0x03000000⟩, t)) ∧ decode 0x03000000 = .ok .pulse :=
  ⟨by decide, by decide, ⟨_, rfl⟩, by decide⟩

/-- StepRunsThePlacedWord. -/
theorem witness_StepRunsThePlacedWord : decodeTableWord 32 0x03000000 = some .pulse := by decide

/-- ReservedWordCompletesInvalidArgument: an unknown `op`, a non-zero `zero` field, an operand a format forbids. -/
theorem witness_ReservedWordCompletesInvalidArgument :
    ({ std [] with waiting := [⟨1, 0x05000000⟩] } : State).hostIn = [] ∧ (std []).eng ≠ .busy ∧
      (∃ t, ({ std [] with waiting := [⟨1, 0x05000000⟩] } : State).arbitrate = some (⟨1, 0x05000000⟩, t)) ∧
      (∀ i : Instr, (0x05000000 : Word) &&& i.rowMask ≠ i.rowMatch) ∧
      (∀ i : Instr, (0x11010000 : Word) &&& i.rowMask ≠ i.rowMatch) ∧
      ∀ i : Instr, (0x12000001 : Word) &&& i.rowMask ≠ i.rowMatch := by
  refine ⟨rfl, by decide, ⟨_, rfl⟩, fun i => ?_, fun i => ?_, fun i => ?_⟩ <;>
    cases i <;> (simp only [Instr.rowMask, Instr.rowMatch]; decide)

/-- ArbitrationServesAnyWaitingCommand: nothing waits, and the last of two is the one served. -/
theorem witness_ArbitrationServesAnyWaitingCommand :
    (std []).arbitrate = none ∧ (std []).waiting = [] ∧ 1 < twoWaiting.waiting.length ∧
      (∃ t, twoWaiting.arbitrate = some (⟨2, 0x03000000⟩, t)) := ⟨rfl, rfl, by decide, ⟨_, rfl⟩⟩

/-- CommandPresentedWhileBusyWaits. -/
theorem witness_CommandPresentedWhileBusyWaits : ∃ s : State, s.eng = .busy ∧
    s.hostIn = [⟨0, .present ⟨2, 0x03000000⟩⟩] :=
  ⟨{ std [] with eng := .busy, hostIn := [⟨0, .present ⟨2, 0x03000000⟩⟩] }, rfl, rfl⟩

/-- RdbitReturnsTheSampledBit, WrbitDrivesTheBit, PulseIsOneClockPulse, ChiprstIsOneLongPulse, DetachReleasesThePins,
EveryOperationEnds. -/
theorem witness_idleQuiet : (std [true]).idleQuiet ∧ (std [true]).acceptsQuietly ∧ (detached true).acceptsQuietly :=
  ⟨⟨rfl, rfl⟩, ⟨by decide, rfl⟩, ⟨by decide, rfl⟩⟩

/-- WaitrdyCompletesAtTheLowSample: low at once with `TIMEOUT = 0`, and low at the deadline. -/
theorem witness_WaitrdyCompletesAtTheLowSample :
    (engine 0 0 0 1000 [false]).readyAt 0 ∧ (engine 1 0 2000 1000 [true, true, false]).readyAt 2 ∧
      (engine 0 0 2000 1000 []).idleQuiet ∧ (engine 0 0 2000 1000 []).cfg.tPoll ≠ 0#32 := by
  unfold State.readyAt State.stillWaiting State.idleQuiet
  decide +kernel

/-- EveryReadyWaitEnds: with a low sample at `k = TIMEOUT = 2`, and with a high one at `k = 0`. -/
theorem witness_EveryReadyWaitEnds :
    (engine 1 0 2 1 [true, true, false]).idleQuiet ∧ (engine 1 0 2 1 []).cfg.tPoll ≠ 0#32 ∧
      (ran .waitrdy (engine 1 0 2 1 [true, true, false])).map (fun t => t.status.code) = some .ok ∧
      (ran .waitrdy (engine 0 0 0 1 [true])).map (fun t => t.status.code) = some .timeout := by
  refine ⟨⟨rfl, rfl⟩, ?_⟩
  decide +kernel

/-- ExpiredReadyWaitIsTimeout: for each of the four commands; at `TIMEOUT = 0` and after three sleeps. -/
theorem witness_ExpiredReadyWaitIsTimeout :
    (engine 0x00040000 0x00070008 0 1000 [true]).expiresAt 0 ∧
      (engine 0x00040001 0x00070008 2500 1000 [true, true, true, true]).expiresAt 3 ∧
      PassesChecks .waitrdy (stdP4 []) ∧ PassesChecks .rawrd (stdP4 []) ∧ PassesChecks (.regwr 7 0) (stdP4 []) ∧
      PassesChecks (.regrd 7) (stdP4 []) ∧ (stdP4 []).acceptsQuietly := by
  refine ⟨?_, ?_, ?_, ?_, ?_, ?_, ⟨by decide, rfl⟩⟩
  · unfold State.expiresAt State.stillWaiting; decide +kernel
  · unfold State.expiresAt State.stillWaiting; decide +kernel
  · exact ⟨rfl, by decide, by decide, by simp [addressOperand]⟩
  · exact ⟨rfl, by decide, by decide, by simp [addressOperand]⟩
  · exact ⟨rfl, by decide, by decide, by simp only [addressOperand, Option.some.injEq]; rintro reg rfl; decide⟩
  · exact ⟨rfl, by decide, by decide, by simp only [addressOperand, Option.some.injEq]; rintro reg rfl; decide⟩

/-- TimeoutBoundOfTheReadyWait: V18 at `k = 3`, V14 at `k = 0`, and a run that times out. -/
theorem witness_TimeoutBoundOfTheReadyWait :
    (let s := engine 0 0 2500 1000 [true, true, true, true]
     s.idleQuiet ∧ s.cfg.tPoll ≠ 0#32 ∧ s.cfg.timeout.toNat ≤ 3 * s.cfg.tPoll.toNat ∧
       (∀ j, j < 3 → j * s.cfg.tPoll.toNat < s.cfg.timeout.toNat) ∧ (∀ j, j ≤ 3 → s.answer j = true) ∧
       s.referenceTiming (s.waitBase + 3 * 3 + 3)) ∧
    (let s := engine 1 0 0 1000 [true]
     s.cfg.timeout.toNat ≤ 0 * s.cfg.tPoll.toNat ∧ (∀ j, j ≤ 0 → s.answer j = true) ∧
       s.referenceTiming (s.waitBase + 3 * 0 + 3)) ∧
    (ran .waitrdy (engine 0 0 0 1000 [true])).map (fun t => t.status.code) = some .timeout := by
  unfold State.idleQuiet State.referenceTiming
  decide +kernel

/-- RawrdReturnsTheSignExtendedSample: the recovery stopped by a high line, by its bound, at once, and not there at all
(basic); with the re-check. -/
theorem witness_RawrdReturnsTheSignExtendedSample :
    (let s := engine 0x5300 0 100000 1000 (false :: bits 16 24 ++ [false, false, true])
     s.idleQuiet ∧ s.cfg.tPoll ≠ 0#32 ∧ s.readyAt 0 ∧ (s.cfg.busyRecheck = true → s.answer 1 = false) ∧
       RecoversAfter s (dataStart s 0 + 24) 2) ∧
    (let s := engine 0x5300 0 100000 1000 (false :: bits 16 24 ++ List.replicate 5 false)
     s.readyAt 0 ∧ RecoversAfter s (dataStart s 0 + 24) 5) ∧
    (let s := engine 0x5300 0 100000 1000 (false :: bits 16 24 ++ [true])
     s.readyAt 0 ∧ RecoversAfter s (dataStart s 0 + 24) 0) ∧
    (let s := std (false :: bits 1 24)
     s.readyAt 0 ∧ RecoversAfter s (dataStart s 0 + 24) 0) ∧
    (let s := engine 4 0 100000 1000 ([true, false, false] ++ bits 2 24)
     s.readyAt 1 ∧ (s.cfg.busyRecheck = true → s.answer 2 = false) ∧ RecoversAfter s (dataStart s 1 + 24) 0) := by
  unfold State.readyAt State.stillWaiting RecoversAfter State.idleQuiet
  decide +kernel

/-- RawrdBusyAtHighRecheck: V26. -/
theorem witness_RawrdBusyAtHighRecheck :
    (engine 4 0 100000 1000 [false, true]).readyAt 0 ∧ (engine 4 0 100000 1000 [false, true]).cfg.busyRecheck = true ∧
      (engine 4 0 100000 1000 [false, true]).answer 1 = true := by
  unfold State.readyAt State.stillWaiting
  decide +kernel

/-- RegwrSendsTheWriteFrame, RegrdReturnsTheZeroExtendedByte: profiles P4 and P7 at the last legal address, and the widths
1 and 8. -/
theorem witness_RegisterFrames :
    (let s := stdP4 (false :: bits 5 24 ++ bits 0xA5 8)
     s.idleQuiet ∧ s.cfg.tPoll ≠ 0#32 ∧ s.cfg.widthLegal ∧ addressLegal s.cfg 7 = true ∧ s.readyAt 0) ∧
    (let s := stdP7 (true :: false :: bits 5 24 ++ bits 0xA5 8)
     s.idleQuiet ∧ s.cfg.tPoll ≠ 0#32 ∧ s.cfg.widthLegal ∧ addressLegal s.cfg 0 = true ∧ s.readyAt 1) ∧
    (engine 0x00010000 0 0 1 []).cfg.widthLegal ∧ (engine 0x00080000 0x00FF0000 0 1 []).cfg.widthLegal ∧
      addressLegal (engine 0x00080000 0x00FF0000 0 1 []).cfg 0xFF = true := by
  unfold State.readyAt State.stillWaiting State.idleQuiet
  decide +kernel

/-- CommandWordOnTheWire: the premises of its two profiles. -/
theorem witness_CommandWordOnTheWire :
    (State.reset.cfg.profileP4.cmdWidth = 4 ∧ State.reset.cfg.profileP4.cmdWr = 0x08 ∧
        State.reset.cfg.profileP4.regMask = 0x07) ∧ State.reset.cfg.profileP7.cmdWidth = 7 ∧
      State.reset.cfg.profileP7.cmdWr = 0x65 ∧ State.reset.cfg.profileP7.regMask = 0x00 ∧ (7 : Byte).toNat ≤ 7 := by
  decide

/-- DiagnosticCellsShowABasicRawRead. -/
theorem witness_DiagnosticCellsShowABasicRawRead :
    (std (true :: false :: bits 0x800001 24)).idleQuiet ∧ (std (true :: false :: bits 0x800001 24)).readyAt 1 ∧
      (std []).cfg.busyRecheck = false ∧ (std []).cfg.trailPulses = 0 ∧ (std []).cfg.recoverMax = 0 := by
  unfold State.readyAt State.stillWaiting State.idleQuiet
  decide +kernel

/-- AttachTakesThePinsWhenGranted: both answers. -/
theorem witness_AttachTakesThePinsWhenGranted :
    (detached true).eng = .detached ∧ (detached true).hostIn = [] ∧ (detached true).granted = true ∧
      (detached false).granted = false := by decide

/-- ChecksRefuseInOrder: one state for each test. -/
theorem witness_ChecksRefuseInOrder :
    (Instr.wrbit 2).wellFormed = false ∧ (detached true).eng = .detached ∧ (std []).eng ≠ .detached ∧
      (engine 0 0 100000 0 []).cfg.tPoll = 0#32 ∧ waitsForReady .rawrd = true ∧
      ¬ (engine 0x00000000 0 0 1 []).cfg.widthLegal ∧ ¬ (engine 0x00090000 0 0 1 []).cfg.widthLegal ∧
      addressLegal (stdP4 []).cfg 8 = false := by decide +kernel

/-- CompletionWritesResultAndEng, PulseCountsOfFrames, BitcntIsZeroAfterCompletion: successes of the frames, of RDBIT,
ATTACH and DETACH. -/
theorem witness_Completions :
    (ran .rawrd (std (false :: bits 5 24))).map (fun t => t.status.code) = some .ok ∧
      (ran (.regwr 7 1) (stdP4 (false :: bits 5 24))).map (fun t => t.status.code) = some .ok ∧
      (ran (.regrd 7) (stdP4 (false :: bits 5 24 ++ bits 6 8))).map (fun t => t.status.code) = some .ok ∧
      (ran .rdbit (std [true])).map (fun t => t.status.code) = some .ok ∧
      (ran .attach (detached true)).map (fun t => t.status.code) = some .ok ∧
      (ran .detach (std [])).map (fun t => t.status.code) = some .ok := by decide +kernel

/-- FailuresArePrecise: each failure, from pins at rest. -/
theorem witness_FailuresArePrecise :
    atRest (std []).pins.clkO (std []).pins.dataDir = true ∧
      (ran .rawrd (engine 0 0 0 1000 [true])).map (fun t => t.status.code) = some .timeout ∧
      (ran .rawrd (engine 4 0 0 1000 [false, true])).map (fun t => t.status.code) = some .busy ∧
      (ran .attach (detached false)).map (fun t => t.status.code) = some .resourceUnavailable ∧
      (ran .attach (std [])).map (fun t => t.status.code) = some .invalidArgument := by decide +kernel

/-- BusyOnlyFromTheRecheck. -/
theorem witness_BusyOnlyFromTheRecheck :
    (ran .rawrd (engine 4 0 0 1000 [false, true])).map (fun t => t.status.code) = some .busy := by decide +kernel

/-- DurationsInReferenceTiming: a RAWRD with trailing and recovery pulses, and a register access. -/
theorem witness_DurationsInReferenceTiming :
    (let s := engine 0x5300 0 100000 1000 (false :: bits 16 24 ++ [false, true])
     s.idleQuiet ∧ s.referenceTiming 300 ∧ PassesChecks .rawrd s ∧ s.readyAt 0 ∧
       (ran .rawrd s).map (fun t => (t.status.code, t.now)) = some (.ok, 28 * 5)) ∧
    (let s := stdP4 (false :: bits 5 24)
     s.idleQuiet ∧ s.referenceTiming 300 ∧ PassesChecks (.regwr 7 1) s ∧ s.readyAt 0 ∧
       (ran (.regwr 7 1) s).map (fun t => (t.status.code, t.now)) = some (.ok, 38 * 5)) := by
  have hraw : ∀ s : State, PassesChecks .rawrd s ↔ s.eng ≠ .detached ∧ s.cfg.tPoll ≠ 0#32 := by
    intro s
    simp [PassesChecks, Instr.wellFormed, waitsForReady, addressOperand]
  have hreg : ∀ s : State, PassesChecks (.regwr 7 1) s ↔
      s.eng ≠ .detached ∧ s.cfg.tPoll ≠ 0#32 ∧ s.cfg.widthLegal ∧ addressLegal s.cfg 7 = true := by
    intro s
    simp [PassesChecks, Instr.wellFormed, waitsForReady, addressOperand]
  simp only [hraw, hreg]
  unfold State.referenceTiming State.readyAt State.stillWaiting State.idleQuiet
  decide +kernel

/-- EveryStepKeepsTheInvariant: at rest, and in the middle of a RAWRD that a register write interrupts. -/
theorem witness_EveryStepKeepsTheInvariant :
    (std []).Inv ∧ (ran .rawrd { std [false] with hostIn := [⟨6, .write (.cr 2) 5⟩] }).map
      (fun t => (t.eng, t.pinDiscipline, t.reservedBitsZero)) = some (.busy, true, true) := by
  refine ⟨⟨by decide, by decide⟩, by decide +kernel⟩

/-- NoHoldIsShortened. -/
theorem witness_NoHoldIsShortened :
    ({ std [] with trace := [⟨.hold 3, 3⟩] } : State).holdsLongEnough ∧
      (after (step { std [] with waiting := [⟨1, 0x20000000⟩] })).map (fun t => t.trace)
        = some [⟨.clk true, 0⟩, ⟨.hold 200, 200⟩, ⟨.clk false, 0⟩, ⟨.hold 1000, 1000⟩] := by
  unfold State.holdsLongEnough
  decide +kernel

/-- NowNeverGoesBackwards. -/
theorem witness_NowNeverGoesBackwards : ¬ (std []).resetLands := by
  rintro ⟨rest, h⟩
  cases h

/-- OnlyTheHostConfigures: a write that lands, and the engine reset. -/
theorem witness_OnlyTheHostConfigures :
    (after (step { std [] with hostIn := [⟨0, .write (.cr 2) 5⟩] })).map (fun t => t.cfg.timeout) = some 5 ∧
      (after (step { engine 0 0 7 1 [] with hostIn := [⟨0, .engineReset⟩] })).map (fun t => t.cfg.timeout)
        = some 100000 := by decide

/-- HostAccessDoesNotDisturbAnOperation: each access lands in the middle of a RAWRD, at once and at its last cell. -/
theorem witness_HostAccessDoesNotDisturbAnOperation :
    (ran .rawrd { std (false :: bits 5 24) with hostIn := [⟨0, .write (.cr 2) 5⟩] }).map (fun t => t.eng)
        = some .busy ∧
      (ran .rawrd { std (false :: bits 5 24) with hostIn := [⟨100, .present ⟨2, 0x03000000⟩⟩] }).map (fun t => t.eng)
        = some .busy ∧
      (ran .rawrd { std (false :: bits 5 24) with hostIn := [⟨170, .read 2 (.sr 6)⟩] }).map (fun t => t.eng)
        = some .busy := by decide +kernel

/-- ConfigurationRegisterAccess, ReservedAndReadOnlyRegisters, StatusRegisterFields: the premises at their edges. -/
theorem witness_Registers :
    (∃ s : State, s.eng = .busy) ∧ (std []).eng ≠ .busy ∧ 7 < 8 ∧ 6 < 7 ∧
      ({ std [] with now := 2 ^ 64 - 1 } : State).now < 2 ^ 64 :=
  ⟨⟨{ std [] with eng := .busy }, rfl⟩, by decide, by decide, by decide, by decide⟩

/-- EngineResetFromAnyState: in the middle of a RAWRD. -/
theorem witness_EngineResetFromAnyState :
    (ran .rawrd { std [false, true] with hostIn := [⟨8, .engineReset⟩] }).map (fun t => (t.eng, t.pins.clkO, t.hostIn))
      = some (.busy, true, [⟨0, .engineReset⟩]) := by decide +kernel

/-- AfterResetOnlyAttachIsPerformed. -/
theorem witness_AfterResetOnlyAttachIsPerformed : Instr.regwr 0 0 ≠ .attach ∧ (Instr.regwr 0 0).wellFormed = true := by
  decide

/-- RateMappingIsABijection, UnsupportedRateIsRejected. -/
theorem witness_Rates : codeFor 640 = some 2 ∧ codeFor 20 = none ∧ (20 ≠ 10 ∧ 20 ≠ 40 ∧ 20 ≠ 640 ∧ 20 ≠ 1280) ∧
    (attachedTo (std []) .absent).activity 0 = none := by decide

/-- HistoryHoldsTheLastSamples: exactly as many appends as slots, and more. -/
theorem witness_HistoryHoldsTheLastSamples : 0 < 1 ∧ 1 ≤ [7].length ∧ 4 ≤ [1, 2, 3, 4, 5, 6].length := by decide

/-- StatisticsOfPublishedSamples. -/
theorem witness_StatisticsOfPublishedSamples :
    ∃ h : HostState, h.sum = 0 ∧ h.count = 0 ∧ h.history = History.create 4 :=
  ⟨{ HostState.unattached params with history := History.create 4 }, rfl, rfl, rfl⟩

/-- ApplyUpdatesOnlyOnOk: an `Ok`, a `ResourceUnavailable` of a detached engine, and a handle whose chip is out of step. -/
theorem witness_ApplyUpdatesOnlyOnOk :
    (∀ y ∈ [attachedTo (stdP4 (false :: bits 0 24)) .absent, System.initial params State.reset],
      y.activity 0 = none ∧ y.host.lock = none ∧ y.engine.eng ≠ .busy ∧ y.engine.hostIn = [] ∧ y.engine.waiting = []) ∧
    ((System.initial params State.reset).run params
      [.call 0 (.apply (.speed 3)), .caller 0, .engine, .caller 0, .caller 0]).answers
        = [(0, .answered .resourceUnavailable)] ∧
    (let y := attachedTo (std []) .absent
     ({ y with host := { y.host with desynced := true } } : System).activity 0 = none ∧ y.host.handle = true) := by
  decide +kernel

/-- PortsFollowTheWiring: each wiring, driven and not, the shared pin in and out. -/
theorem witness_PortsFollowTheWiring :
    (engine 1 0 1 1 []).cfg.sharedPin = true ∧ (std []).cfg.sharedPin = false ∧ (std []).pins.drive = true ∧
      State.reset.pins.drive = false ∧
      ({ engine 1 0 1 1 [] with pins := ⟨false, true, .output, true⟩ } : State).ports = ⟨some false, some true, none⟩ ∧
      (engine 1 0 1 1 []).ports = ⟨some false, none, none⟩ ∧ (std []).ports = ⟨some false, none, some false⟩ := by
  decide

/-- TraceGivesThePinState: a step without an engine reset, and the `DIR(in)` of a pin that is an input. -/
theorem witness_TraceGivesThePinState :
    ¬ (std []).resetLands ∧ (PinEvent.dir .input).isSample = false ∧
      (std []).pins.after (.dir .input) = (std []).pins ∧ (std []).pins.after (.clk false) = (std []).pins := by
  refine ⟨?_, by decide, by decide, by decide⟩
  rintro ⟨rest, h⟩
  cases h

/-- CallsAwaitTheirResponse: before the engine has moved and after it, and each move that is an engine reset. -/
theorem witness_CallsAwaitTheirResponse :
    (let y := (attachedTo (std []) .absent).run params [.call 1 .reset, .caller 1, .caller 1]
     (y.activity 1).map (fun a => a.place) = some (.awaiting 0 .powerCycled) ∧ replyTo y.engine 0 (callerRequester 1) = none ∧
       (replyTo (y.move params .engine).engine 0 (callerRequester 1)).map (fun r => r.status) = some .ok ∧
       y.strikes .engineReset = true ∧ y.strikes .engine = false ∧
       ({ y with engine := { y.engine with hostIn := [⟨0, .engineReset⟩] } } : System).strikes .engine = true) ∧
    (let y := (System.initial params (detached true)).run params [.call 1 .reset, .caller 1, .caller 1,
        .call 0 (.probe (std []).cfg false ⟨none, none, none, none, none, none, none⟩)]
     (y.activity 1).map (fun a => a.place) = some (.awaiting 0 .powerCycled) ∧ y.strikes (.caller 0) = true) := by
  decide +kernel

/-- ConfigurationChangesOnlyOnOk: an `Ok` received, a load, and an engine reset. -/
theorem witness_ConfigurationChangesOnlyOnOk :
    (let y := (attachedTo (stdP4 (false :: bits 0 24)) .absent).run params [.call 0 (.writeRate 640), .caller 0, .engine]
     (y.move params (.caller 0)).host.settings ≠ y.host.settings) ∧
    (let y : System := { attachedTo (std []) .absent with
        calls := [⟨0, [.load ⟨some 3, none, none, none, none, none, none⟩], .ready, .answered .ok⟩] }
     (y.move params (.caller 0)).host.settings ≠ y.host.settings) ∧
    (let y := attachedTo (std []) .absent
     let z : System := { y with host := { y.host with settings := { y.host.settings with speed := 1 } } }
     (z.move params .engineReset).host.settings ≠ z.host.settings) := by decide +kernel

/-- LoopTurnPublishesOnOk: a sample, a timeout that publishes nothing, and a task one tick before its wake. -/
theorem witness_LoopTurnPublishesOnOk :
    (∀ y ∈ [attachedTo (std (false :: bits 5 24)) .testing, attachedTo (engine 0 0 0 1 [true]) .testing],
      y.host.task = .testing ∧ y.host.stop = false ∧ y.host.running = true ∧ y.host.lock = none ∧
        y.engine.eng ≠ .busy ∧ y.engine.hostIn = [] ∧ y.engine.waiting = []) ∧
    ((attachedTo (std (false :: bits 5 24)) .testing).run params
      [.task, .pass 95000, .task, .engine, .task]).host.latest = some 5 ∧
    ((attachedTo (engine 0 0 0 1 [true]) .testing).run params
      [.task, .pass 95000, .task, .engine, .task]).host.sampleCounter = 0 ∧
    (attachedTo (std []) (.sleeping 1)).host.task = .sleeping 1 ∧ (std []).now < 1 := by decide +kernel

/-- ReadChannelAnswersTheLatestSample: the channel configured and another one, with its result and
with a CHIPRST outstanding; one tick before the end of the settle period, and at it. -/
theorem witness_ReadChannelAnswersTheLatestSample :
    (params.variant = .extended ∧ ∀ y ∈ [attachedTo (stdP4 (false :: bits 0 24)) .absent, System.initial params State.reset],
      y.activity 2 = none ∧ y.host.lock = none ∧ y.host.settings.channel = 0 ∧
        ¬ (y.host.handle = true ∧ y.host.desynced = true) ∧ y.engine.eng ≠ .busy ∧ y.engine.hostIn = [] ∧
        y.engine.waiting = []) ∧
    ((attachedTo (stdP4 (false :: bits 0 24)) .absent).run params
      [.call 2 (.readChannel 3), .caller 2, .engine, .caller 2, .caller 2]).host.settings.channel = 3 ∧
    (let y := attachedTo (std []) .absent
     ({ y with host := { y.host with desynced := true } } : System).activity 2 = none ∧ y.host.handle = true) ∧
    (let y : System := { attachedTo { std [] with now := 500 } .testing with
        calls := [⟨2, [.settle, .giveLatest], .asleep 500, .answered .ok⟩] }
     y.activity 2 = some ⟨2, [.settle, .giveLatest], .asleep 500, .answered .ok⟩ ∧ 500 ≤ y.engine.now) ∧
    (let y : System := { attachedTo { std [] with now := 499 } .testing with
        calls := [⟨2, [.settle, .giveLatest], .asleep 500, .answered .ok⟩] }
     y.activity 2 = some ⟨2, [.settle, .giveLatest], .asleep 500, .answered .ok⟩ ∧ y.engine.now < 500) := by decide +kernel

/-- DetachWaitsForTheLoop: a task that still sleeps, an attach at its last step, and a task asleep while paused, S8. -/
theorem witness_DetachWaitsForTheLoop :
    (let y : System := { attachedTo (std []) (.sleeping 9) with
        calls := [⟨0, [.awaitExit], .ready, .answered .ok⟩] }
     y.activity 0 = some ⟨0, [.awaitExit], .ready, .answered .ok⟩ ∧ y.host.task.ended = false) ∧
    (let y : System := { attachedTo (std []) .absent with
        calls := [⟨0, [.startLoop], .ready, .answered .ok⟩] }
     y.activity 0 = some ⟨0, [.startLoop], .ready, .answered .ok⟩ ∧ y.host.handle = true ∧ y.host.stop = false) ∧
    (let y := attachedTo (std []) (.paused 20)
     y.activity 0 = none ∧ y.host.task = .paused 20 ∧ y.host.lock = none ∧ y.engine.eng = .idle ∧
       y.engine.hostIn = [] ∧ y.engine.waiting = []) := by decide

/-- ProbeFollowsTheBringUpOrder: the pins granted and refused, and a host whose chip is out of step and whose engine runs. -/
theorem witness_ProbeFollowsTheBringUpOrder : (∀ g ∈ [true, false],
    let y := System.initial params (detached g)
    y.activity 0 = none ∧ y.host.handle = false ∧ y.engine.hostIn = []) ∧
    (let y := System.initial params { detached true with eng := .busy }
     let z : System := { y with host := { y.host with desynced := true, lock := some 5 } }
     z.activity 0 = none ∧ z.host.handle = false ∧ z.engine.hostIn = [] ∧ z.engine.granted = true) := by decide

end Sys2Proof.Tests
end

section
/-! The record of a step: `NOW`, the trace and the latches move on together, in every step but an engine reset
(10_state.md R23, R24, R27). -/

namespace Sys2Proof.Machine

/-! ### `NOW` under the sequencer -/

/-- No item takes time back. -/
theorem perform_now_le (s : State) (it : Item) : s.now ≤ (s.perform it).now := by
  obtain ⟨q, a⟩ := it
  cases a with
  | poll => rcases poll_cases s q with ⟨_, h⟩ | ⟨_, h⟩ <;> simp [State.perform, h]
  | expire => rcases expire_cases s q with ⟨_, h⟩ | ⟨_, h⟩ <;> simp [State.perform, h]
  | recheck => rcases recheck_cases s with ⟨_, h⟩ | ⟨_, h⟩ <;> simp [State.perform, h]
  | recover =>
    simp only [State.perform, State.recover]
    split
    · split <;> simp
    · exact Nat.le_refl _
  | grant => rcases grant_cases s with ⟨_, h⟩ | ⟨_, h⟩ <;> simp [State.perform, h]
  | check v => cases v <;> simp [State.perform]
  | _ => simp [State.perform]

theorem sequence_now_le (s : State) : s.now ≤ s.sequence.now := by
  unfold State.sequence
  split
  · exact Nat.le_refl _
  · next it rest _ => exact perform_now_le { s with todo := rest, hostIn := countDown s.hostIn } it

theorem runItems_now_le (n : Nat) (s : State) : s.now ≤ (runItems n s).now := by
  induction n generalizing s with
  | zero => exact Nat.le_refl _
  | succ n ih =>
    rw [runItems_succ]
    split
    · exact Nat.le_refl _
    · exact (sequence_now_le s).trans (ih s.sequence)

/-! ### What every part of a step keeps -/

/-- `t` comes after `s`: `NOW` is no earlier, the trace is longer by the new events, and the latches follow them.
Unlike `Traced` it leaves the configuration free, for a host write lands in a step too. -/
structure Onward (s t : State) : Prop where
  now : s.now ≤ t.now
  trace : t.trace = s.trace ++ newEvents s t
  pins : (newEvents s t).foldl (fun q e => q.after e.pin) s.pins = t.pins

/-- With no new event only `NOW` moves. -/
theorem onward_same {s t : State} (hn : s.now ≤ t.now) (ht : t.trace = s.trace) (hp : t.pins = s.pins) :
    Onward s t := by
  have he : newEvents s t = [] := newEvents_of_append (by rw [ht, List.append_nil])
  exact ⟨hn, by rw [he, ht, List.append_nil], by rw [he, hp]; rfl⟩

theorem onward_of_traced {s t : State} (hn : s.now ≤ t.now) (h : Traced s t) : Onward s t := by
  obtain ⟨evs, ht, hp, -, -⟩ := h
  have he : newEvents s t = evs := newEvents_of_append ht
  exact ⟨hn, by rw [he, ht], by rw [he, hp]⟩

/-- Where it starts, only `NOW`, the trace and the latches count. -/
theorem Onward.of_start {r s t : State} (h : Onward s t) (hn : r.now = s.now) (ht : r.trace = s.trace)
    (hp : r.pins = s.pins) : Onward r t := by
  obtain ⟨hnow, htrace, hpins⟩ := h
  have he : newEvents r t = newEvents s t := by simp only [newEvents, ht]
  exact ⟨hn ▸ hnow, by rw [he, ht, ← htrace], by rw [he, hp, hpins]⟩

theorem runItems_onward (n : Nat) (s : State) : Onward s (runItems n s) :=
  onward_of_traced (runItems_now_le n s) (runItems_traced n s)

theorem issue_onward (s : State) (w : Word) (v : Option Status) (body : List Item) :
    Onward s (s.issue w v body) := by
  unfold State.issue
  split
  · exact onward_same (Nat.le_refl _) rfl rfl
  · exact (runItems_onward itemBound (s.accept w v body)).of_start rfl rfl rfl

/-- The running operation goes on, or time passes, or a served word is issued. -/
theorem engineTurn_onward {s t : State} (h : engineTurn s = .next t) : Onward s t := by
  rcases engineTurn_cases s with ⟨-, ht⟩ | ⟨-, -, ht⟩ | ⟨-, c, u, ha, hd⟩
  · cases ht.symm.trans h
    exact runItems_onward itemBound s
  · cases ht.symm.trans h
    exact onward_same (by simp) rfl rfl
  · have hissue : ∃ w v body, t = u.issue w v body := by
      rcases hd with ⟨i, -, ht⟩ | ⟨e, -, ht⟩
      · rw [exec_eq] at ht
        cases ht.symm.trans h
        exact ⟨_, _, _, rfl⟩
      · cases ht.symm.trans h
        exact ⟨_, _, _, rfl⟩
    obtain ⟨w, v, body, rfl⟩ := hissue
    obtain ⟨-, -, hpins, -, hnow, -, -, -, -, htrace, -, -, -, -⟩ := arbitrate_frame ha
    exact (issue_onward u w v body).of_start hnow.symm htrace.symm hpins.symm

/-- Of the host's actions the engine reset alone turns `NOW` back and moves the latches. -/
theorem hostAct_onward (s : State) {a : HostAct} (ha : a ≠ .engineReset) : Onward s (s.hostAct a) := by
  cases a with
  | present c => exact onward_same (Nat.le_refl _) rfl rfl
  | write r v =>
    rcases hostWrite_cases s r v with h | ⟨n, -, -, h⟩ <;> simp only [State.hostAct, h] <;>
      exact onward_same (Nat.le_refl _) rfl rfl
  | read who r => exact onward_same (Nat.le_refl _) rfl rfl
  | engineReset => exact absurd rfl ha
  | pass ticks => exact onward_same (Nat.le_add_right _ _) rfl rfl

theorem step_onward {s t : State} (hr : ¬ s.resetLands) (h : step s = .next t) : Onward s t := by
  rcases step_cases s with ⟨a, rest, hq, hs⟩ | ⟨-, hs⟩
  · have ha : a ≠ .engineReset := by
      rintro rfl
      exact hr ⟨rest, hq⟩
    cases hs.symm.trans h
    exact (hostAct_onward { s with hostIn := rest } ha).of_start rfl rfl rfl
  · exact engineTurn_onward (hs.symm.trans h)

/-- An event that leaves the latches as they are, and is no sample, adds no visible instant (10_state.md R24). -/
theorem visible_redundant (shared : Bool) (now : Nat) {q : Pins} {e : Event} (es : List Event)
    (hs : e.pin.isSample = false) (hq : q.after e.pin = q) :
    visible (q.shows shared) (moments shared now q (e :: es))
      = visible (q.shows shared) (moments shared (now + e.took) q es) := by
  rw [moments, hq]
  exact visible_skip rfl hs

/-! ### The obligations -/

/-- Settles O38: a step that is no engine reset goes onward. -/
theorem nowNeverGoesBackwards : Obligations.NowNeverGoesBackwards :=
  fun _ _ hr h => (step_onward hr h).now

/-- Settles O54: a step that is no engine reset goes onward, and a redundant event is skipped. -/
theorem traceGivesThePinState : Obligations.TraceGivesThePinState :=
  ⟨fun _ _ hr h => ⟨(step_onward hr h).trace, (step_onward hr h).pins⟩,
    fun shared now _ _ es hs hq => visible_redundant shared now es hs hq⟩

end Sys2Proof.Machine
end

section
/-! The registers as the host reads and writes them: the fields of CR0, CR1, SR0, SR2, SR4 to SR6 at their positions
(10_state.md R28 to R42). -/

namespace Sys2Proof.Machine

/-! ### Configuration registers -/

theorem hostAct_write_busy {s : State} (h : s.eng = .busy) (n : Nat) (v : Word) :
    s.hostAct (.write (.cr n) v) = s := if_pos h

theorem hostAct_write {s : State} (h : s.eng ≠ .busy) (n : Nat) (v : Word) :
    s.hostAct (.write (.cr n) v) = { s with cfg := s.cfg.set n v } := if_neg h

theorem hostAct_read_cr (s : State) (who n : Nat) :
    s.hostAct (.read who (.cr n)) = { s with reads := s.reads ++ [⟨who, .cr n, s.cfg.get n⟩] } := rfl

theorem get_set_self (c : ConfigRegs) (n : Nat) (v : Word) :
    (c.set n v).get n =
      if n = 0 then v &&& modeMask else if n = 1 then v &&& cmdcodeMask else if n ≤ 7 then v else 0 := by
  match n with
  | 0 | 1 => simp [ConfigRegs.set, ConfigRegs.get, BitVec.and_assoc]
  | 2 | 3 | 4 | 5 | 6 | 7 => rfl
  | n + 8 => simp [ConfigRegs.get]

/-- By the register written, then by the one read: they are different fields of the record. -/
theorem get_set_other (c : ConfigRegs) {n m : Nat} (h : m ≠ n) (v : Word) : (c.set n v).get m = c.get m := by
  unfold ConfigRegs.set
  split
  case h_9 => rfl
  all_goals
    unfold ConfigRegs.get
    split <;> simp_all

/-- A field all of whose bits the mask keeps. -/
theorem extractLsb'_masked {v mask : Word} {start len : Nat} (h : mask.extractLsb' start len = BitVec.allOnes len) :
    (v &&& mask).extractLsb' start len = v.extractLsb' start len := by
  rw [BitVec.extractLsb'_and, h, BitVec.and_allOnes]

/-- A bit the mask keeps. -/
theorem getLsbD_masked {v mask : Word} {i : Nat} (h : mask.getLsbD i = true) :
    (v &&& mask).getLsbD i = v.getLsbD i := by
  rw [BitVec.getLsbD_and, h, Bool.and_true]

/-- CR0 `MODE` (10_state.md R30): the reserved bits lie outside its fields. -/
theorem set_mode_fields (c : ConfigRegs) (v : Word) :
    (c.set 0 v).sharedPin = v.getLsbD 0 ∧ (c.set 0 v).dinInvert = v.getLsbD 1 ∧
      (c.set 0 v).busyRecheck = v.getLsbD 2 ∧ (c.set 0 v).trailPulses = v.extractLsb' 8 4 ∧
      (c.set 0 v).recoverMax = v.extractLsb' 12 4 ∧ (c.set 0 v).cmdWidth = v.extractLsb' 16 4 :=
  ⟨getLsbD_masked rfl, getLsbD_masked rfl, getLsbD_masked rfl, extractLsb'_masked rfl, extractLsb'_masked rfl,
    extractLsb'_masked rfl⟩

/-- CR1 `CMDCODE` (10_state.md R31): the reserved bits lie outside its fields. -/
theorem set_cmdcode_fields (c : ConfigRegs) (v : Word) :
    (c.set 1 v).cmdWr = v.extractLsb' 0 8 ∧ (c.set 1 v).cmdRd = v.extractLsb' 8 8 ∧
      (c.set 1 v).regMask = v.extractLsb' 16 8 :=
  ⟨extractLsb'_masked rfl, extractLsb'_masked rfl, extractLsb'_masked rfl⟩

/-- Settles O41, from what a write does in each engine state and where it puts each field. -/
theorem configurationRegisterAccess : Obligations.ConfigurationRegisterAccess := by
  refine ⟨fun s n v h => hostAct_write_busy h n v, fun s n m v h => ?_, fun s v h => ?_, hostAct_read_cr⟩
  · rw [hostAct_write h]
    refine ⟨?_, rfl⟩
    by_cases hm : m = n
    · rw [if_pos hm, hm]
      exact get_set_self s.cfg n v
    · rw [if_neg hm]
      exact get_set_other s.cfg hm v
  · simp only [hostAct_write h]
    exact ⟨set_mode_fields s.cfg v, set_cmdcode_fields s.cfg v, rfl, rfl, rfl, rfl, rfl, rfl⟩

/-! ### Status registers -/

/-- SR0 `STATUS` (10_state.md R38). -/
theorem statusWord_fields (s : State) :
    s.statusWord.getLsbD 0 = s.attachedFlag ∧ s.statusWord.getLsbD 1 = s.busyFlag ∧
      s.statusWord.extractLsb' 2 3 = s.status.code.toBits ∧ s.statusWord.extractLsb' 5 4 = s.regs.recn ∧
      s.statusWord.extractLsb' 9 23 = 0 := by
  unfold State.statusWord
  refine ⟨?_, ?_, ?code, ?recn, ?zeros⟩
  case code | recn =>
    simp (disch := omega) only [BitVec.extractLsb'_append_eq_of_le, BitVec.extractLsb'_append_eq_of_add_le,
      Nat.reduceSub, BitVec.extractLsb'_eq_self]
  case zeros =>
    simp (disch := omega) only [BitVec.extractLsb'_append_eq_of_le, Nat.reduceSub, BitVec.extractLsb'_eq_self]
    rfl
  all_goals simp only [BitVec.getLsbD_append]; simp

/-- SR2 `LASTOP` (10_state.md R40). -/
theorem lastopWord_fields (s : State) :
    s.lastopWord.extractLsb' 0 8 = s.status.lastop ∧ s.lastopWord.extractLsb' 8 24 = 0 := by
  unfold State.lastopWord
  constructor
  · rw [BitVec.extractLsb'_setWidth_of_le (by omega), BitVec.extractLsb'_eq_self]
  · ext i hi
    simp

/-- SR4 and SR5 are the low and the high word of a `NOW` of 64 bits (10_state.md R41). -/
theorem nowLo_nowHi {s : State} (h : s.now < 2 ^ 64) : s.nowLo.toNat + 2 ^ 32 * s.nowHi.toNat = s.now := by
  have hi : s.now / 2 ^ 32 < 2 ^ 32 := by omega
  rw [State.nowLo, State.nowHi, BitVec.toNat_ofNat, BitVec.toNat_ofNat, Nat.mod_eq_of_lt hi, Nat.mod_add_div]

/-- SR6 `PINS` (10_state.md R42). -/
theorem pinsWord_fields (s : State) (l : Level) :
    (s.pinsWord l).getLsbD 0 = s.pins.clkO ∧ (s.pinsWord l).getLsbD 1 = s.pins.dataO ∧
      (s.pinsWord l).getLsbD 2 = s.pins.dataDir.toBit ∧ (s.pinsWord l).getLsbD 3 = l ∧
      (s.pinsWord l).getLsbD 4 = s.pins.drive ∧ (s.pinsWord l).extractLsb' 5 27 = 0 := by
  unfold State.pinsWord
  refine ⟨?_, ?_, ?_, ?_, ?_, ?zeros⟩
  case zeros =>
    simp (disch := omega) only [BitVec.extractLsb'_append_eq_of_le, Nat.reduceSub]
    rfl
  all_goals simp only [BitVec.getLsbD_append]; simp

theorem dir_toBit_eq (d : Dir) : d.toBit = (d == .output) := by cases d <;> rfl

/-- A read of SR6 alone draws an answer, from the source of the host's reads (log 22). -/
theorem hostAct_read_sr (s : State) (who n : Nat) :
    s.hostAct (.read who (.sr n)) =
      { s with
        reads := s.reads ++ [⟨who, .sr n, s.regValue (s.env.pinReads.peek Config.pinReadLevel) (.sr n)⟩]
        env := if n = 6 then { s.env with pinReads := s.env.pinReads.rest } else s.env } := by
  simp [State.hostAct, State.hostRead, RegNo.samplesLine]

/-- Settles O43, from the fields of each status word. -/
theorem statusRegisterFields : Obligations.StatusRegisterFields := by
  intro s l
  obtain ⟨hAttached, hBusy, hCode, hRecn, hZero⟩ := statusWord_fields s
  obtain ⟨hClk, hData, hDir, hLine, hDrive, hRest⟩ := pinsWord_fields s l
  refine ⟨hostAct_read_sr s, ⟨hAttached, hBusy, ?_, hRecn, hZero⟩, rfl, lastopWord_fields s, rfl, nowLo_nowHi,
    hClk, hData, hDir.trans (dir_toBit_eq _), hLine, hDrive, hRest⟩
  refine hCode.trans ?_
  cases s.status.code <;> rfl

end Sys2Proof.Machine
end

section
/-! Every undisturbed command ends in a completion before the sequencer's bound: the loops end, each piece of a plan
passes or completes, and so do the bodies made of them (41_ready_gate.md R152 f, 60_exceptions.md R254,
70_reset_and_hazards.md R299). -/

namespace Sys2Proof.Machine

/-! ### The two loops end -/

theorem stillWaiting_succ {s : State} {k : Nat} :
    s.stillWaiting (k + 1) ↔ s.stillWaiting k ∧ s.answer k = true ∧ s.testTime k < s.waitDeadline :=
  Nat.forall_lt_succ_right

/-- A ready-wait that never ended would wait beyond its bound. -/
theorem wait_ends {s : State} (hp : s.cfg.tPoll ≠ 0#32) : ∃ k, s.readyAt k ∨ s.expiresAt k := by
  by_contra hno
  push Not at hno
  have hall : ∀ k, s.stillWaiting k := by
    intro k
    induction k with
    | zero => exact fun j hj => absurd hj (Nat.not_lt_zero j)
    | succ k ih =>
      obtain ⟨hready, hexpires⟩ := hno k
      have hhigh : s.answer k = true := by
        cases ha : s.answer k
        · exact absurd ⟨ih, ha⟩ hready
        · rfl
      exact stillWaiting_succ.mpr ⟨ih, hhigh, Nat.lt_of_not_le fun hle => hexpires ⟨ih, hhigh, hle⟩⟩
  have := stillWaiting_le hp (hall (s.cfg.timeout.toNat + 1))
  omega

/-- The recovery loop ends at its first high sample, or at its bound. -/
theorem recovers_exists (s : State) (e : Nat) : ∃ r, RecoversAfter s e r := by
  have hmax : s.cfg.recoverMax.toNat < s.cfg.recoverMax.toNat → s.answer (e + s.cfg.recoverMax.toNat) = true :=
    fun h => absurd h (Nat.lt_irrefl _)
  have hex : ∃ r, r < s.cfg.recoverMax.toNat → s.answer (e + r) = true := ⟨_, hmax⟩
  refine ⟨Nat.find hex, Nat.find_min' hex hmax, fun j hj => ?_, Nat.find_spec hex⟩
  obtain ⟨-, hlow⟩ := Classical.not_imp.mp (Nat.find_min hex hj)
  exact Bool.eq_false_iff.mpr hlow

/-! ### Ending with a completion -/

/-- `t` is `u` completed, with a failure or with success (60_exceptions.md R254). -/
def CompletedFrom (u t : State) : Prop := (∃ st, t = u.fail st) ∨ ∃ c, t = u.succeed c

theorem CompletedFrom.todo {u t : State} (h : CompletedFrom u t) : t.todo = [] := by
  rcases h with ⟨st, rfl⟩ | ⟨c, rfl⟩ <;> rfl

/-- `PH_IDLE` shows `BITCNT` 0 (log 14). -/
theorem CompletedFrom.bitcnt {u t : State} (h : CompletedFrom u t) : t.regs.bitcnt = 0 := by
  rcases h with ⟨st, rfl⟩ | ⟨c, rfl⟩ <;> rfl

/-- With `items` to do, the operation runs on from `s` and completes, all within `budget` items. -/
def EndsWithin (s : State) (items : List Item) (budget : Nat) : Prop :=
  ∃ u m n i evs, Ran s u m n i evs ∧ CompletedFrom u (runItems budget { s with todo := items })

/-- Once completed the sequencer stays. -/
theorem EndsWithin.mono {s : State} {items : List Item} {a b : Nat} (h : EndsWithin s items a) (hab : a ≤ b) :
    EndsWithin s items b := by
  obtain ⟨u, m, n, i, evs, hr, hc⟩ := h
  refine ⟨u, m, n, i, evs, hr, ?_⟩
  rw [← Nat.add_sub_cancel' hab, runItems_add, runItems_paused (paused_of_done hc.todo)]
  exact hc

theorem endsWithin_fail {s u : State} {items : List Item} {budget m n i : Nat} {evs : List PinEvent} {st : Status}
    (hr : Ran s u m n i evs) (h : runItems budget { s with todo := items } = u.fail st) :
    EndsWithin s items budget :=
  ⟨u, m, n, i, evs, hr, .inl ⟨st, h⟩⟩

theorem endsWithin_complete {s : State} (hq : s.hostIn = []) (q : Seq) (c : Completion) :
    EndsWithin s [⟨q, .complete c⟩] 1 :=
  ⟨s, 0, 0, 0, [], .refl s, .inr ⟨c, runItems_item (s := { s with todo := [⟨q, .complete c⟩] }) hq rfl 0⟩⟩

/-- A piece that passes, before a plan that ends. -/
theorem Passed.endsWithin {items rest : List Item} {s u : State} {cost m n i budget : Nat} {evs : List PinEvent}
    (h : Passed items s u cost m n i evs) (g : EndsWithin u rest budget) :
    EndsWithin s (items ++ rest) (cost + budget) := by
  obtain ⟨t, m', n', i', evs', hr, hc⟩ := g
  exact ⟨t, _, _, _, _, h.ran.trans hr, by rwa [h.runs]⟩

/-! ### Straight stretches of bounded length -/

/-- A stretch of straight actions of at most `n` items. -/
def StraightWithin (items : List Item) (n : Nat) : Prop := allStraight (actsOf items) ∧ items.length ≤ n

theorem StraightWithin.append {a b : List Item} {m n : Nat} (h : StraightWithin a m) (g : StraightWithin b n) :
    StraightWithin (a ++ b) (m + n) := by
  obtain ⟨hs, hl⟩ := h
  obtain ⟨gs, gl⟩ := g
  refine ⟨?_, ?_⟩
  · rw [actsOf_append]
    exact allStraight_append hs gs
  · rw [List.length_append]
    exact Nat.add_le_add hl gl

/-- The read cell of RDBIT (40_bit_transport.md R130). -/
theorem readCell_straightWithin : StraightWithin (phaseOf .prim [readBitActs ++ [Act.endCell]]) 7 :=
  ⟨by decide, by decide⟩

theorem readWord_straightWithin (p : Phase) (n : Nat) : StraightWithin (readWord p n) (7 * n + 2) := by
  refine ⟨straight_readWord p n, ?_⟩
  rw [length_eq_actsOf, actsOf_readWord]
  simp [readWordCell, readBitActs]
  omega

theorem pulses_straightWithin (p : Phase) (n : Nat) : StraightWithin (pulses p n) (5 * n + 1) := by
  refine ⟨straight_pulses p n, ?_⟩
  rw [length_eq_actsOf, actsOf_pulses]
  simp [pulseCell, pulseActs]
  omega

theorem writeCells_straightWithin (c : ConfigRegs) (p : Phase) (bits : List Level) :
    StraightWithin (phaseOf p (bits.map (writeCell c))) (8 * bits.length + 1) := by
  refine ⟨?_, ?_⟩
  · rw [actsOf_phaseOf]
    refine allStraight_cons rfl (allStraight_flatten fun cell hcell => ?_)
    obtain ⟨b, -, rfl⟩ := List.mem_map.mp hcell
    exact straight_writeCell c b
  · have hcost : writeCost c ≤ 8 := by unfold writeCost; split <;> omega
    rw [length_eq_actsOf, actsOf_phaseOf, List.length_cons, writeCells_length, Nat.mul_comm 8]
    exact Nat.succ_le_succ (Nat.mul_le_mul_left _ hcost)

theorem writeWord_straightWithin (c : ConfigRegs) (p : Phase) (v : Byte) (n : Nat) :
    StraightWithin (writeWord c p v n) (8 * n + 1) := by
  simpa [writeWord] using writeCells_straightWithin c p (bitsMsbFirst v n)

theorem turn_straightWithin (c : ConfigRegs) : StraightWithin (turnItems c) 2 := by
  refine ⟨?_, ?_⟩
  · rw [turnItems, actsOf_cons, actsOf_cellAt]
    exact allStraight_cons rfl (straight_dir c .input)
  · rw [turnItems, List.length_cons, cellAt_length, dirActs]
    split <;> simp

/-! ### The pieces that may end an operation -/

/-- Room for everything that follows a ready-wait; `wait_items_le` leaves it. -/
def tailBudget : Nat := 10000

/-- A straight body and its completion. -/
theorem straight_endsWithin {items : List Item} {n : Nat} (h : StraightWithin items n) (hn : n < tailBudget)
    {s : State} (hq : s.hostIn = []) (q : Seq) (c : Completion) :
    EndsWithin s (items ++ [⟨q, .complete c⟩]) tailBudget := by
  obtain ⟨hs, hl⟩ := h
  have hp := passed_straight hs hq
  exact (hp.endsWithin (endsWithin_complete (hp.hostIn hq) q c)).mono (by omega)

/-- The ready-wait goes on to what follows, or completes with `Timeout` (41_ready_gate.md R151). -/
theorem waitReady_endsWithin {s : State} (hq : s.hostIn = []) (ht : s.latch.tmo = s.cfg.timeout)
    (hp : s.cfg.tPoll ≠ 0#32) {rest : List Item}
    (h : ∀ u : State, u.hostIn = [] → u.cfg = s.cfg → EndsWithin u rest tailBudget) :
    EndsWithin s (waitReady s.cfg ++ rest) (itemBound - 1) := by
  obtain ⟨k, hk⟩ := wait_ends hp
  have hbound : 3 * k + (s.waitBase + 4) + tailBudget ≤ itemBound - 1 :=
    wait_items_le hp (hk.elim And.left And.left)
  rcases hk with hready | hexpires
  · obtain ⟨u, hpass, -⟩ := wait_passed hq ht hready
    exact (hpass.endsWithin (h u (hpass.hostIn hq) hpass.cfg)).mono (by omega)
  · obtain ⟨u, hr, -, -, -, hrun⟩ := wait_timeout hq ht hexpires
    exact (endsWithin_fail hr (hrun rest 0)).mono (by omega)

/-- The re-check goes on to what follows, or completes with `Busy` (42_frame_codec.md R163). -/
theorem recheck_endsWithin {s : State} (hq : s.hostIn = []) {rest : List Item} {budget : Nat}
    (h : ∀ u : State, u.hostIn = [] → u.cfg = s.cfg → EndsWithin u rest budget) :
    EndsWithin s (recheckItems s.cfg ++ rest) (budget + 1) := by
  by_cases hlow : s.cfg.busyRecheck = true → s.answer 0 = false
  · obtain ⟨u, hpass, -⟩ := recheck_passed hq hlow
    exact (hpass.endsWithin (h u (hpass.hostIn hq) hpass.cfg)).mono (by split <;> omega)
  · obtain ⟨hon, hhigh⟩ := Classical.not_imp.mp hlow
    have hline : s.line = true := by simpa [State.line_eq_answer] using hhigh
    have hrun : runItems 1 { s with todo := recheckItems s.cfg ++ rest } = s.smp.fail .busy := by
      rw [recheckItems, if_pos hon, List.singleton_append,
        runItems_item (s := { s with todo := ⟨⟨.recheck, 0, 0⟩, .recheck⟩ :: rest }) hq rfl]
      exact if_pos hline
    exact (endsWithin_fail (ran_smp s) hrun).mono (by omega)

/-- `s` with the platform's next answer to `pin_grant()` drawn. -/
def State.grantDrawn (s : State) : State := { s with env := { s.env with grants := s.env.grants.rest } }

theorem ran_grantDrawn (s : State) : Ran s s.grantDrawn 0 0 0 [] :=
  { Ran.refl s with later := State.later_of_env rfl rfl, host := ⟨rfl, rfl, rfl, rfl, rfl⟩ }

/-- A granted ATTACH goes on to what follows, a refused one completes (43_system_ops.md R190). -/
theorem grant_endsWithin {s : State} (hq : s.hostIn = []) (q : Seq) {rest : List Item} {budget : Nat}
    (h : EndsWithin s.grantDrawn rest budget) : EndsWithin s (⟨q, .grant⟩ :: rest) (budget + 1) := by
  have hrun (n : Nat) : runItems (n + 1) { s with todo := ⟨q, .grant⟩ :: rest }
      = runItems n ({ s with todo := rest } : State).grant :=
    runItems_item (s := { s with todo := ⟨q, .grant⟩ :: rest }) hq rfl n
  by_cases hg : s.granted = true
  · have hgrant : ({ s with todo := rest } : State).grant = { s.grantDrawn with todo := rest } := if_pos hg
    obtain ⟨u, m, n, i, evs, hr, hc⟩ := h
    exact ⟨u, _, _, _, _, (ran_grantDrawn s).trans hr, by rwa [hrun, hgrant]⟩
  · have hgrant : ({ s with todo := rest } : State).grant = s.grantDrawn.fail .resourceUnavailable := if_neg hg
    exact (endsWithin_fail (ran_grantDrawn s) ((hrun 0).trans hgrant)).mono (by omega)

/-- The recovery phase issues at most 15 pulses and completes (42_frame_codec.md R165). -/
theorem recovery_endsWithin {s : State} (hq : s.hostIn = []) (q : Seq) (c : Completion) :
    EndsWithin s ([⟨⟨.recover, 0, 0⟩, .startPhase⟩, ⟨⟨.recover, 0, 0⟩, .clearRecn⟩, ⟨⟨.recover, 0, 0⟩, .recover⟩]
      ++ [⟨q, .complete c⟩]) 120 := by
  obtain ⟨r, hr⟩ := recovers_exists s 0
  obtain ⟨u, hp, -⟩ := recovery_passed hq hr
  refine (hp.endsWithin (endsWithin_complete (hp.hostIn hq) q c)).mono ?_
  have hle : r ≤ s.cfg.recoverMax.toNat := hr.1
  have hmax := s.cfg.recoverMax.isLt
  omega

/-! ### The bodies -/

/-- The preamble, a straight frame and its completion (42_frame_codec.md R166). -/
theorem preamble_endsWithin {s : State} (hq : s.hostIn = []) (ht : s.latch.tmo = s.cfg.timeout)
    (hp : s.cfg.tPoll ≠ 0#32) {items : List Item} {n : Nat} (h : StraightWithin items n) (hn : n < 1000) (q : Seq)
    (c : Completion) : EndsWithin s (preamble s.cfg ++ items ++ [⟨q, .complete c⟩]) (itemBound - 1) := by
  have hframe := ((readWord_straightWithin .data Config.sampleBits).append
    (pulses_straightWithin .enter Config.nEnter)).append h
  have hlen : 7 * Config.sampleBits + 2 + (5 * Config.nEnter + 1) + n < tailBudget := by
    simp only [Config.sampleBits, Config.nEnter, tailBudget]
    omega
  simpa only [preamble, List.append_assoc] using
    waitReady_endsWithin hq ht hp fun u hu _ => straight_endsWithin hframe hlen hu q c

theorem rawrd_endsWithin {s : State} (hq : s.hostIn = []) (ht : s.latch.tmo = s.cfg.timeout)
    (hp : s.cfg.tPoll ≠ 0#32) : EndsWithin s (rawrdBody s.cfg) (itemBound - 1) := by
  unfold rawrdBody
  simp only [List.append_assoc]
  refine waitReady_endsWithin hq ht hp fun u hu hcfg => ?_
  rw [← hcfg]
  refine (recheck_endsWithin (budget := 500) hu fun v hv _ => ?_).mono (by decide)
  obtain ⟨v1, p1, -⟩ := readWord_passed hv .data Config.sampleBits
  have hv1 := p1.hostIn hv
  obtain ⟨v2, p2, -⟩ := latchSample_passed hv1 ⟨.data, Config.sampleBits, 0⟩
  have hv2 := p2.hostIn hv1
  obtain ⟨v3, p3, -⟩ := pulses_passed hv2 .trail u.cfg.trailPulses.toNat
  refine (p1.endsWithin (p2.endsWithin (p3.endsWithin (recovery_endsWithin (p3.hostIn hv2) _ _)))).mono ?_
  have htrail := u.cfg.trailPulses.isLt
  simp only [Config.sampleBits]
  omega

theorem regwr_endsWithin {s : State} (hq : s.hostIn = []) (ht : s.latch.tmo = s.cfg.timeout)
    (hp : s.cfg.tPoll ≠ 0#32) (reg data : Byte) : EndsWithin s (regwrBody s.cfg reg data) (itemBound - 1) := by
  have hframe := ((writeWord_straightWithin s.cfg .cmd (wireCommand s.cfg s.cfg.cmdWr reg) s.cfg.cmdWidth.toNat).append
    (writeWord_straightWithin s.cfg .payload data Config.payloadBits)).append
    (pulses_straightWithin .exit Config.nExit)
  have hwidth := s.cfg.cmdWidth.isLt
  simpa only [regwrBody, completeAt, List.append_assoc] using preamble_endsWithin hq ht hp hframe
    (by simp only [Config.payloadBits, Config.nExit]; omega) ⟨.exit, 0, 0⟩ .plain

theorem regrd_endsWithin {s : State} (hq : s.hostIn = []) (ht : s.latch.tmo = s.cfg.timeout)
    (hp : s.cfg.tPoll ≠ 0#32) (reg : Byte) : EndsWithin s (regrdBody s.cfg reg) (itemBound - 1) := by
  have hframe := (((writeWord_straightWithin s.cfg .cmd (wireCommand s.cfg s.cfg.cmdRd reg) s.cfg.cmdWidth.toNat).append
    (turn_straightWithin s.cfg)).append (readWord_straightWithin .rdata Config.payloadBits)).append
    (pulses_straightWithin .exit Config.nExit)
  have hwidth := s.cfg.cmdWidth.isLt
  simpa only [regrdBody, completeAt, List.append_assoc] using preamble_endsWithin hq ht hp hframe
    (by simp only [Config.payloadBits, Config.nExit]; omega) ⟨.exit, 0, 0⟩ .byte

/-- What a command performs after its tests completes in time, if a ready-wait in it sleeps at all. -/
theorem bodyOf_endsWithin {i : Instr} {s : State} (hq : s.hostIn = []) (ht : s.latch.tmo = s.cfg.timeout)
    (hp : waitsForReady i = true → s.cfg.tPoll ≠ 0#32) : EndsWithin s (bodyOf i s.cfg) (itemBound - 1) := by
  have hb : tailBudget + 1 ≤ itemBound - 1 := by decide
  have straight {items : List Item} {n : Nat} (h : StraightWithin items n) (hn : n < tailBudget) (q : Seq)
      (c : Completion) : EndsWithin s (items ++ [⟨q, .complete c⟩]) (itemBound - 1) :=
    (straight_endsWithin h hn hq q c).mono (Nat.le_of_succ_le hb)
  cases i with
  | rdbit => exact straight readCell_straightWithin (by decide) ⟨.prim, 0, 0⟩ .bit
  | wrbit data =>
    exact straight (writeCells_straightWithin s.cfg .prim [bitOperand data]) (show 9 < tailBudget by decide)
      ⟨.prim, 0, 0⟩ .plain
  | pulse => exact straight (pulses_straightWithin .prim 1) (by decide) ⟨.prim, 0, 0⟩ .plain
  | waitrdy =>
    exact waitReady_endsWithin hq ht (hp rfl) fun u hu _ => (endsWithin_complete hu _ _).mono (by decide)
  | rawrd => exact rawrd_endsWithin hq ht (hp rfl)
  | regwr reg data => exact regwr_endsWithin hq ht (hp rfl) reg data
  | regrd reg => exact regrd_endsWithin hq ht (hp rfl) reg
  | chiprst =>
    exact straight (items := cellAt .reset 0 [.clk true, .hold .reset, .clk false, .hold .startup])
      ⟨by decide, Nat.le_refl _⟩ (by decide) ⟨.reset, 0, 4⟩ .plain
  | attach =>
    have hgranted := straight_endsWithin (items := [⟨⟨.attach, 0, 1⟩, .acquire⟩]) ⟨by decide, Nat.le_refl _⟩
      (by decide) (s := s.grantDrawn) hq ⟨.attach, 0, 2⟩ .attached
    exact (grant_endsWithin hq ⟨.attach, 0, 0⟩ hgranted).mono hb
  | detach =>
    exact straight (items := cellAt .detach 0 [.release]) ⟨by decide, Nat.le_refl _⟩ (by decide) ⟨.detach, 0, 1⟩
      .detached

/-! ### The obligation -/

/-- An undisturbed command completes: its tests refuse it, or its body ends (60_exceptions.md R254). -/
theorem exec_completes (i : Instr) {s : State} (h : s.acceptsQuietly) :
    ∃ u t m n mins evs, exec i s = .next t ∧ Ran (s.opened (encode i)) u m n mins evs ∧ CompletedFrom u t := by
  rw [exec_eq]
  cases hv : verdictOf i s with
  | some st => exact ⟨_, _, 0, 0, 0, [], rfl, .refl _, .inl ⟨st, issue_refused h _ _ _⟩⟩
  | none =>
    obtain ⟨-, -, hpoll, -⟩ := (verdictOf_none i s).mp hv
    obtain ⟨u, m, n, mins, evs, hr, hc⟩ := bodyOf_endsWithin (s := s.opened (encode i)) h.2 rfl hpoll
    exact ⟨u, _, m, n, mins, evs, rfl, hr, by rw [issue_passed h]; exact hc⟩

/-- Settles O46: every undisturbed command ends in a completion, and that clears `BITCNT`. -/
theorem bitcntIsZeroAfterCompletion : Obligations.BitcntIsZeroAfterCompletion := by
  intro i s t h hrun
  obtain ⟨u, t', _, _, _, _, ht', -, hc⟩ := exec_completes i h
  cases ht'.symm.trans hrun
  exact hc.bitcnt

end Sys2Proof.Machine
end

section
/-! The state after reset, and the ports in each wiring (10_state.md R22, R23, R45, R46). -/

namespace Sys2Proof.Machine

/-- Settles O36: the reset state is detached, with the pins at rest and every reserved bit 0. -/
theorem resetMeetsTheInvariant : Obligations.ResetMeetsTheInvariant := by
  unfold Obligations.ResetMeetsTheInvariant State.Inv
  exact ⟨by decide, by decide⟩

/-- After reset no Device Handle exists, so the attachment test refuses what needs one (10_state.md R46). -/
theorem verdictOf_reset {i : Instr} (hi : i ≠ .attach) (hw : i.wellFormed = true) :
    verdictOf i State.reset = some .resourceUnavailable := by
  have hd : checkAttached State.reset = some .resourceUnavailable := if_pos rfl
  cases i with
  | wrbit data =>
    have hf : checkFormat (fitsFormatB data) = none := checkFormat_none.mpr hw
    simp [verdictOf, hd, hf, firstFailure]
  | attach => exact absurd rfl hi
  | _ => simp [verdictOf, hd, firstFailure]

/-- Settles O45: the values of the table, and the refusal of every command but ATTACH. -/
theorem afterResetOnlyAttachIsPerformed : Obligations.AfterResetOnlyAttachIsPerformed := by
  refine ⟨rfl, rfl, rfl, rfl, rfl, rfl, rfl, rfl, fun i hi hw => ?_⟩
  have hq : State.reset.acceptsQuietly := ⟨by decide, rfl⟩
  have hrun : exec i State.reset = .next ((State.reset.opened (encode i)).fail .resourceUnavailable) := by
    rw [exec_eq, verdictOf_reset hi hw, issue_refused hq]
  exact ⟨_, hrun, rfl, rfl, rfl⟩

/-- Settles O53, by the wiring and `DRIVE`. -/
theorem portsFollowTheWiring : Obligations.PortsFollowTheWiring := by
  intro s
  refine ⟨fun hd => ?_, fun hd => ?_, fun hs => ?_, fun hs => ?_⟩
  · simp [State.ports, Pins.ports, Pins.doutDir, hd]
  · simp [State.ports, Pins.ports, hd]
  · simp [State.ports, Pins.ports, Pins.doutDir, hs]
  · refine ⟨by simp [State.ports, Pins.ports, hs], fun hd => ?_⟩
    simp [State.ports, Pins.ports, Pins.doutDir, hs, hd]

end Sys2Proof.Machine
end

section
/-! The host port: what a step serves and runs, and what an access changes (20_memory.md R62, R75, R76, R79,
10_state.md R28). -/

namespace Sys2Proof.Machine

/-! ### Register numbers beyond the table -/

theorem get_reserved (c : ConfigRegs) : ∀ {n : Nat}, 7 < n → c.get n = 0
  | _ + 8, _ => rfl

theorem set_reserved (c : ConfigRegs) (v : Word) : ∀ {n : Nat}, 7 < n → c.set n v = c
  | _ + 8, _ => rfl

theorem statusReg_reserved (s : State) (l : Level) : ∀ {n : Nat}, 6 < n → s.statusReg l n = 0
  | _ + 7, _ => rfl

/-- A write of a reserved CR changes nothing, for want of BUSY or of a register. -/
theorem hostAct_write_reserved (s : State) {n : Nat} (h : 7 < n) (v : Word) : s.hostAct (.write (.cr n) v) = s := by
  by_cases hb : s.eng = .busy
  · exact hostAct_write_busy hb n v
  · rw [hostAct_write hb, set_reserved s.cfg v h]

/-- Settles O42, register by register. -/
theorem reservedAndReadOnlyRegisters : Obligations.ReservedAndReadOnlyRegisters :=
  fun s _ v l => ⟨fun h => ⟨get_reserved s.cfg h, hostAct_write_reserved s h v⟩, statusReg_reserved s l, rfl⟩

/-! ### What a step does, by what is due -/

/-- The host's action that is due is the step. -/
theorem step_of_due {s : State} {a : HostAct} {rest : List HostIn} (h : s.hostIn = ⟨0, a⟩ :: rest) :
    step s = .next ({ s with hostIn := rest }.hostAct a) := by
  unfold step
  rw [h]
  rfl

/-- With none due the engine has its turn. -/
theorem step_of_not_due {s : State} (h : s.hostDue = false) : step s = engineTurn s := by
  rcases step_cases s with ⟨a, rest, hq, -⟩ | ⟨-, hs⟩
  · simp [State.hostDue, hq] at h
  · exact hs

theorem hostDue_nil {s : State} (h : s.hostIn = []) : s.hostDue = false := by
  unfold State.hostDue
  rw [h]

/-- The turn of an engine that is not BUSY is the served command, decoded (20_memory.md R75). -/
theorem engineTurn_of_served {s t : State} {c : HostCmd} {i : Instr} (he : s.eng ≠ .busy)
    (ha : s.arbitrate = some (c, t)) (hd : decode c.word = .ok i) : engineTurn s = exec i t := by
  unfold engineTurn
  cases hs : s.eng with
  | busy => exact absurd hs he
  | idle | detached => simp only [ha, hd]

/-- Settles O10: the presented command is the action that is due. -/
theorem commandPresentedWhileBusyWaits : Obligations.CommandPresentedWhileBusyWaits :=
  fun _ _ _ _ h => step_of_due h

/-- Settles O5: the engine has its turn and serves the command. -/
theorem stepRunsTheDecodedCommand : Obligations.StepRunsTheDecodedCommand :=
  fun _ _ _ _ hdue he ha hd => (step_of_not_due hdue).trans (engineTurn_of_served he ha hd)

theorem decode_of_decodeTableWord {nbits w : Nat} {i : Instr} (h : decodeTableWord nbits w = some i) :
    decode (tableWord nbits w) = .ok i := by
  unfold decodeTableWord at h
  split at h
  · next j hj =>
    cases h
    exact hj
  · cases h

theorem withFetchWord_not_busy (s : State) (nbits w : Nat) : (s.withFetchWord nbits w).eng ≠ .busy := by
  simp only [State.withFetchWord]
  split
  · split <;> simp
  · assumption

/-- Settles O6: the placed word is the only one waiting, and nothing is due before it. -/
theorem stepRunsThePlacedWord : Obligations.StepRunsThePlacedWord :=
  fun s nbits w _ h => stepRunsTheDecodedCommand (s.withFetchWord nbits w) _ ⟨s.requester, tableWord nbits w⟩ _ rfl
    (withFetchWord_not_busy s nbits w) rfl (decode_of_decodeTableWord h)

/-! ### The arbitration (20_memory.md R76) -/

theorem arbitrate_none {s : State} : s.arbitrate = none ↔ s.waiting = [] := by
  unfold State.arbitrate
  split <;> simp_all

/-- The served command leaves the waiting ones, and no other does. -/
theorem arbitrate_perm {s t : State} {c : HostCmd} (h : s.arbitrate = some (c, t)) :
    s.waiting.Perm (c :: t.waiting) := by
  unfold State.arbitrate at h
  split at h
  · cases h
  · next hw =>
    cases h
    rw [hw]
    exact .refl _
  · next b d cs hw =>
    have hk : s.env.picks.peek Config.arbiter % (cs.length + 2) < (b :: d :: cs).length :=
      Nat.mod_lt _ (Nat.succ_pos _)
    simp only [List.getD_eq_getElem _ _ hk] at h
    cases h
    rw [hw]
    exact (List.getElem_cons_eraseIdx_perm hk).symm

/-- The environment answers `j`: the waiting command number `j` is served. -/
theorem arbitrate_pick {s : State} {l : List HostCmd} (hw : s.waiting = l) {j : Nat} (h : j < l.length) :
    ∃ t, ({ s with env := { s.env with picks := ⟨[j], 0⟩ } } : State).arbitrate = some (l[j], t) := by
  unfold State.arbitrate
  simp only [hw]
  match l, h with
  | [c], h =>
    obtain rfl : j = 0 := Nat.lt_one_iff.mp h
    exact ⟨_, rfl⟩
  | c :: d :: cs, h =>
    have hj : j % (cs.length + 2) = j := Nat.mod_eq_of_lt h
    simp only [Source.peek, hj, List.getD_eq_getElem _ _ h]
    exact ⟨_, rfl⟩

/-- Settles O9: one of the waiting commands is served, and any of them may be. -/
theorem arbitrationServesAnyWaitingCommand : Obligations.ArbitrationServesAnyWaitingCommand := by
  refine ⟨fun s t c h => ?_, fun s => arbitrate_none, fun s j h => ⟨_, arbitrate_pick rfl h⟩⟩
  obtain ⟨heng, htodo, hpins, hregs, hnow, hcfg, hstatus, hlatch, -, htrace, hresp, -, hwho, henv⟩ := arbitrate_frame h
  refine ⟨arbitrate_perm h, hwho, heng, htodo, hpins, hregs, hnow, hcfg, hstatus, hlatch, htrace, hresp, ?_⟩
  rw [henv]
  exact ⟨rfl, rfl, rfl⟩

/-! ### What may change the configuration (20_memory.md R79) -/

theorem runItems_cfg (n : Nat) (s : State) : (runItems n s).cfg = s.cfg := by
  obtain ⟨-, -, -, hcfg, -⟩ := runItems_traced n s
  exact hcfg

theorem issue_cfg (s : State) (w : Word) (v : Option Status) (body : List Item) : (s.issue w v body).cfg = s.cfg := by
  unfold State.issue
  split
  · rfl
  · exact runItems_cfg itemBound (s.accept w v body)

/-- The engine in its turn never writes the configuration. -/
theorem engineTurn_cfg {s t : State} (h : engineTurn s = .next t) : t.cfg = s.cfg := by
  rcases engineTurn_cases s with ⟨-, ht⟩ | ⟨-, -, ht⟩ | ⟨-, c, u, ha, hd⟩
  · cases ht.symm.trans h
    exact runItems_cfg itemBound s
  · cases ht.symm.trans h
    rfl
  · obtain ⟨-, -, -, -, -, hcfg, -⟩ := arbitrate_frame ha
    rw [← hcfg]
    rcases hd with ⟨i, -, ht⟩ | ⟨e, -, ht⟩
    · rw [exec_eq] at ht
      cases ht.symm.trans h
      exact issue_cfg u _ _ _
    · cases ht.symm.trans h
      exact issue_cfg u _ _ _

/-- Of the host's actions, a write of a CR while not BUSY and the engine reset. -/
theorem hostAct_cfg {s : State} {a : HostAct} (h : (s.hostAct a).cfg ≠ s.cfg) :
    (∃ n v, a = .write (.cr n) v ∧ s.eng ≠ .busy) ∨ a = .engineReset := by
  cases a with
  | write r v =>
    rcases hostWrite_cases s r v with hw | ⟨n, rfl, he, -⟩
    · exact absurd (congrArg State.cfg hw) h
    · exact .inl ⟨n, v, rfl, he⟩
  | engineReset => exact .inr rfl
  | present c => exact absurd rfl h
  | read who r => exact absurd rfl h
  | pass ticks => exact absurd rfl h

/-- Settles O39: a step is an action of the host or the engine's turn. -/
theorem onlyTheHostConfigures : Obligations.OnlyTheHostConfigures := by
  intro s t h hne
  rcases step_cases s with ⟨a, rest, hq, hs⟩ | ⟨-, hs⟩
  · cases hs.symm.trans h
    refine ⟨rest, ?_⟩
    rcases hostAct_cfg hne with ⟨n, v, rfl, he⟩ | rfl
    · exact .inl ⟨n, v, hq, he⟩
    · exact .inr hq
  · exact absurd (engineTurn_cfg (hs.symm.trans h)) hne

end Sys2Proof.Machine
end

section
/-! The host's side of the state stands beside the engine's: the sequencer neither reads nor writes it, so an access that
lands inside an operation leaves the operation as it was (20_memory.md R79, 10_state.md R28). -/

namespace Sys2Proof.Machine

/-! ### The host's side -/

/-- What an access that lands while BUSY may change, and the host's coming actions. -/
structure HostSide where
  waiting : List HostCmd
  hostIn : List HostIn
  reads : List HostRead
  pinReads : Source Level

/-- `s` with another host's side. -/
def State.beside (s : State) (h : HostSide) : State :=
  { s with waiting := h.waiting, hostIn := h.hostIn, reads := h.reads, env := { s.env with pinReads := h.pinReads } }

/-- The host's side of `s`. -/
def State.hostSide (s : State) : HostSide := ⟨s.waiting, s.hostIn, s.reads, s.env.pinReads⟩

@[simp] theorem beside_hostIn (s : State) (h : HostSide) : (s.beside h).hostIn = h.hostIn := rfl

@[simp] theorem beside_todo (s : State) (h : HostSide) : (s.beside h).todo = s.todo := rfl

theorem sameEngine_beside (s : State) (h : HostSide) : SameEngine (s.beside h) s :=
  ⟨rfl, rfl, rfl, rfl, rfl, rfl, rfl, rfl, rfl, rfl, rfl, rfl, rfl⟩

/-- An access that lands while BUSY touches the host's side alone. -/
theorem hostAct_beside {s : State} (hb : s.eng = .busy) {a : HostAct} (ha : a.isAccess = true) :
    ∃ h : HostSide, h.hostIn = s.hostIn ∧ s.hostAct a = s.beside h := by
  cases a with
  | present c => exact ⟨{ s.hostSide with waiting := s.waiting ++ [c] }, rfl, rfl⟩
  | write r v =>
    refine ⟨s.hostSide, rfl, ?_⟩
    rcases hostWrite_cases s r v with hw | ⟨n, -, hne, -⟩
    · exact hw
    · exact absurd hb hne
  | read who r =>
    refine ⟨(s.hostRead who r).hostSide, rfl, ?_⟩
    cases hr : r.samplesLine <;> simp [State.hostAct, State.hostRead, State.beside, State.hostSide, hr]
  | engineReset => cases ha
  | pass n => cases ha

/-! ### The sequencer beside the host -/

/-- No item looks at the host's side: neither a plain one nor the test of one that branches. -/
theorem perform_beside (s : State) (it : Item) (h : HostSide) : (s.beside h).perform it = (s.perform it).beside h := by
  obtain ⟨q, a⟩ := it
  cases a with
  | poll | expire | recheck | recover | grant =>
    simp only [State.perform, State.poll, State.expire, State.recheck, State.recover, State.grant,
      apply_ite (State.beside · h)]
    rfl
  | check v => cases v <;> rfl
  | _ => rfl

theorem sequence_cons {s : State} {it : Item} {rest : List Item} (ht : s.todo = it :: rest) :
    s.sequence = { s with todo := rest, hostIn := countDown s.hostIn }.perform it := by
  unfold State.sequence
  rw [ht]

/-- One item more passes for the host's next action; what is performed is the same. -/
theorem sequence_beside {s : State} (h : HostSide) (ht : s.todo ≠ []) :
    (s.beside h).sequence = s.sequence.beside { h with hostIn := countDown h.hostIn } := by
  obtain ⟨it, rest, ht⟩ := List.exists_cons_of_ne_nil ht
  rw [sequence_cons ht, sequence_cons (s := s.beside h) ht]
  exact perform_beside { s with todo := rest, hostIn := countDown s.hostIn } it { h with hostIn := countDown h.hostIn }

theorem sequence_hostIn {s : State} (hq : s.hostIn = []) : s.sequence.hostIn = [] := by
  unfold State.sequence
  split
  · exact hq
  · simp [hq, countDown]

theorem runItems_hostIn {s : State} (hq : s.hostIn = []) (n : Nat) : (runItems n s).hostIn = [] := by
  induction n generalizing s with
  | zero => exact hq
  | succ n ih =>
    rw [runItems_succ]
    split
    · exact hq
    · exact ih (sequence_hostIn hq)

/-- With no action coming, the sequencer stops only at the end of the operation. -/
theorem paused_quiet {s : State} (hq : s.hostIn = []) : s.paused = s.todo.isEmpty := by
  simp [State.paused, State.hostDue, hq]

/-- With no action coming on either side, both runs are the same run. -/
theorem runItems_beside {s : State} {h : HostSide} (hs : s.hostIn = []) (hh : h.hostIn = []) (n : Nat) :
    runItems n (s.beside h) = (runItems n s).beside h := by
  induction n generalizing s with
  | zero => rfl
  | succ n ih =>
    rw [runItems_succ, runItems_succ, paused_quiet hs, paused_quiet (s := s.beside h) hh, beside_todo]
    split
    · rfl
    · next ht =>
      have hside : ({ h with hostIn := countDown h.hostIn } : HostSide) = h := by
        obtain ⟨w, l, r, p⟩ := h
        obtain rfl : l = [] := hh
        rfl
      rw [sequence_beside h (by simpa using ht), hside]
      exact ih (sequence_hostIn hs)

/-! ### An action that comes in the middle -/

/-- The run up to an action that comes is a part of the run with none: it stops at the end of the operation, where the
action lands, or at the bound. -/
theorem runItems_until {s : State} (hs : s.hostIn = []) (h : HostSide) (a : HostAct) (m n : Nat) :
    ∃ k j, k ≤ m ∧ runItems m (s.beside { h with hostIn := [⟨n, a⟩] })
        = (runItems k s).beside { h with hostIn := [⟨j, a⟩] } ∧
      ((runItems k s).todo = [] ∨ j = 0 ∨ k = m) := by
  induction m generalizing s n with
  | zero => exact ⟨0, n, Nat.le_refl _, rfl, .inr (.inr rfl)⟩
  | succ m ih =>
    by_cases ht : s.todo = []
    · exact ⟨0, n, Nat.zero_le _, runItems_paused (paused_of_done (by exact ht)) _, .inl ht⟩
    · cases n with
      | zero =>
        refine ⟨0, 0, Nat.zero_le _, runItems_paused ?_ _, .inr (.inl rfl)⟩
        simp [State.paused, State.hostDue]
      | succ n =>
        obtain ⟨k, j, hk, hrun, hstop⟩ := ih (sequence_hostIn hs) n
        have hsnd : runItems (k + 1) s = runItems k s.sequence := by
          rw [runItems_succ, paused_quiet hs, if_neg (by simpa using ht)]
        have hfst : (s.beside { h with hostIn := [⟨n + 1, a⟩] }).paused = false := by
          simp [State.paused, State.hostDue, ht]
        refine ⟨k + 1, j, Nat.succ_le_succ hk, ?_, ?_⟩
        · rw [hsnd, ← hrun, runItems_succ, hfst, sequence_beside _ ht]
          rfl
        · rw [hsnd]
          exact hstop.imp_right (Or.imp_right (congrArg Nat.succ))

/-! ### A command an access lands in -/

/-- An operation that has completed does not hold the engine (60_exceptions.md R254). -/
theorem CompletedFrom.not_busy {u t : State} (h : CompletedFrom u t) (he : u.latch.heldEng ≠ .busy) :
    t.eng ≠ .busy := by
  rcases h with ⟨st, rfl⟩ | ⟨c, rfl⟩
  · exact he
  · cases c with
    | attached | detached => exact Eng.noConfusion
    | plain | bit | sample | byte => exact he

/-- Once the operation has ended, a longer run ends there too. -/
theorem runItems_of_ended {s t : State} {m n : Nat} (h : runItems m s = t) (ht : t.todo = []) (hmn : m ≤ n) :
    runItems n s = t := by
  rw [← Nat.add_sub_cancel' hmn, runItems_add, h]
  exact runItems_paused (paused_of_done ht) _

/-- A run that an action cuts while BUSY has come a part of the way to its end when the action is due. -/
theorem runItems_cut {s t : State} (hq : s.hostIn = []) {m n : Nat} {a : HostAct} {side : HostSide}
    (ht : runItems m s = t) (hdone : t.todo = []) (hidle : t.eng ≠ .busy)
    (hb : (runItems m (s.beside { side with hostIn := [⟨n, a⟩] })).eng = .busy) :
    ∃ r : State, r.hostIn = [] ∧ r.eng = .busy ∧
      runItems m (s.beside { side with hostIn := [⟨n, a⟩] }) = r.beside { side with hostIn := [⟨0, a⟩] } ∧
      runItems m r = t := by
  obtain ⟨k, j, hk, hrun, hstop⟩ := runItems_until hq side a m n
  have hrest : runItems (m - k) (runItems k s) = t := by rw [← runItems_add, Nat.add_sub_cancel' hk, ht]
  have hbusy : (runItems k s).eng = .busy := by
    rw [hrun] at hb
    exact hb
  rcases hstop with hend | rfl | rfl
  · rw [runItems_paused (paused_of_done hend)] at hrest
    exact absurd (hrest ▸ hbusy) hidle
  · exact ⟨_, runItems_hostIn hq k, hbusy, hrun, runItems_of_ended hrest hdone (Nat.sub_le m k)⟩
  · exact absurd (ht ▸ hbusy) hidle

/-- A command that can be accepted is accepted and run. -/
theorem exec_accepts (i : Instr) {s : State} (h : s.eng ≠ .busy) :
    exec i s = .next (runItems itemBound (s.accept (encode i) (verdictOf i s) (bodyOf i s.cfg))) := by
  rw [exec_eq, State.issue, if_neg h]
  rfl

/-- The same with an action of the host scheduled: the tests and the body do not look at it. -/
theorem exec_accepts_scheduled (i : Instr) {s : State} (h : s.eng ≠ .busy) (l : List HostIn) :
    exec i { s with hostIn := l } = .next (runItems itemBound
      ((s.accept (encode i) (verdictOf i s) (bodyOf i s.cfg)).beside { s.hostSide with hostIn := l })) := by
  rw [exec_accepts i (s := { s with hostIn := l }) h, verdictOf_congr (s := s) (t := { s with hostIn := l }) i rfl rfl]
  rfl

/-- An undisturbed command ends, and leaves the engine not BUSY. -/
theorem exec_ends {i : Instr} {s t : State} (h : s.acceptsQuietly) (ht : exec i s = .next t) :
    t.todo = [] ∧ t.eng ≠ .busy := by
  obtain ⟨u, t', _, _, _, _, ht', hr, hc⟩ := exec_completes i h
  cases ht'.symm.trans ht
  exact ⟨hc.todo, hc.not_busy (hr.heldEng ▸ h.1)⟩

theorem engineTurn_of_busy {s : State} (h : s.eng = .busy) : engineTurn s = .next s.engineRun := by
  unfold engineTurn
  rw [h]

/-- Settles O40: the access touches the host's side alone, and beside it the operation runs on to its undisturbed end. -/
theorem hostAccessDoesNotDisturbAnOperation : Obligations.HostAccessDoesNotDisturbAnOperation := by
  intro i s t u n a h ha ht hu hb
  obtain ⟨hdone, hidle⟩ := exec_ends h ht
  obtain ⟨hfree, hq⟩ := h
  cases (exec_accepts_scheduled i hfree _).symm.trans hu
  obtain ⟨r, hrq, hr, hcut, hend⟩ :=
    runItems_cut (s := s.accept (encode i) (verdictOf i s) (bodyOf i s.cfg)) hq
      (Host.Outcome.next.inj ((exec_accepts i hfree).symm.trans ht)) hdone hidle hb
  obtain ⟨after, hafter, hact⟩ :=
    hostAct_beside (s := r.beside { s.hostSide with hostIn := [] }) hr ha
  have hrun : (r.beside after).engineRun = t.beside after := by
    rw [State.engineRun, runItems_beside hrq hafter, hend]
  refine ⟨r.beside after, ?_, hr, t.beside after, ?_, sameEngine_beside t after⟩
  · rw [hcut]
    exact (step_of_due rfl).trans (congrArg _ hact)
  · rw [step_of_not_due (hostDue_nil hafter), engineTurn_of_busy (s := r.beside after) hr, hrun]

end Sys2Proof.Machine
end

section
/-! A call that waits for its response: what the other moves leave of it, and what an engine reset does to it
(20_memory.md R75 to R77, 44_host_config_and_sampling.md R216, R234, R235, 70_reset_and_hazards.md R281, R296). -/

namespace Sys2Proof.Facade

open Sys2Proof.Machine

/-! ### The caller's own move -/

theorem move_caller (p : Params) {y : System} {k : Nat} {a : Activity} (h : y.activity k = some a) :
    y.move p (.caller k) = y.callerMove p a := by
  simp only [System.move, h]

/-- A caller that is in no call has nothing to move. -/
theorem move_caller_none (p : Params) {y : System} {k : Nat} (h : y.activity k = none) : y.move p (.caller k) = y := by
  simp only [System.move, h]

/-- It waits until the response is there. -/
theorem callerMove_waits (p : Params) {y : System} {a : Activity} {since : Nat} {e : Effect}
    (hp : a.place = .awaiting since e) (hr : replyTo y.engine since (callerRequester a.caller) = none) :
    y.callerMove p a = y := by
  unfold System.callerMove
  simp only [hp, hr]

/-- It acts on the response that is there. -/
theorem callerMove_receives (p : Params) {y : System} {a : Activity} {since : Nat} {e : Effect} {r : Response}
    (hp : a.place = .awaiting since e) (hr : replyTo y.engine since (callerRequester a.caller) = some r) :
    y.callerMove p a = y.receive p a e r := by
  unfold System.callerMove
  simp only [hp, hr]

/-! ### The moves of the others -/

theorem receive_other (p : Params) (y : System) (a : Activity) (e : Effect) (r : Response) {k : Nat}
    (hk : k ≠ a.caller) : (y.receive p a e r).activity k = y.activity k := by
  unfold System.receive
  split
  · exact put_activity_other _ ((succeed_caller a e r).symm ▸ hk)
  · exact put_activity_other _ hk

/-- A call that ends takes only its own entry along. -/
theorem find_filter_other (l : List Activity) {j k : Nat} (hk : k ≠ j) :
    (l.filter fun b => decide (b.caller ≠ j)).find? (fun b => decide (b.caller = k))
      = l.find? fun b => decide (b.caller = k) := by
  rw [List.find?_filter]
  congr 1
  funext b
  by_cases hb : b.caller = k
  · simp [hb, hk]
  · simp [hb]

/-- A caller's move leaves the calls of the others alone, but for the engine reset of an attach. -/
theorem callerMove_other (p : Params) (y : System) (a : Activity) {k : Nat} (hk : k ≠ a.caller)
    (hreset : a.place = .ready → a.jobs.head? = some .engineReset → y.host.handle = true) :
    (y.callerMove p a).activity k = y.activity k := by
  unfold System.callerMove
  split
  · split
    · rfl
    · exact receive_other p y a _ _ hk
  · split
    · exact put_activity_other y hk
    · rfl
  · next hplace =>
    split
    · exact find_filter_other y.calls hk
    · next j js hjobs =>
      refine doJob_other p y a j hk fun hj => hreset hplace ?_
      rw [hjobs, hj]
      rfl

/-- A call that begins comes after those in progress. -/
theorem begin_other (p : Params) {y : System} {k : Nat} {a : Activity} (h : y.activity k = some a) (j : Nat) (c : Call) :
    (y.begin p j c).activity k = some a := by
  unfold System.begin
  split
  · exact h
  · split
    · exact h
    · unfold System.activity at h ⊢
      rw [List.find?_append, h]
      rfl

theorem engineMove_calls (p : Params) {y : System} (hr : resetDue y.engine = false) :
    (y.engineMove p).calls = y.calls := by
  unfold System.engineMove
  rw [hr]
  split <;> rfl

/-- No move of another agent, and no time, changes a call but for an engine reset. -/
theorem move_other (p : Params) {y : System} {k : Nat} {a : Activity} (h : y.activity k = some a) {m : Move}
    (hm : m ≠ .caller k) (hs : y.strikes m = false) : (y.move p m).activity k = some a := by
  cases m with
  | call j c => exact begin_other p h j c
  | caller j =>
    cases hj : y.activity j with
    | none => rw [move_caller_none p hj, h]
    | some b =>
      have hk : k ≠ b.caller := by
        rintro rfl
        exact hm (congrArg Move.caller (activity_caller hj).symm)
      rw [move_caller p hj, callerMove_other p y b hk, h]
      intro hplace hjobs
      simpa [System.strikes, hj, hplace, hjobs] using hs
  | task =>
    obtain ⟨-, hcalls, -⟩ := taskMove_frame p y
    exact (activity_congr hcalls).trans h
  | engine => exact (activity_congr (engineMove_calls p hs)).trans h
  | pass ticks => exact h
  | engineReset => cases hs

/-! ### An engine reset -/

/-- Whatever makes it, an engine reset strikes; beside that it moves only the call whose attach has pulled it, which
was about to do so. -/
theorem move_strikes (p : Params) {y : System} {m : Move} (hs : y.strikes m = true) :
    ∃ t, t.eng = .detached ∧ (y.move p m = y.strike p t ∨
      ∃ a, y.activity a.caller = some a ∧ a.place = .ready ∧ y.move p m = (y.strike p t).put a.next) := by
  cases m with
  | caller j =>
    cases hj : y.activity j with
    | none => simp [System.strikes, hj] at hs
    | some a =>
      simp only [System.strikes, hj, Bool.and_eq_true, decide_eq_true_eq, Bool.not_eq_true'] at hs
      obtain ⟨⟨hplace, hjobs⟩, hhandle⟩ := hs
      obtain ⟨js, hjobs⟩ := List.head?_eq_some_iff.mp hjobs
      refine ⟨y.engine.hostAct .engineReset, rfl, .inr ⟨a, (activity_caller hj).symm ▸ hj, hplace, ?_⟩⟩
      rw [move_caller p hj]
      simp [System.callerMove, hplace, hjobs, System.doJob, hhandle]
  | engine =>
    obtain ⟨rest, hq⟩ := (resetDue_iff y.engine).mp hs
    exact ⟨_, rfl, .inl (engineMove_reset p hq)⟩
  | engineReset => exact ⟨_, rfl, .inl rfl⟩
  | call j c => cases hs
  | task => cases hs
  | pass ticks => cases hs

/-- What an engine reset leaves: no handle, a free lock, no task, an engine that is detached with nothing waiting, and a
waiting call with nothing left to do. -/
theorem move_struck (p : Params) {y : System} {k since : Nat} {a : Activity} {e : Effect} (h : y.activity k = some a)
    (hp : a.place = .awaiting since e) {m : Move} (hs : y.strikes m = true) :
    (y.move p m).activity k = some ⟨k, [], .ready, .rejected .resourceUnavailable⟩ ∧
      (y.move p m).engine.eng = .detached ∧ (y.move p m).engine.waiting = [] ∧
      (y.move p m).host = y.host.struck p (decide (y.engine.eng = .busy)) := by
  obtain ⟨t, ht, hmove⟩ := move_strikes p hs
  have hcut : (y.strike p t).activity k = some ⟨k, [], .ready, .rejected .resourceUnavailable⟩ := by
    rw [strike_activity, h, Option.map_some, cut_awaiting hp, activity_caller h]
  rcases hmove with hmove | ⟨b, hb, hready, hmove⟩ <;> rw [hmove]
  · exact ⟨hcut, ht, rfl, rfl⟩
  · have hk : k ≠ b.next.caller := by
      rintro rfl
      cases h.symm.trans hb
      cases hp.symm.trans hready
    exact ⟨(put_activity_other _ hk).trans hcut, ht, rfl, rfl⟩

/-- Settles O55: the caller's own move by the response, the other moves by whether an engine reset strikes. -/
theorem callsAwaitTheirResponse : Obligations.CallsAwaitTheirResponse := by
  intro y p k since a e h hp
  obtain rfl : a.caller = k := activity_caller h
  refine ⟨fun hr => ?_, fun r hr => ?_, fun m hm hs => move_other p h hm hs, fun m hs => ?_⟩
  · rw [move_caller p h, callerMove_waits p hp hr]
  · rw [move_caller p h, callerMove_receives p hp hr, receive_host]
  · obtain ⟨hcall, heng, hwaiting, hhost⟩ := move_struck p h hp hs
    rw [hhost]
    exact ⟨hcall, heng, hwaiting, rfl, rfl, rfl, rfl⟩

end Sys2Proof.Facade
end

section
/-! The command word: the encoder and the decoder undo each other, and the row a word selects is the row of its command
(30_encoding.md R90 to R93). -/

namespace Sys2Proof

/-! ### From a command to its word and back -/

/-- The decoder reads the fields of `encode i` back and finds the row by its `op`; the operand of WRBIT passes the check of
its format because the command is well formed. -/
theorem decode_encode {i : Instr} (h : i.wellFormed = true) : decode (encode i) = .ok i := by
  cases i with
  | wrbit data =>
    have hB : decodeB .wrbit 0 data = .ok (.wrbit data) := if_pos ⟨rfl, h⟩
    simp only [encode, decode, opField_commandWord, zeroField_commandWord, regField_commandWord, dataField_commandWord]
    exact hB
  | _ =>
    simp only [encode, decode, opField_commandWord, zeroField_commandWord, regField_commandWord, dataField_commandWord]
    rfl

/-! ### From a word to its command and back -/

theorem decodeN_ok {i j : Instr} {reg data : Byte} :
    decodeN i reg data = .ok j ↔ (reg = 0#8 ∧ data = 0#8) ∧ i = j := by
  unfold decodeN; split <;> simp_all

theorem decodeB_ok {f : Byte → Instr} {j : Instr} {reg data : Byte} :
    decodeB f reg data = .ok j ↔ (reg = 0#8 ∧ fitsFormatB data = true) ∧ f data = j := by
  unfold decodeB; split <;> simp_all

theorem decodeR_ok {f : Byte → Instr} {j : Instr} {reg data : Byte} :
    decodeR f reg data = .ok j ↔ data = 0#8 ∧ f reg = j := by
  unfold decodeR; split <;> simp_all

/-- A word is given by its fields when its `zero` field is 0. -/
theorem commandWord_eq {w : Word} {op reg data : Byte} (hzero : zeroField w = 0#8) (hop : opField w = op)
    (hreg : regField w = reg) (hdata : dataField w = data) : commandWord op reg data = w := by
  rw [← hop, ← hreg, ← hdata, commandWord_of_fields hzero]

/-- A row of format N holds one word. -/
theorem encode_of_decodeN {w : Word} {op : Byte} {i j : Instr} (hzero : zeroField w = 0#8) (hop : opField w = op)
    (henc : encode i = commandWord op 0 0) (hwf : i.wellFormed = true)
    (h : decodeN i (regField w) (dataField w) = .ok j) : encode j = w ∧ j.wellFormed = true := by
  obtain ⟨⟨hreg, hdata⟩, rfl⟩ := decodeN_ok.mp h
  exact ⟨henc.trans (commandWord_eq hzero hop hreg hdata), hwf⟩

/-- By the row the decoder finds: the fields it reads, and those its format wants to be 0, are all of the word. -/
theorem encode_of_decode {w : Word} {i : Instr} (h : decode w = .ok i) : encode i = w ∧ i.wellFormed = true := by
  rcases ite_eq_iff.mp h with ⟨-, h⟩ | ⟨hz, h⟩
  · cases h
  have hzero : zeroField w = 0#8 := not_not.mp hz
  rcases ite_eq_iff.mp h with ⟨hop, h⟩ | ⟨-, h⟩
  · exact encode_of_decodeN hzero hop rfl rfl h
  rcases ite_eq_iff.mp h with ⟨hop, h⟩ | ⟨-, h⟩
  · obtain ⟨⟨hreg, hfits⟩, rfl⟩ := decodeB_ok.mp h
    exact ⟨commandWord_eq hzero hop hreg rfl, hfits⟩
  rcases ite_eq_iff.mp h with ⟨hop, h⟩ | ⟨-, h⟩
  · exact encode_of_decodeN hzero hop rfl rfl h
  rcases ite_eq_iff.mp h with ⟨hop, h⟩ | ⟨-, h⟩
  · exact encode_of_decodeN hzero hop rfl rfl h
  rcases ite_eq_iff.mp h with ⟨hop, h⟩ | ⟨-, h⟩
  · exact encode_of_decodeN hzero hop rfl rfl h
  rcases ite_eq_iff.mp h with ⟨hop, h⟩ | ⟨-, h⟩
  · cases h
    exact ⟨commandWord_eq hzero hop rfl rfl, rfl⟩
  rcases ite_eq_iff.mp h with ⟨hop, h⟩ | ⟨-, h⟩
  · obtain ⟨hdata, rfl⟩ := decodeR_ok.mp h
    exact ⟨commandWord_eq hzero hop rfl hdata, rfl⟩
  rcases ite_eq_iff.mp h with ⟨hop, h⟩ | ⟨-, h⟩
  · exact encode_of_decodeN hzero hop rfl rfl h
  rcases ite_eq_iff.mp h with ⟨hop, h⟩ | ⟨-, h⟩
  · exact encode_of_decodeN hzero hop rfl rfl h
  rcases ite_eq_iff.mp h with ⟨hop, h⟩ | ⟨-, h⟩
  · exact encode_of_decodeN hzero hop rfl rfl h
  cases h

/-! ### The rows of the table (30_encoding.md R92) -/

/-- The word of a well-formed command lies in the command's row. -/
theorem encode_and_rowMask {i : Instr} (h : i.wellFormed = true) : encode i &&& i.rowMask = i.rowMatch := by
  have hrow : Laws.MatchesRow.Statement i := by
    cases i with
    | rdbit => exact Laws.MatchesRow.rdbit
    | wrbit data => exact Laws.MatchesRow.wrbit data
    | pulse => exact Laws.MatchesRow.pulse
    | waitrdy => exact Laws.MatchesRow.waitrdy
    | rawrd => exact Laws.MatchesRow.rawrd
    | regwr reg data => exact Laws.MatchesRow.regwr reg data
    | regrd reg => exact Laws.MatchesRow.regrd reg
    | chiprst => exact Laws.MatchesRow.chiprst
    | attach => exact Laws.MatchesRow.attach
    | detach => exact Laws.MatchesRow.detach
  exact hrow h

/-- The command of the row of `i` with the operands of the word `w`. -/
def Instr.withOperandsOf (i : Instr) (w : Word) : Instr :=
  match i with
  | .wrbit _ => .wrbit (dataField w)
  | .regwr _ _ => .regwr (regField w) (dataField w)
  | .regrd _ => .regrd (regField w)
  | .rdbit => .rdbit
  | .pulse => .pulse
  | .waitrdy => .waitrdy
  | .rawrd => .rawrd
  | .chiprst => .chiprst
  | .attach => .attach
  | .detach => .detach

theorem rowMask_withOperandsOf (i : Instr) (w : Word) : (i.withOperandsOf w).rowMask = i.rowMask := by
  cases i <;> rfl

theorem rowMatch_withOperandsOf (i : Instr) (w : Word) : (i.withOperandsOf w).rowMatch = i.rowMatch := by
  cases i <;> rfl

/-- A field the mask keeps whole is that of the match. -/
theorem extractLsb'_of_masked {w mask m : Word} {start len : Nat} (h : w &&& mask = m)
    (hmask : mask.extractLsb' start len = BitVec.allOnes len) : w.extractLsb' start len = m.extractLsb' start len := by
  rw [← h, Machine.extractLsb'_masked hmask]

/-- A mask of ones holds a row of one word. -/
theorem eq_of_and_ones {w m : Word} (h : w &&& 0xFFFFFFFF = m) : m = w := by
  rw [← h]
  exact BitVec.and_allOnes

/-- A word of a row is that of the row's command with the word's operands: each mask keeps all that is no operand. -/
theorem encode_withOperandsOf {i : Instr} {w : Word} (h : w &&& i.rowMask = i.rowMatch) :
    encode (i.withOperandsOf w) = w ∧ (i.withOperandsOf w).wellFormed = true := by
  cases i with
  | wrbit data =>
    have h : w &&& 0xFFFFFFFE = 0x02000000 := h
    have hzero : zeroField w = 0#8 := extractLsb'_of_masked h rfl
    have hop : opField w = 0x02 := extractLsb'_of_masked h rfl
    have hreg : regField w = 0#8 := extractLsb'_of_masked h rfl
    have hdata : dataField w &&& 0xFE#8 = 0#8 := BitVec.extractLsb'_and.symm.trans (congrArg dataField h)
    exact ⟨commandWord_eq hzero hop hreg rfl, beq_iff_eq.mpr hdata⟩
  | regwr reg data =>
    have h : w &&& 0xFFFF0000 = 0x11000000 := h
    have hzero : zeroField w = 0#8 := extractLsb'_of_masked h rfl
    have hop : opField w = 0x11 := extractLsb'_of_masked h rfl
    exact ⟨commandWord_eq hzero hop rfl rfl, rfl⟩
  | regrd reg =>
    have h : w &&& 0xFFFF00FF = 0x12000000 := h
    have hzero : zeroField w = 0#8 := extractLsb'_of_masked h rfl
    have hop : opField w = 0x12 := extractLsb'_of_masked h rfl
    have hdata : dataField w = 0#8 := extractLsb'_of_masked h rfl
    exact ⟨commandWord_eq hzero hop rfl hdata, rfl⟩
  | _ => exact ⟨eq_of_and_ones h, rfl⟩

theorem rowMatch_of_decode {w : Word} {i : Instr} (h : decode w = .ok i) : w &&& i.rowMask = i.rowMatch := by
  obtain ⟨hw, hwf⟩ := encode_of_decode h
  rw [← hw, encode_and_rowMask hwf]

theorem decode_of_rowMatch {w : Word} {i : Instr} (h : w &&& i.rowMask = i.rowMatch) :
    decode w = .ok (i.withOperandsOf w) := by
  obtain ⟨hw, hwf⟩ := encode_withOperandsOf h
  have hd := decode_encode hwf
  rwa [hw] at hd

/-- A word of no row does not decode (30_encoding.md R93). -/
theorem decode_reserved {w : Word} (h : ∀ i : Instr, w &&& i.rowMask ≠ i.rowMatch) : ∃ e, decode w = .error e := by
  cases hd : decode w with
  | ok i => exact absurd (rowMatch_of_decode hd) (h i)
  | error e => exact ⟨e, rfl⟩

/-! ### The obligations -/

/-- Settles O1, by the command. -/
theorem decodeOfEncodeIsTheCommand : Obligations.DecodeOfEncodeIsTheCommand :=
  fun _ h => decode_encode h

/-- Settles O2, by the row the decoder finds. -/
theorem encodeOfDecodeIsTheWord : Obligations.EncodeOfDecodeIsTheWord :=
  fun _ _ h => encode_of_decode h

/-- Settles O3: a decoded word is its command's, and a word of a row is that of a command of the row. -/
theorem decodeSelectsRowByMaskAndMatch : Obligations.DecodeSelectsRowByMaskAndMatch :=
  ⟨fun _ _ h => rowMatch_of_decode h,
    fun w i h => ⟨_, decode_of_rowMatch h, rowMask_withOperandsOf i w, rowMatch_withOperandsOf i w⟩⟩

/-- Settles O4: four words are those of their commands, and two fail a test of the decoder. -/
theorem wordsOfTheTableDecode : Obligations.WordsOfTheTableDecode :=
  ⟨decode_encode (i := .wrbit 1) rfl, decode_encode (i := .regwr 2 0xA5) rfl, decode_encode (i := .regrd 3) rfl,
    decode_encode (i := .attach) rfl, by decide, by decide⟩

end Sys2Proof
end

section
/-! A reserved word at the engine: accepted, refused, completed (30_encoding.md R93, 60_exceptions.md R254). -/

namespace Sys2Proof.Machine

/-- The turn of an engine that is not BUSY rejects a served word that does not decode. -/
theorem engineTurn_of_reserved {s t : State} {c : HostCmd} {e : DecodeError} (he : s.eng ≠ .busy)
    (ha : s.arbitrate = some (c, t)) (hd : decode c.word = .error e) : engineTurn s = .next (t.reject c.word) := by
  unfold engineTurn
  cases hs : s.eng with
  | busy => exact absurd hs he
  | idle | detached => simp only [ha, hd]

/-- Settles O7: the word does not decode, so the served state fails right after acceptance, with nothing performed. -/
theorem reservedWordCompletesInvalidArgument : Obligations.ReservedWordCompletesInvalidArgument := by
  intro s t c hq he ha hrow
  obtain ⟨e, hd⟩ := decode_reserved hrow
  obtain ⟨heng, -, hpins, hregs, hnow, -, -, -, hhostIn, htrace, -⟩ := arbitrate_frame ha
  have ht : t.acceptsQuietly := ⟨heng ▸ he, hhostIn.trans hq⟩
  have hstep : step s = .next ((t.opened c.word).fail .invalidArgument) := by
    rw [step_of_not_due (hostDue_nil hq), engineTurn_of_reserved he ha hd, State.reject, issue_refused ht]
  obtain ⟨hfin, hupins, hshift, hrecn, hueng⟩ := fail_finished (.refl (t.opened c.word)) .invalidArgument
  refine ⟨_, hstep, hfin.completed, hueng.trans heng, hfin.host, hfin.operands, ⟨?_, ?_, ?_, hupins.trans hpins⟩,
    htrace, hnow⟩
  · rw [hfin.result, hregs]; rfl
  · rw [hrecn, opened_regs_recn, hregs]
  · rw [hshift, opened_regs_shift, hregs]

end Sys2Proof.Machine
end

section
/-! The command word on the wire (30_encoding.md R99) and the two attested profiles (00_scope.md R6). -/

namespace Sys2Proof.Machine

theorem addressLegal_iff (c : ConfigRegs) (reg : Byte) : addressLegal c reg = true ↔ reg &&& ~~~c.regMask = 0 :=
  beq_iff_eq

/-- The remainder of a byte is no larger than the byte, so the wire's byte holds it, whatever `CMD_WIDTH` is. -/
theorem wireCommand_toNat (c : ConfigRegs) (code reg : Byte) :
    (wireCommand c code reg).toNat = (code ||| (reg &&& c.regMask)).toNat % 2 ^ c.cmdWidth.toNat := by
  rw [wireCommand, BitVec.toNat_ofNat]
  exact Nat.mod_eq_of_lt ((Nat.mod_le _ _).trans_lt (BitVec.isLt _))

theorem wireCommand_getLsbD (c : ConfigRegs) (code reg : Byte) {i : Nat} (h : i < c.cmdWidth.toNat) :
    (wireCommand c code reg).getLsbD i = (code ||| (reg &&& c.regMask)).getLsbD i := by
  rw [← BitVec.testBit_toNat, wireCommand_toNat, Nat.testBit_mod_two_pow, BitVec.testBit_toNat, decide_eq_true h,
    Bool.true_and]

/-- All the bits that are sent lie below `CMD_WIDTH`. -/
theorem bitsMsbFirst_wireCommand {c : ConfigRegs} {n : Nat} (hn : c.cmdWidth.toNat = n) (code reg : Byte) :
    bitsMsbFirst (wireCommand c code reg) n = bitsMsbFirst (code ||| (reg &&& c.regMask)) n := by
  refine List.map_congr_left fun k hk => wireCommand_getLsbD c code reg ?_
  have hlt : k < n := List.mem_range.mp hk
  omega

/-- The bits from bit 3 on are 0 in the numbers up to 7. -/
theorem and_not_seven_eq_zero (r : Byte) : r &&& ~~~0x07#8 = 0 ↔ r.toNat ≤ 7 := by
  have hshift : r >>> 3 <<< 3 = r &&& ~~~0x07#8 := BitVec.shiftLeft_ushiftRight
  have hlt := r.isLt
  rw [← hshift, ← BitVec.toNat_inj, BitVec.toNat_shiftLeft, BitVec.toNat_ushiftRight, Nat.shiftLeft_eq,
    Nat.shiftRight_eq_div_pow]
  simp only [BitVec.ofNat_eq_ofNat, BitVec.toNat_ofNat]
  omega

/-- Profile P4: the low three bits of the code are 0, and the address fills them. -/
theorem bitsMsbFirst_writeP4 (r : Byte) :
    bitsMsbFirst (0x08#8 ||| (r &&& 0x07#8)) 4 = [true, r.getLsbD 2, r.getLsbD 1, r.getLsbD 0] := by
  simp [bitsMsbFirst, List.range_succ]

/-- Profile P7: the mask keeps no bit of the address, and the code alone is sent. -/
theorem bitsMsbFirst_writeP7 (r : Byte) :
    bitsMsbFirst (0x65#8 ||| (r &&& 0x00#8)) 7 = [true, true, false, false, true, false, true] := by
  rw [BitVec.and_zero, BitVec.or_zero]
  decide

/-- Settles O23: the general form, then the code and the mask of each profile in it. -/
theorem commandWordOnTheWire : Obligations.CommandWordOnTheWire := by
  refine ⟨fun c code reg => ⟨wireCommand_toNat c code reg, addressLegal_iff c reg⟩, fun c r hwidth hcode hmask => ?_,
    fun c r hwidth hcode hmask => ?_⟩
  · refine ⟨?_, fun _ => ?_⟩
    · rw [addressLegal_iff, hmask]
      exact and_not_seven_eq_zero r
    · rw [bitsMsbFirst_wireCommand (by rw [hwidth]; rfl), hcode, hmask]
      exact bitsMsbFirst_writeP4 r
  · refine ⟨?_, ?_⟩
    · rw [addressLegal_iff, hmask, show ~~~(0x00 : Byte) = BitVec.allOnes 8 from rfl, BitVec.and_allOnes]
    · rw [bitsMsbFirst_wireCommand (by rw [hwidth]; rfl), hcode, hmask]
      exact bitsMsbFirst_writeP7 r

end Sys2Proof.Machine
end

section
/-! The invariant of the engine along a step: every item keeps the discipline of the pins, and acceptance begins with a
plan that is disciplined (40_bit_transport.md R133, 10_state.md R21, R23, R28). -/

namespace Sys2Proof.Machine

/-! ### The two halves of the discipline -/

/-- The plan keeps the discipline from the pins `p`. -/
def DisciplinedFrom (held : Eng) (items : List Item) (p : Pins) : Prop :=
  disciplined held items p.clkO p.dataDir p.drive = true

/-- An operation may end with these pins and `ENG` at `held`. -/
def MayEndAt (held : Eng) (p : Pins) : Prop := mayEnd held p.clkO p.dataDir p.drive = true

/-- An operation in progress, with a disciplined rest. -/
structure State.InProgress (s : State) : Prop where
  busy : s.eng = .busy
  held : s.latch.heldEng ≠ .busy
  plan : DisciplinedFrom s.latch.heldEng s.todo s.pins

/-- No operation in progress, and the pins as one may leave them. -/
structure State.AtEnd (s : State) : Prop where
  free : s.eng ≠ .busy
  done : s.todo = []
  pins : MayEndAt s.eng s.pins

theorem pinDiscipline_iff (s : State) : s.pinDiscipline = true ↔ s.InProgress ∨ s.AtEnd := by
  have hrun : s.InProgress ↔
      s.eng = .busy ∧ s.latch.heldEng ≠ .busy ∧ DisciplinedFrom s.latch.heldEng s.todo s.pins :=
    ⟨fun ⟨hbusy, hheld, hplan⟩ => ⟨hbusy, hheld, hplan⟩, fun ⟨hbusy, hheld, hplan⟩ => ⟨hbusy, hheld, hplan⟩⟩
  have hend : s.AtEnd ↔ s.eng ≠ .busy ∧ s.todo = [] ∧ MayEndAt s.eng s.pins :=
    ⟨fun ⟨hfree, hdone, hpins⟩ => ⟨hfree, hdone, hpins⟩, fun ⟨hfree, hdone, hpins⟩ => ⟨hfree, hdone, hpins⟩⟩
  rw [hrun, hend, State.pinDiscipline, DisciplinedFrom, MayEndAt]
  cases s.eng <;> simp

theorem State.InProgress.pinDiscipline {s : State} (h : s.InProgress) : s.pinDiscipline = true :=
  (pinDiscipline_iff s).mpr (.inl h)

theorem State.AtEnd.pinDiscipline {s : State} (h : s.AtEnd) : s.pinDiscipline = true :=
  (pinDiscipline_iff s).mpr (.inr h)

/-! ### Completion -/

theorem fail_atEnd {s : State} (hheld : s.latch.heldEng ≠ .busy) (hpins : MayEndAt s.latch.heldEng s.pins)
    (st : Status) : (s.fail st).AtEnd := ⟨hheld, rfl, hpins⟩

/-- What a completion asks of the pins is what the `ENG` it leaves asks of them. -/
theorem mayEndAt_of_complete {s : State} {q : Seq} {c : Completion} {rest : List Item}
    (h : DisciplinedFrom s.latch.heldEng (⟨q, .complete c⟩ :: rest) s.pins) :
    MayEndAt (completionEng c s) s.pins := by
  cases c <;> exact h

theorem completionEng_not_busy {s : State} (h : s.latch.heldEng ≠ .busy) (c : Completion) :
    completionEng c s ≠ .busy := by
  cases c with
  | attached | detached => exact Eng.noConfusion
  | plain | bit | sample | byte => exact h

/-! ### One item -/

/-- A straight action leaves the pins as the rest of the plan needs them. -/
theorem DisciplinedFrom.tail {held : Eng} {q : Seq} {a : Act} {rest : List Item} {p : Pins}
    (ha : a.straight = true) (h : DisciplinedFrom held (⟨q, a⟩ :: rest) p) :
    DisciplinedFrom held rest (a.drives p) := by
  unfold DisciplinedFrom at h ⊢
  cases a with
  | clk l | dat l | dir d | smp =>
    rw [disciplined, Bool.and_eq_true] at h
    exact h.2
  | check v =>
    cases v with
    | none => exact h
    | some st => cases ha
  | poll | expire | recheck | recover | grant | complete c => cases ha
  | _ => exact h

/-- A test that may end the operation stands where it may end, before a disciplined rest. -/
theorem disciplined_test {held : Eng} {q : Seq} {a : Act} {rest : List Item} {p : Pins}
    (ha : a = .poll ∨ a = .expire ∨ a = .recheck ∨ a = .grant) :
    DisciplinedFrom held (⟨q, a⟩ :: rest) p ↔ MayEndAt held p ∧ DisciplinedFrom held rest p := by
  unfold DisciplinedFrom MayEndAt
  rcases ha with rfl | rfl | rfl | rfl <;> rw [disciplined, Bool.and_eq_true]

/-- A turn of the recovery loop: from rest the pulse comes back to rest, before the next test
(42_frame_codec.md R165). -/
theorem disciplined_recoverTurn {held : Eng} {q : Seq} {rest : List Item} {p : Pins}
    (h : DisciplinedFrom held (⟨q, .recover⟩ :: rest) p) :
    DisciplinedFrom held (((cellAt q.phase q.cnt pulseCell).map fun it : Item => (⟨it.seq.succ, it.act⟩ : Item))
      ++ [⟨⟨q.phase, q.cnt, 6⟩, .bumpRecn⟩, ⟨⟨q.phase, q.cnt + 1, 0⟩, .recover⟩] ++ rest) p := by
  obtain ⟨hrest, hplan⟩ := (Bool.and_eq_true _ _).mp h
  obtain ⟨hclk, hdir⟩ : p.clkO = false ∧ p.dataDir = .input := by simpa [atRest] using hrest
  rw [hclk, hdir] at hplan
  simp [DisciplinedFrom, disciplined, atRest, cellAt, pulseCell, pulseActs, hclk, hdir, hplan]

/-- An item performed keeps the discipline: it leaves a disciplined rest, or it ends the operation at rest. -/
theorem perform_disciplined {s : State} {it : Item} (hbusy : s.eng = .busy) (hheld : s.latch.heldEng ≠ .busy)
    (h : DisciplinedFrom s.latch.heldEng (it :: s.todo) s.pins) : (s.perform it).pinDiscipline = true := by
  obtain ⟨q, a⟩ := it
  by_cases hs : a.straight = true
  · rw [perform_straight (it := ⟨q, a⟩) hs s s.todo]
    obtain ⟨heng, htodo, -, -, -, hheld', -⟩ := does_frame hs s
    refine State.InProgress.pinDiscipline ⟨heng.trans hbusy, hheld'.symm ▸ hheld, ?_⟩
    show DisciplinedFrom (s.does a).latch.heldEng s.todo (s.does a).pins
    rw [hheld', does_pins hs]
    exact h.tail hs
  · cases a with
    | poll =>
      have hrest := (disciplined_test (by simp)).mp h
      rcases poll_cases s q with ⟨-, hp⟩ | ⟨-, hp⟩ <;> simp only [State.perform, hp]
      · exact State.InProgress.pinDiscipline ⟨hbusy, hheld, hrest.2⟩
      · exact State.InProgress.pinDiscipline ⟨hbusy, hheld, (disciplined_test (by simp)).mpr hrest⟩
    | expire =>
      have hrest := (disciplined_test (by simp)).mp h
      rcases expire_cases s q with ⟨-, hp⟩ | ⟨-, hp⟩ <;> simp only [State.perform, hp]
      · exact (fail_atEnd (s := s.time) hheld hrest.1 .timeout).pinDiscipline
      · exact State.InProgress.pinDiscipline ⟨hbusy, hheld,
          (disciplined_test (q := ⟨q.phase, q.cnt, q.sub - 1⟩) (a := .poll) (by simp)).mpr hrest⟩
    | recheck =>
      have hrest := (disciplined_test (by simp)).mp h
      rcases recheck_cases s with ⟨-, hp⟩ | ⟨-, hp⟩ <;> simp only [State.perform, hp]
      · exact State.InProgress.pinDiscipline ⟨hbusy, hheld, hrest.2⟩
      · exact (fail_atEnd (s := s.smp) hheld hrest.1 .busy).pinDiscipline
    | grant =>
      have hrest := (disciplined_test (by simp)).mp h
      rcases grant_cases s with ⟨-, hp⟩ | ⟨-, hp⟩ <;> simp only [State.perform, hp]
      · exact State.InProgress.pinDiscipline ⟨hbusy, hheld, hrest.2⟩
      · exact (fail_atEnd hheld hrest.1 .resourceUnavailable).pinDiscipline
    | recover =>
      have hrest : DisciplinedFrom s.latch.heldEng s.todo s.pins := ((Bool.and_eq_true _ _).mp h).2
      simp only [State.perform, State.recover]
      split
      · split
        · exact State.InProgress.pinDiscipline ⟨hbusy, hheld, hrest⟩
        · exact State.InProgress.pinDiscipline ⟨hbusy, hheld, disciplined_recoverTurn h⟩
      · exact State.InProgress.pinDiscipline ⟨hbusy, hheld, hrest⟩
    | check v =>
      cases v with
      | none => exact absurd rfl hs
      | some st => exact (fail_atEnd hheld h st).pinDiscipline
    | complete c =>
      exact State.AtEnd.pinDiscipline ⟨completionEng_not_busy hheld c, rfl, mayEndAt_of_complete h⟩
    | _ => exact absurd rfl hs

/-! ### The sequencer, acceptance and the commands -/

theorem sequence_disciplined {s : State} (h : s.InProgress) : s.sequence.pinDiscipline = true := by
  obtain ⟨hbusy, hheld, hplan⟩ := h
  unfold State.sequence
  split
  next ht =>
    rw [ht] at hplan
    exact absurd hplan Bool.false_ne_true
  next it rest ht =>
    rw [ht] at hplan
    exact perform_disciplined (s := { s with todo := rest, hostIn := countDown s.hostIn }) hbusy hheld hplan

theorem runItems_disciplined (n : Nat) {s : State} (h : s.pinDiscipline = true) :
    (runItems n s).pinDiscipline = true := by
  induction n generalizing s with
  | zero => exact h
  | succ n ih =>
    rcases (pinDiscipline_iff s).mp h with hrun | hend
    · rw [runItems_succ]
      split
      · exact h
      · exact ih (sequence_disciplined hrun)
    · rwa [runItems_paused (paused_of_done hend.done)]

/-- A plan is accepted when it is refused by its tests, or disciplined from the pins as they stand. -/
theorem issue_disciplined {s : State} (h : s.pinDiscipline = true) (w : Word) {v : Option Status} {body : List Item}
    (hbody : v = none → s.eng ≠ .busy → DisciplinedFrom s.eng body s.pins) :
    (s.issue w v body).pinDiscipline = true := by
  rcases (pinDiscipline_iff s).mp h with hrun | hend
  · rw [State.issue, if_pos hrun.busy]
    exact State.InProgress.pinDiscipline ⟨hrun.busy, hrun.held, hrun.plan⟩
  · rw [State.issue, if_neg hend.free]
    refine runItems_disciplined itemBound (State.InProgress.pinDiscipline ⟨rfl, hend.free, ?_⟩)
    cases v with
    | none => exact hbody rfl hend.free
    | some st => exact hend.pins

theorem mayEndAt_iff (held : Eng) (p : Pins) :
    MayEndAt held p ↔ p.clkO = false ∧ p.dataDir = .input ∧ p.drive = (held == .idle) := by
  simp [MayEndAt, mayEnd, atRest, and_assoc]

/-- The body of a command that passes its tests is disciplined from the pins at rest: only ATTACH begins with the pins
released, and only it takes them. -/
theorem bodyOf_disciplinedFrom {i : Instr} {s : State} (hend : s.AtEnd) (h : PassesChecks i s) :
    DisciplinedFrom s.eng (bodyOf i s.cfg) s.pins := by
  obtain ⟨hfree, -, hpins⟩ := hend
  obtain ⟨-, hattach, -⟩ := h
  obtain ⟨hclk, hdir, hdrive⟩ := (mayEndAt_iff _ _).mp hpins
  unfold DisciplinedFrom
  rw [hclk, hdir, hdrive]
  cases he : s.eng with
  | busy => exact absurd he hfree
  | detached =>
    obtain rfl := hattach.mpr he
    exact attach_disciplined s.cfg
  | idle =>
    refine bodyOf_disciplined i ?_ s.cfg
    rintro rfl
    exact absurd (he.symm.trans (hattach.mp rfl)) Eng.noConfusion

theorem exec_disciplined {i : Instr} {s t : State} (h : s.pinDiscipline = true) (ht : exec i s = .next t) :
    t.pinDiscipline = true := by
  rw [exec_eq] at ht
  cases ht
  refine issue_disciplined h _ fun hv hfree => ?_
  rcases (pinDiscipline_iff s).mp h with hrun | hend
  · exact absurd hrun.busy hfree
  · exact bodyOf_disciplinedFrom hend ((verdictOf_none i s).mp hv)

/-! ### The step -/

/-- `pinDiscipline` reads `ENG`, the plan, the latched `ENG` and the pins. -/
theorem pinDiscipline_congr {s t : State} (heng : t.eng = s.eng) (htodo : t.todo = s.todo) (hpins : t.pins = s.pins)
    (hlatch : t.latch = s.latch) : t.pinDiscipline = s.pinDiscipline := by
  unfold State.pinDiscipline
  rw [heng, htodo, hpins, hlatch]

theorem engineTurn_disciplined {s t : State} (h : s.pinDiscipline = true) (ht : engineTurn s = .next t) :
    t.pinDiscipline = true := by
  rcases engineTurn_cases s with ⟨-, hs⟩ | ⟨-, -, hs⟩ | ⟨-, c, u, ha, hd⟩
  · cases hs.symm.trans ht
    exact runItems_disciplined itemBound h
  · cases hs.symm.trans ht
    exact h
  · obtain ⟨heng, htodo, hpins, -, -, -, -, hlatch, -⟩ := arbitrate_frame ha
    have hu : u.pinDiscipline = true := (pinDiscipline_congr heng htodo hpins hlatch).trans h
    rcases hd with ⟨i, -, hs⟩ | ⟨e, -, hs⟩
    · exact exec_disciplined hu (hs.symm.trans ht)
    · cases hs.symm.trans ht
      exact issue_disciplined hu _ (nofun)

theorem hostAct_disciplined {s : State} (h : s.pinDiscipline = true) (a : HostAct) :
    (s.hostAct a).pinDiscipline = true := by
  cases a with
  | write r v => rcases hostWrite_cases s r v with hw | ⟨n, -, -, hw⟩ <;> simp only [State.hostAct, hw] <;> exact h
  | engineReset => rfl
  | present c | read who r | pass ticks => exact h

theorem step_disciplined {s t : State} (h : s.pinDiscipline = true) (ht : step s = .next t) :
    t.pinDiscipline = true := by
  rcases step_cases s with ⟨a, rest, -, hs⟩ | ⟨-, hs⟩
  · cases hs.symm.trans ht
    exact hostAct_disciplined (s := { s with hostIn := rest }) h a
  · exact engineTurn_disciplined h (hs.symm.trans ht)

/-! ### The reserved bits -/

/-- The reserved bits of CR0 and CR1 are 0 (10_state.md R28). -/
def ConfigRegs.ReservedZero (c : ConfigRegs) : Prop :=
  c.mode &&& ~~~modeMask = 0#32 ∧ c.cmdcode &&& ~~~cmdcodeMask = 0#32

theorem reservedBitsZero_iff (s : State) : s.reservedBitsZero = true ↔ s.cfg.ReservedZero := by
  simp [State.reservedBitsZero, ConfigRegs.ReservedZero]

theorem masked_and_not (v mask : Word) : v &&& mask &&& ~~~mask = 0#32 := by
  rw [BitVec.and_assoc, BitVec.and_not_self]
  exact BitVec.and_zero

/-- The reserved bits ignore a write. -/
theorem set_reservedZero {c : ConfigRegs} (h : c.ReservedZero) (n : Nat) (v : Word) : (c.set n v).ReservedZero := by
  obtain ⟨hmode, hcode⟩ := h
  match n with
  | 0 => exact ⟨masked_and_not v modeMask, hcode⟩
  | 1 => exact ⟨hmode, masked_and_not v cmdcodeMask⟩
  | 2 | 3 | 4 | 5 | 6 | 7 => exact ⟨hmode, hcode⟩
  | n + 8 => exact ⟨hmode, hcode⟩

theorem hostAct_reservedZero {s : State} (h : s.cfg.ReservedZero) (a : HostAct) : (s.hostAct a).cfg.ReservedZero := by
  cases a with
  | write r v =>
    rcases hostWrite_cases s r v with hw | ⟨n, -, -, hw⟩ <;> simp only [State.hostAct, hw]
    · exact h
    · exact set_reservedZero h n v
  | engineReset => exact ⟨BitVec.zero_and, BitVec.zero_and⟩
  | present c | read who r | pass ticks => exact h

theorem step_reservedZero {s t : State} (h : s.cfg.ReservedZero) (ht : step s = .next t) : t.cfg.ReservedZero := by
  rcases step_cases s with ⟨a, rest, -, hs⟩ | ⟨-, hs⟩
  · cases hs.symm.trans ht
    exact hostAct_reservedZero (s := { s with hostIn := rest }) h a
  · rwa [engineTurn_cfg (hs.symm.trans ht)]

/-- Settles O35: the pins and the lock by the items performed, the reserved bits by the writes. -/
theorem everyStepKeepsTheInvariant : Obligations.EveryStepKeepsTheInvariant := by
  intro s t ⟨hpins, hbits⟩ ht
  exact ⟨step_disciplined hpins ht,
    (reservedBitsZero_iff t).mpr (step_reservedZero ((reservedBitsZero_iff s).mp hbits) ht)⟩

end Sys2Proof.Machine
end

section
/-! No hold is shortened: each hold a step records lasted at least what a timing register holds
(40_bit_transport.md R134, 70_reset_and_hazards.md R287). -/

namespace Sys2Proof.Machine

/-- A served word leaves a record, whether it waits or runs. -/
theorem issue_traced (s : State) (w : Word) (v : Option Status) (body : List Item) : Traced s (s.issue w v body) := by
  unfold State.issue
  split
  · exact traced_same rfl rfl rfl
  · exact (traced_same (t := s.accept w v body) rfl rfl rfl).trans (runItems_traced itemBound _)

theorem engineTurn_traced {s t : State} (h : engineTurn s = .next t) : Traced s t := by
  rcases engineTurn_cases s with ⟨-, hs⟩ | ⟨-, -, hs⟩ | ⟨-, c, u, ha, hd⟩
  · cases hs.symm.trans h
    exact runItems_traced itemBound s
  · cases hs.symm.trans h
    exact traced_same rfl rfl rfl
  · obtain ⟨-, -, hpins, -, -, hcfg, -, -, -, htrace, -⟩ := arbitrate_frame ha
    refine (traced_same htrace hpins hcfg).trans ?_
    rcases hd with ⟨i, -, hs⟩ | ⟨e, -, hs⟩
    · rw [exec_eq] at hs
      cases hs.symm.trans h
      exact issue_traced u _ _ _
    · cases hs.symm.trans h
      exact issue_traced u _ _ _

/-- The host's actions record nothing but the release of the pins by an engine reset (70_reset_and_hazards.md R281). -/
theorem hostAct_trace (s : State) (a : HostAct) :
    ∃ evs, (s.hostAct a).trace = s.trace ++ evs ∧ ∀ e ∈ evs, e.pin = .release := by
  cases a with
  | write r v =>
    refine ⟨[], ?_, nofun⟩
    rcases hostWrite_cases s r v with hw | ⟨n, -, -, hw⟩ <;> simp [State.hostAct, hw]
  | engineReset => exact ⟨[⟨.release, 0⟩], rfl, by simp⟩
  | present c | read who r | pass ticks => exact ⟨[], (List.append_nil _).symm, nofun⟩

/-- What a step adds to the trace: its holds last at least what a timing register holds. -/
theorem step_holds {s t : State} (h : step s = .next t) : ∃ evs, t.trace = s.trace ++ evs ∧
    ∀ e ∈ evs, ∀ n, e.pin = .hold n → n ≤ e.took ∧ ∃ i, n = s.cfg.interval i := by
  rcases step_cases s with ⟨a, rest, -, hs⟩ | ⟨-, hs⟩
  · cases hs.symm.trans h
    obtain ⟨evs, htrace, hrelease⟩ := hostAct_trace { s with hostIn := rest } a
    exact ⟨evs, htrace, fun e he n hn => PinEvent.noConfusion ((hrelease e he).symm.trans hn)⟩
  · obtain ⟨evs, htrace, -, -, hholds⟩ := engineTurn_traced (hs.symm.trans h)
    exact ⟨evs, htrace, hholds⟩

/-- An interval is that of one of CR3 to CR7 (10_state.md R33 to R37). -/
theorem interval_mem (c : ConfigRegs) (i : Interval) : c.interval i ∈
    [c.tHigh.toNat, c.tLow.toNat, c.tPoll.toNat, c.tReset.toNat, c.tStartup.toNat] := by
  cases i <;> simp [ConfigRegs.interval]

theorem longEnough_iff (e : Event) : e.longEnough = true ↔ ∀ n, e.pin = .hold n → n ≤ e.took := by
  unfold Event.longEnough
  cases e.pin <;> simp

/-- Settles O37: the new holds by the record of the step, the old ones because a trace only grows. -/
theorem noHoldIsShortened : Obligations.NoHoldIsShortened := by
  refine ⟨fun s t hold h e he => ?_, fun s t h => ?_⟩
  · obtain ⟨evs, htrace, hnew⟩ := step_holds h
    rw [htrace] at he
    rcases List.mem_append.mp he with he | he
    · exact hold e he
    · exact (longEnough_iff e).mpr fun n hn => (hnew e he n hn).1
  · obtain ⟨evs, htrace, hnew⟩ := step_holds h
    refine ⟨evs, htrace, fun e he n hn => ?_⟩
    obtain ⟨hle, i, rfl⟩ := hnew e he n hn
    exact ⟨hle, interval_mem s.cfg i⟩

end Sys2Proof.Machine
end

section
/-! The bit transport commands (40_bit_transport.md R130 to R133): one cell each, whose actions all are straight. -/

namespace Sys2Proof.Machine

/-! ### Commands of an idle engine -/

theorem State.idleQuiet.acceptsQuietly {s : State} (h : s.idleQuiet) : s.acceptsQuietly := by
  obtain ⟨heng, hq⟩ := h
  exact ⟨by rw [heng]; exact Eng.noConfusion, hq⟩

/-- With a Device Handle, a command without a register address asks for its format and for `T_POLL` alone
(60_exceptions.md R252). -/
theorem passesChecks_of_idle {i : Instr} {s : State} (h : s.idleQuiet) (hwf : i.wellFormed = true)
    (hi : i ≠ .attach) (hpoll : waitsForReady i = true → s.cfg.tPoll ≠ 0#32) (haddr : addressOperand i = none) :
    PassesChecks i s := by
  refine ⟨hwf, ⟨fun hattach => absurd hattach hi, fun hdet => ?_⟩, hpoll, fun reg hreg => ?_⟩
  · exact absurd (h.1.symm.trans hdet) Eng.noConfusion
  · rw [haddr] at hreg
    cases hreg

/-- A command whose body is one straight cell: the cell is performed, and the command completes with `Ok`. -/
theorem exec_straight {i : Instr} {s : State} (h : s.acceptsQuietly) (hpass : PassesChecks i s) {items : List Item}
    {q : Seq} {c : Completion} (hbody : bodyOf i s.cfg = items ++ [⟨q, .complete c⟩]) {n : Nat}
    (hs : StraightWithin items n) (hn : n < tailBudget) {acts : List Act} (hacts : actsOf items = acts) :
    exec i s = .next (((s.opened (encode i)).doAll acts).succeed c) := by
  subst hacts
  obtain ⟨hstraight, hlen⟩ := hs
  have hcost : tailBudget ≤ itemBound - 1 := by decide
  rw [exec_eq, (verdictOf_none i s).mpr hpass, hbody,
    issue_finished h (passed_straight hstraight (s := s.opened (encode i)) h.2) (by omega)]

/-! ### RDBIT (40_bit_transport.md R130) -/

/-- The actions of RDBIT. -/
def rdbitActs : List Act := .startPhase :: (readBitActs ++ [.endCell])

theorem zextBit_eq (b : Level) : zextBit b = if b then 1 else 0 := by cases b <;> rfl

/-- The read cell: one sample, which the latch `b` keeps. -/
theorem rdbitActs_run (s : State) :
    Ran s (s.doAll rdbitActs) 1 5 (s.cfg.tHigh.toNat + s.cfg.tLow.toNat) (readSeen s.cfg (s.answer 0)) ∧
      (s.doAll rdbitActs).pins = { s.pins with clkO := false } ∧
      (s.doAll rdbitActs).regs.shift = s.regs.shift ∧ (s.doAll rdbitActs).regs.recn = s.regs.recn ∧
      (s.doAll rdbitActs).latch.bit = s.answer 0 := by
  have hs : allStraight rdbitActs := by decide
  obtain ⟨hshift, hrecn, -, -⟩ := doAll_datapath hs (by decide) s
  refine ⟨(ran_doAll hs s).cast rfl rfl ?_ rfl, doAll_pins hs s, hshift, hrecn, s.line_eq_answer⟩
  simp [rdbitActs, readBitActs, Act.mins, ConfigRegs.interval]

/-- RDBIT in an idle engine: the read cell, and its completion. -/
theorem exec_rdbit {s : State} (h : s.idleQuiet) :
    exec .rdbit s = .next (((s.opened (encode .rdbit)).doAll rdbitActs).succeed .bit) :=
  exec_straight (i := .rdbit) h.acceptsQuietly (passesChecks_of_idle h rfl nofun nofun rfl) rfl readCell_straightWithin
    (by decide) rfl

/-- Settles O11: the read cell is performed, and its bit is the value. -/
theorem rdbitReturnsTheSampledBit : Obligations.RdbitReturnsTheSampledBit := by
  intro s h
  obtain ⟨hran, hpins, hshift, hrecn, hbit⟩ := rdbitActs_run (s.opened (encode .rdbit))
  obtain ⟨hfin, hpins', hshift', hrecn', heng'⟩ := succeed_finished hran .bit
  have hvalue : completionValue .bit ((s.opened (encode .rdbit)).doAll rdbitActs)
      = some (if s.answer 0 then 1 else 0) := by
    rw [completionValue, hbit, zextBit_eq, opened_answer]
  rw [hvalue] at hfin
  exact ⟨_, exec_rdbit h, hfin.completed, heng'.trans (hran.heldEng.trans h.1), hfin.host, hfin.operands, hfin.result,
    hrecn'.trans hrecn, hshift'.trans hshift, hpins'.trans hpins, hfin.seen, hfin.now⟩

/-! ### WRBIT (40_bit_transport.md R131) -/

/-- The actions of WRBIT. -/
def wrbitActs (c : ConfigRegs) (b : Level) : List Act := .startPhase :: writeCell c b

/-- The write cell: the level driven stays, and a shared pin is an input again. -/
theorem wrbitActs_run (s : State) (b : Level) :
    Ran s (s.doAll (wrbitActs s.cfg b)) 0 (writeMicros s.cfg) (s.cfg.tHigh.toNat + s.cfg.tLow.toNat)
        (writeSeen s.cfg b) ∧
      (s.doAll (wrbitActs s.cfg b)).pins =
        ⟨false, b ^^ s.cfg.dinInvert, if s.cfg.sharedPin then .input else s.pins.dataDir, s.pins.drive⟩ ∧
      (s.doAll (wrbitActs s.cfg b)).regs.shift = s.regs.shift ∧
      (s.doAll (wrbitActs s.cfg b)).regs.recn = s.regs.recn := by
  have hs : allStraight (wrbitActs s.cfg b) := allStraight_cons rfl (straight_writeCell s.cfg b)
  have hspares : ∀ a ∈ wrbitActs s.cfg b, a.sparesDatapath = true :=
    List.forall_mem_cons.mpr ⟨rfl, sparesDatapath_writeCell s.cfg b⟩
  obtain ⟨hshift, hrecn, -, -⟩ := doAll_datapath hs hspares s
  obtain ⟨hsmps, hmicros, hmins, hshows⟩ := writeCell_measures s.cfg s.answer b
  refine ⟨(ran_doAll hs s).cast ?_ ?_ ?_ ?_, ?_, hshift, hrecn⟩
  · simp [wrbitActs, hsmps, Act.smps]
  · simp [wrbitActs, hmicros, Act.micros]
  · simp [wrbitActs, hmins, Act.mins]
  · simp [wrbitActs, hshows, showsOf_cons, Act.shows, Act.smps]
  · rw [doAll_pins hs, wrbitActs, drivesOf_cons, drivesOf_writeCell]
    rfl

/-- WRBIT in an idle engine: the write cell, and its completion. -/
theorem exec_wrbit {s : State} (h : s.idleQuiet) {data : Byte} (hfits : fitsFormatB data = true) :
    exec (.wrbit data) s
      = .next (((s.opened (encode (.wrbit data))).doAll (wrbitActs s.cfg (bitOperand data))).succeed .plain) :=
  exec_straight (i := .wrbit data) h.acceptsQuietly (passesChecks_of_idle h hfits nofun nofun rfl) rfl
    (writeCells_straightWithin s.cfg .prim [bitOperand data]) (show 9 < tailBudget by decide) (by simp [wrbitActs])

/-- Settles O12: the write cell is performed; the operand of either word is its bit. -/
theorem wrbitDrivesTheBit : Obligations.WrbitDrivesTheBit := by
  intro s b h
  have hfits : fitsFormatB (if b then 1 else 0) = true := by cases b <;> rfl
  have hword : encode (.wrbit (if b then 1 else 0)) = if b then 0x02000001 else 0x02000000 := by cases b <;> rfl
  have hop : opField (if b then 0x02000001 else 0x02000000) = 0x02#8 := by cases b <;> rfl
  have hbit : bitOperand (if b then 1 else 0) = b := by cases b <;> rfl
  have hexec := exec_wrbit h hfits
  rw [hword, hbit] at hexec
  obtain ⟨hran, hpins, hshift, hrecn⟩ := wrbitActs_run (s.opened (if b then 0x02000001 else 0x02000000)) b
  obtain ⟨hfin, hpins', hshift', hrecn', heng'⟩ := succeed_finished hran .plain
  have hcompleted := hfin.completed
  rw [hop] at hcompleted
  exact ⟨_, hexec, hcompleted, heng'.trans (hran.heldEng.trans h.1), hfin.host, hfin.operands, hfin.result,
    hrecn'.trans hrecn, hshift'.trans hshift, hpins'.trans hpins, hfin.seen, hfin.now⟩

/-! ### PULSE (40_bit_transport.md R132) -/

/-- Settles O13: a phase of one pulse is performed. -/
theorem pulseIsOneClockPulse : Obligations.PulseIsOneClockPulse := by
  intro s h
  have hpass : PassesChecks .pulse s := passesChecks_of_idle h rfl nofun nofun rfl
  obtain ⟨u, hp, hpins, hshift, hrecn, -⟩ := pulses_passed (s := s.opened (encode .pulse)) h.2 .prim 1
  have hexec : exec .pulse s = .next (u.succeed .plain) := by
    rw [exec_eq, (verdictOf_none _ s).mpr hpass]
    exact congrArg _ (issue_finished h.acceptsQuietly hp (by decide) ⟨.prim, 0, 0⟩ .plain)
  obtain ⟨hfin, hpins', hshift', hrecn', heng'⟩ :=
    succeed_finished (hp.ran.cast rfl rfl (Nat.one_mul _) (List.append_nil _)) .plain
  exact ⟨_, hexec, hfin.completed, heng'.trans (hp.ran.heldEng.trans h.1), hfin.host, hfin.operands, hfin.result,
    hrecn'.trans hrecn, hshift'.trans hshift, hpins'.trans hpins, hfin.seen, hfin.now⟩

end Sys2Proof.Machine
end

section
/-! WAITRDY and read cells one by one, beside the same cells in one RAWRD (40_bit_transport.md R136,
42_frame_codec.md R160). -/

namespace Sys2Proof.Machine

/-! ### RAWRD after its tests (42_frame_codec.md R160) -/

/-- RAWRD up to the latched sample. -/
def rawrdRead (c : ConfigRegs) : List Item :=
  waitReady c ++ recheckItems c ++ readWord .data Config.sampleBits
    ++ [⟨⟨.data, Config.sampleBits, 0⟩, .latchSample⟩]

/-- RAWRD from the trailing pulses on, up to its completion. -/
def rawrdTail (c : ConfigRegs) : List Item :=
  pulses .trail c.trailPulses.toNat
    ++ [⟨⟨.recover, 0, 0⟩, .startPhase⟩, ⟨⟨.recover, 0, 0⟩, .clearRecn⟩, ⟨⟨.recover, 0, 0⟩, .recover⟩]

theorem rawrdBody_eq (c : ConfigRegs) :
    rawrdBody c = rawrdRead c ++ rawrdTail c ++ [⟨⟨.recover, 0, 0⟩, .complete .sample⟩] := by
  simp only [rawrdBody, rawrdRead, rawrdTail, completeAt, List.append_assoc]

/-- One draw, micro-event or item more when the re-check is on. -/
def recheckCount (c : ConfigRegs) : Nat := if c.busyRecheck then 1 else 0

/-- One draw or micro-event more when the recovery ends by a high sample. -/
def recoverCount (c : ConfigRegs) (r : Nat) : Nat := if r < c.recoverMax.toNat then 1 else 0

/-- What is seen of RAWRD up to the latched sample. -/
def rawrdReadSeen (s : State) (k : Nat) : List PinEvent :=
  pollSeen s.cfg k ++ [.smp false] ++ (if s.cfg.busyRecheck then [.smp false] else [])
    ++ s.readsSeen (dataStart s k) 24

/-- What is seen of RAWRD after it, with `r` recovery pulses. -/
def rawrdTailSeen (c : ConfigRegs) (r : Nat) : List PinEvent :=
  pulsesSeen c c.trailPulses.toNat ++ (recoverSeen c r ++ if r < c.recoverMax.toNat then [.smp true] else [])

/-- The read cells from answer `k` of a later state are those of `s` from a later answer. -/
theorem readsSeen_later {s t : State} {m n : Nat} (hl : s.Later m n t) (hcfg : t.cfg = s.cfg) (k j : Nat) :
    t.readsSeen k j = s.readsSeen (m + k) j := by
  simp only [State.readsSeen, hcfg, hl.answer, Nat.add_assoc]

theorem recoversAfter_later {s t : State} {m n e r : Nat} (hl : s.Later m n t) (hcfg : t.cfg = s.cfg) :
    RecoversAfter t e r ↔ RecoversAfter s (m + e) r := by
  simp only [RecoversAfter, hcfg, hl.answer, Nat.add_assoc]

/-- The ready-wait, the low re-check and the 24 read cells, whose sample is latched. -/
theorem rawrdRead_passed {s : State} {k : Nat} (hq : s.hostIn = []) (ht : s.latch.tmo = s.cfg.timeout)
    (hready : s.readyAt k) (hlow : s.cfg.busyRecheck = true → s.answer (k + 1) = false) :
    ∃ u, Passed (rawrdRead s.cfg) s u (3 * k + s.waitBase + recheckCount s.cfg + 174) (dataStart s k + 24)
        (s.waitBase + 3 * k + recheckCount s.cfg + 122)
        (k * s.cfg.tPoll.toNat + 24 * (s.cfg.tHigh.toNat + s.cfg.tLow.toNat)) (rawrdReadSeen s k) ∧
      u.pins = { waitPins s.cfg s.pins with clkO := false } ∧ SampleFrom s (dataStart s k) u.regs.shift ∧
      u.latch.value = sext32 u.regs.shift := by
  obtain ⟨u1, p1, pins1, -⟩ := wait_passed hq ht hready
  have q1 := p1.hostIn hq
  obtain ⟨u2, p2, pins2, -⟩ := recheck_passed q1 (by
    rw [p1.cfg, p1.ran.later.answer]
    exact hlow)
  rw [p1.cfg] at p2
  have p12 := p1.trans p2
  obtain ⟨u3, p3, pins3, shift3, -⟩ := readWord_passed (p12.hostIn hq) .data Config.sampleBits
  have p13 := p12.trans p3
  obtain ⟨u4, p4, pins4, regs4, value4⟩ := latchSample_passed (p13.hostIn hq) ⟨.data, Config.sampleBits, 0⟩
  have hdata : k + 1 + (if s.cfg.busyRecheck then 1 else 0) = dataStart s k := rfl
  have hcount : (if s.cfg.busyRecheck then 1 else 0) = recheckCount s.cfg := rfl
  rw [readsSeen_later p12.ran.later p12.cfg, hdata, hcount, p12.cfg] at p13
  refine ⟨u4, (p13.trans p4).cast ?_ rfl ?_ ?_ ?_, ?_, ?_, ?_⟩
  · simp only [Config.sampleBits]
    omega
  · simp only [Config.sampleBits]
    omega
  · simp [Config.sampleBits]
  · simp [Config.sampleBits, rawrdReadSeen]
  · rw [pins4, pins3, pins2, pins1]
    rfl
  · intro i hi
    rw [regs4, shift3, p12.ran.later.answer, hdata]
    simp [hi, Config.sampleBits]
  · rw [value4, regs4]

/-- The trailing pulses and `r` recovery pulses. -/
theorem rawrdTail_passed {s : State} (hq : s.hostIn = []) {r : Nat} (hrec : RecoversAfter s 0 r) :
    ∃ u, Passed (rawrdTail s.cfg) s u (5 * s.cfg.trailPulses.toNat + 7 * r + 4) (r + recoverCount s.cfg r)
        (4 * s.cfg.trailPulses.toNat + (5 * r + recoverCount s.cfg r))
        ((s.cfg.trailPulses.toNat + r) * (s.cfg.tHigh.toNat + s.cfg.tLow.toNat)) (rawrdTailSeen s.cfg r) ∧
      (s.pins.clkO = false → u.pins = s.pins) ∧ u.regs.shift = s.regs.shift ∧ u.regs.recn = BitVec.ofNat 4 r ∧
      u.latch.value = s.latch.value := by
  obtain ⟨v, p1, pins1, shift1, -, value1⟩ := pulses_passed hq .trail s.cfg.trailPulses.toNat
  obtain ⟨u, p2, pins2, shift2, recn2, value2⟩ := recovery_passed (p1.hostIn hq)
    ((recoversAfter_later p1.ran.later p1.cfg).mpr (by rwa [Nat.add_zero]))
  rw [p1.cfg] at p2
  refine ⟨u, (p1.trans p2).cast ?_ (Nat.zero_add _) rfl ?_ rfl, fun hclk => ?_, shift2.trans shift1, recn2,
    value2.trans value1⟩
  · omega
  · ring
  · rw [pins2, pins1]
    simp [← hclk]

/-- RAWRD in an idle engine that is ready at the sample numbered `k`, finds the re-check low and issues `r` recovery
pulses; `u` is the state its completion finds. -/
theorem exec_rawrd {s : State} (h : s.idleQuiet) (hpoll : s.cfg.tPoll ≠ 0#32) {k r : Nat} (hready : s.readyAt k)
    (hlow : s.cfg.busyRecheck = true → s.answer (k + 1) = false) (hrec : RecoversAfter s (dataStart s k + 24) r) :
    ∃ u, exec .rawrd s = .next (u.succeed .sample) ∧
      Ran (s.opened (encode .rawrd)) u (dataStart s k + 24 + (r + recoverCount s.cfg r))
        (s.waitBase + 3 * k + recheckCount s.cfg + 122 + (4 * s.cfg.trailPulses.toNat + (5 * r + recoverCount s.cfg r)))
        (k * s.cfg.tPoll.toNat + 24 * (s.cfg.tHigh.toNat + s.cfg.tLow.toNat)
          + (s.cfg.trailPulses.toNat + r) * (s.cfg.tHigh.toNat + s.cfg.tLow.toNat))
        (rawrdReadSeen s k ++ rawrdTailSeen s.cfg r) ∧
      u.pins = { waitPins s.cfg s.pins with clkO := false } ∧ SampleFrom s (dataStart s k) u.regs.shift ∧
      u.regs.recn = BitVec.ofNat 4 r ∧ u.latch.value = sext32 u.regs.shift := by
  have hpass : PassesChecks .rawrd s := passesChecks_of_idle h rfl nofun (fun _ => hpoll) rfl
  obtain ⟨v, p1, pins1, sample1, value1⟩ := rawrdRead_passed (s := s.opened (encode .rawrd)) h.2 rfl
    ((opened_readyAt s _ k).mpr hready) hlow
  have hcfg : v.cfg = s.cfg := p1.cfg
  obtain ⟨u, p2, pins2, shift2, recn2, value2⟩ := rawrdTail_passed (p1.hostIn h.2)
    ((recoversAfter_later (r := r) p1.ran.later p1.cfg).mpr hrec)
  rw [hcfg] at p2
  have hp := p1.trans p2
  refine ⟨u, ?_, hp.ran, (pins2 (by rw [pins1])).trans pins1, shift2.symm ▸ sample1, recn2, ?_⟩
  · have hroom := wait_budget hpoll hready.1
    have hbase : (s.opened (encode .rawrd)).waitBase = s.waitBase := rfl
    have hcount : recheckCount s.cfg ≤ 1 := by unfold recheckCount; split <;> omega
    have hrmax : r ≤ s.cfg.recoverMax.toNat := hrec.1
    have hmax := s.cfg.recoverMax.isLt
    have htrail := s.cfg.trailPulses.isLt
    rw [exec_eq, (verdictOf_none _ s).mpr hpass, bodyOf, rawrdBody_eq]
    refine congrArg _ (issue_finished h.acceptsQuietly hp ?_ _ _)
    simp only [opened_cfg]
    omega
  · rw [value2, value1, shift2]

/-! ### Operations one after the other (30_encoding.md R104) -/

/-- From `s` the engine came to `t` by `ops` whole operations: together they drew `m` samples, performed `n`
micro-events of `i` ticks at least, and showed `evs`; `ENG`, `SHIFT` and the host's side are what they were. -/
structure Operated (s t : State) (ops m n i : Nat) (evs : List PinEvent) : Prop where
  later : s.Later m n t
  now : t.now = s.now + i + s.elapsed n
  seen : seen t.trace = seen s.trace ++ evs
  eng : t.eng = s.eng
  host : HostSideKept s t
  shift : t.regs.shift = s.regs.shift
  responses : t.responses.length = s.responses.length + ops

theorem Operated.refl (s : State) : Operated s s 0 0 0 0 [] where
  later := .refl s
  now := rfl
  seen := (List.append_nil _).symm
  eng := rfl
  host := ⟨rfl, rfl, rfl, rfl, rfl⟩
  shift := rfl
  responses := rfl

theorem Operated.trans {s t u : State} {a b m n i p q j : Nat} {x y : List PinEvent} (h : Operated s t a m n i x)
    (g : Operated t u b p q j y) : Operated s u (a + b) (m + p) (n + q) (i + j) (x ++ y) where
  later := h.later.trans g.later
  now := by
    have := h.later.elapsed q
    rw [g.now, h.now]
    omega
  seen := by rw [g.seen, h.seen, List.append_assoc]
  eng := g.eng.trans h.eng
  host := h.host.trans g.host
  shift := g.shift.trans h.shift
  responses := by rw [g.responses, h.responses, Nat.add_assoc]

/-- The numbers and the events may be written otherwise. -/
theorem Operated.cast {s t : State} {a m n i a' m' n' i' : Nat} {x x' : List PinEvent} (h : Operated s t a m n i x)
    (ha : a = a') (hm : m = m') (hn : n = n') (hi : i = i') (hx : x = x') : Operated s t a' m' n' i' x' := by
  subst ha hm hn hi hx; exact h

theorem Operated.idleQuiet {s t : State} {a m n i : Nat} {x : List PinEvent} (h : Operated s t a m n i x)
    (hs : s.idleQuiet) : t.idleQuiet := by
  obtain ⟨-, -, -, hhostIn, -⟩ := h.host
  exact ⟨h.eng.trans hs.1, hhostIn.trans hs.2⟩

/-- A command that completes with `Ok` and spares `SHIFT` is one operation. -/
theorem operated_succeed {s u : State} {w : Word} {m n i : Nat} {evs : List PinEvent}
    (h : Ran (s.opened w) u m n i evs) (hshift : u.regs.shift = s.regs.shift) {c : Completion}
    (hc : completionEng c u = u.latch.heldEng) : Operated s (u.succeed c) 1 m n i evs where
  later := ⟨h.later.answer, h.later.excess⟩
  now := by rw [State.succeed_now, h.now, opened_elapsed, opened_now]
  seen := h.seen
  eng := by rw [State.succeed_eng, hc, h.heldEng, opened_latch_heldEng]
  host := h.host
  shift := hshift
  responses := by rw [State.succeed_responses, List.length_append, h.responses]; rfl

/-! ### The diagnostic cells (40_bit_transport.md R136) -/

/-- WAITRDY that is ready at the sample numbered `k`. -/
theorem waitrdy_operated {s : State} (h : s.idleQuiet) (hpoll : s.cfg.tPoll ≠ 0#32) {k : Nat} (hready : s.readyAt k) :
    ∃ t, exec .waitrdy s = .next t ∧ t.pins = waitPins s.cfg s.pins ∧
      Operated s t 1 (k + 1) (s.waitBase + 2 + 3 * k) (k * s.cfg.tPoll.toNat) (pollSeen s.cfg k ++ [.smp false]) := by
  have hpass : PassesChecks .waitrdy s := passesChecks_of_idle h rfl nofun (fun _ => hpoll) rfl
  obtain ⟨u, hp, hpins, hshift, -⟩ :=
    wait_passed (s := s.opened (encode .waitrdy)) h.2 rfl ((opened_readyAt s _ k).mpr hready)
  have hbase : (s.opened (encode .waitrdy)).waitBase = s.waitBase := rfl
  have hroom := wait_budget hpoll hready.1
  have hexec : exec .waitrdy s = .next (u.succeed .plain) := by
    rw [exec_eq, (verdictOf_none _ s).mpr hpass]
    exact congrArg _ (issue_finished h.acceptsQuietly hp (by omega) ⟨.wait, 0, 0⟩ .plain)
  exact ⟨_, hexec, hpins, (operated_succeed hp.ran hshift rfl).cast rfl rfl (by omega) rfl rfl⟩

/-- One RDBIT. -/
theorem rdbit_operated {s : State} (h : s.idleQuiet) :
    ∃ t, exec .rdbit s = .next t ∧ t.pins = { s.pins with clkO := false } ∧
      t.regs.result = (if s.answer 0 then 1 else 0) ∧
      Operated s t 1 1 5 (s.cfg.tHigh.toNat + s.cfg.tLow.toNat) (readSeen s.cfg (s.answer 0)) := by
  obtain ⟨hran, hpins, hshift, -, hbit⟩ := rdbitActs_run (s.opened (encode .rdbit))
  refine ⟨_, exec_rdbit h, hpins, ?_, operated_succeed hran hshift rfl⟩
  rw [State.succeed_regs, completionValue, hbit, zextBit_eq]
  rfl

theorem execAll_cons {i : Instr} {is : List Instr} {s t : State} (h : exec i s = .next t) :
    execAll (i :: is) s = execAll is t := by
  rw [execAll, h]

/-- The read cells from answer `k` on: the first, then those from the answer after it. -/
theorem readsSeen_succ (s : State) (k n : Nat) :
    s.readsSeen k (n + 1) = readSeen s.cfg (s.answer k) ++ s.readsSeen (k + 1) n := by
  unfold State.readsSeen
  rw [List.range_succ_eq_map, List.flatMap_cons, List.flatMap_map]
  simp [Nat.add_comm, Nat.add_left_comm]

/-- `n + 1` RDBIT: `RESULT` holds the last bit alone. -/
theorem rdbits_operated (n : Nat) {s : State} (h : s.idleQuiet) :
    ∃ t, execAll (List.replicate (n + 1) .rdbit) s = some t ∧ t.pins = { s.pins with clkO := false } ∧
      t.regs.result = (if s.answer n then 1 else 0) ∧
      Operated s t (n + 1) (n + 1) (5 * (n + 1)) ((n + 1) * (s.cfg.tHigh.toNat + s.cfg.tLow.toNat))
        (s.readsSeen 0 (n + 1)) := by
  induction n generalizing s with
  | zero =>
    obtain ⟨t, hexec, hpins, hresult, hop⟩ := rdbit_operated h
    exact ⟨t, execAll_cons hexec, hpins, hresult, hop.cast rfl rfl rfl (Nat.one_mul _).symm (by simp [State.readsSeen])⟩
  | succ n ih =>
    obtain ⟨t, hexec, hpins, -, hop⟩ := rdbit_operated h
    obtain ⟨u, hexecs, hpins', hresult, hops⟩ := ih (hop.idleQuiet h)
    have hcfg : t.cfg = s.cfg := hop.host.1
    rw [hop.later.answer, Nat.add_comm 1 n] at hresult
    rw [hcfg, readsSeen_later hop.later hcfg] at hops
    refine ⟨u, ?_, ?_, hresult, (hop.trans hops).cast ?_ ?_ ?_ ?_ ?_⟩
    · rw [List.replicate_succ, execAll_cons hexec, hexecs]
    · rw [hpins', hpins]
    · omega
    · omega
    · omega
    · ring
    · rw [readsSeen_succ s 0 (n + 1)]

/-- A basic RAWRD shows the ready-wait and 24 read cells, and nothing else. -/
theorem exec_rawrd_basic {s : State} (h : s.idleQuiet) (hpoll : s.cfg.tPoll ≠ 0#32) {k : Nat} (hready : s.readyAt k)
    (hrecheck : s.cfg.busyRecheck = false) (htrail : s.cfg.trailPulses = 0) (hmax : s.cfg.recoverMax = 0) :
    ∃ u, exec .rawrd s = .next (u.succeed .sample) ∧
      Ran (s.opened (encode .rawrd)) u (k + 25) (s.waitBase + 2 + 3 * k + 120)
        (k * s.cfg.tPoll.toNat + 24 * (s.cfg.tHigh.toNat + s.cfg.tLow.toNat))
        (pollSeen s.cfg k ++ [.smp false] ++ s.readsSeen (k + 1) 24) ∧
      u.pins = { waitPins s.cfg s.pins with clkO := false } := by
  have hstart : dataStart s k = k + 1 := by simp [dataStart, hrecheck]
  have hrec : RecoversAfter s (dataStart s k + 24) 0 := by simp [RecoversAfter, hmax]
  obtain ⟨u, hexec, hran, hpins, -⟩ := exec_rawrd h hpoll hready (by simp [hrecheck]) hrec
  refine ⟨u, hexec, hran.cast ?_ ?_ ?_ ?_, hpins⟩
  · simp [hstart, recoverCount, hmax]
  · simp [recheckCount, recoverCount, hrecheck, htrail, hmax]
    omega
  · simp [htrail]
  · simp [rawrdReadSeen, rawrdTailSeen, hrecheck, htrail, hmax, hstart, pulsesSeen, recoverSeen]

/-- Settles O24: both show the ready-wait and 24 read cells. -/
theorem diagnosticCellsShowABasicRawRead : Obligations.DiagnosticCellsShowABasicRawRead := by
  intro s k h hpoll hready hrecheck htrail hmax
  obtain ⟨u, hraw, hran, hupins⟩ := exec_rawrd_basic h hpoll hready hrecheck htrail hmax
  obtain ⟨v, hwait, hvpins, hvop⟩ := waitrdy_operated h hpoll hready
  obtain ⟨t, hcells, htpins, hresult, htop⟩ := rdbits_operated 23 (hvop.idleQuiet h)
  have hvcfg : v.cfg = s.cfg := hvop.host.1
  rw [hvcfg, readsSeen_later hvop.later hvcfg] at htop
  have hop := hvop.trans htop
  refine ⟨_, t, hraw, (execAll_cons hwait).trans hcells, hop.seen.trans hran.seen.symm, ?_, ?_, hop.shift, ?_,
    hop.responses⟩
  · rw [htpins, hvpins]
    exact hupins.symm
  · rw [hop.now, State.succeed_now, hran.now, opened_elapsed]
    rfl
  · rw [hresult, hvop.later.answer, Nat.add_right_comm]

end Sys2Proof.Machine
end

section
/-! The ready gate (41_ready_gate.md R150 to R155): a ready-wait ends at its first low sample, or at the first high one
after the deadline, where it ends the command it belongs to. -/

namespace Sys2Proof.Machine

/-! ### The command a ready-wait belongs to -/

/-- Each of the four commands that wait for ready begins with the wait (41_ready_gate.md R155). -/
theorem bodyOf_waitReady {i : Instr} (h : waitsForReady i = true) (c : ConfigRegs) :
    ∃ rest, bodyOf i c = waitReady c ++ rest := by
  cases i with
  | waitrdy => exact ⟨_, rfl⟩
  | rawrd => exact ⟨_, by simp only [bodyOf, rawrdBody, List.append_assoc]; rfl⟩
  | regwr reg data => exact ⟨_, by simp only [bodyOf, regwrBody, preamble, List.append_assoc]; rfl⟩
  | regrd reg => exact ⟨_, by simp only [bodyOf, regrdBody, preamble, List.append_assoc]; rfl⟩
  | rdbit | wrbit | pulse | chiprst | attach | detach => cases h

theorem passesChecks_waitrdy {s : State} (h : s.idleQuiet) (hpoll : s.cfg.tPoll ≠ 0#32) : PassesChecks .waitrdy s :=
  passesChecks_of_idle h rfl nofun (fun _ => hpoll) rfl

/-- WAITRDY that is ready at the sample numbered `k`; `u` is the state its completion finds. -/
theorem exec_waitrdy_ready {s : State} (h : s.idleQuiet) (hpoll : s.cfg.tPoll ≠ 0#32) {k : Nat} (hready : s.readyAt k) :
    ∃ u, exec .waitrdy s = .next (u.succeed .plain) ∧
      Ran (s.opened (encode .waitrdy)) u (k + 1) (s.waitBase + 2 + 3 * k) (k * s.cfg.tPoll.toNat)
        (pollSeen s.cfg k ++ [.smp false]) ∧
      u.pins = waitPins s.cfg s.pins ∧ u.regs.shift = s.regs.shift ∧ u.regs.recn = s.regs.recn := by
  obtain ⟨u, hp, hpins, hshift, hrecn, -⟩ :=
    wait_passed (s := s.opened (encode .waitrdy)) h.2 rfl ((opened_readyAt s _ k).mpr hready)
  have hbase : (s.opened (encode .waitrdy)).waitBase = s.waitBase := rfl
  have hroom := wait_budget hpoll hready.1
  refine ⟨u, ?_, hp.ran.cast rfl (by omega) rfl rfl, hpins, hshift, hrecn⟩
  rw [exec_eq, (verdictOf_none _ s).mpr (passesChecks_waitrdy h hpoll)]
  exact congrArg _ (issue_finished h.acceptsQuietly hp (by omega) ⟨.wait, 0, 0⟩ .plain)

/-- A command whose ready-wait expires at the sample numbered `k` ends there (42_frame_codec.md R170); `u` is the state
its failure finds. -/
theorem exec_expired {i : Instr} {s : State} (h : s.acceptsQuietly) (hpass : PassesChecks i s)
    (hi : waitsForReady i = true) {k : Nat} (hexpires : s.expiresAt k) :
    ∃ u, exec i s = .next (u.fail .timeout) ∧
      Ran (s.opened (encode i)) u (k + 1) (s.waitBase + 3 * k + 3) (k * s.cfg.tPoll.toNat)
        (pollSeen s.cfg k ++ [.smp true]) ∧
      u.pins = waitPins s.cfg s.pins ∧ u.regs.shift = s.regs.shift ∧ u.regs.recn = s.regs.recn := by
  obtain ⟨rest, hbody⟩ := bodyOf_waitReady hi s.cfg
  obtain ⟨u, hran, hpins, hshift, hrecn, hrun⟩ :=
    wait_timeout (s := s.opened (encode i)) h.2 rfl ((opened_expiresAt s _ k).mpr hexpires)
  have hbase : (s.opened (encode i)).waitBase = s.waitBase := rfl
  have hpoll : s.cfg.tPoll ≠ 0#32 := by
    obtain ⟨-, -, hpoll, -⟩ := hpass
    exact hpoll hi
  have hroom := wait_budget hpoll hexpires.1
  refine ⟨u, ?_, hran.cast rfl (by omega) rfl rfl, hpins, hshift, hrecn⟩
  have hitems : itemBound - 1
      = (itemBound - 1 - 3 * k - (s.waitBase + 4)) + 3 * k + ((s.opened (encode i)).waitBase + 4) := by omega
  rw [exec_eq, (verdictOf_none i s).mpr hpass, hbody, issue_passed h, hitems]
  exact congrArg _ (hrun rest _)

/-- What is seen of a command in two parts. -/
theorem Finished.seen_append {s t : State} {w : Word} {st : Status} {v : Option Word} {n : BitVec 4}
    {a b : List PinEvent} {mins micros : Nat} (h : Finished s t w st v n (a ++ b) mins micros) :
    Machine.seen t.trace = Machine.seen s.trace ++ a ++ b := by
  rw [h.seen, List.append_assoc]

/-! ### The time of an expired wait -/

/-- The deadline test that ends the wait reads a time `TIMEOUT` ticks after the first reading at least, and the command
ends no earlier than that test (41_ready_gate.md R154). -/
theorem expiresAt_time {s : State} {k : Nat} (h : s.expiresAt k) :
    s.now + s.cfg.timeout.toNat ≤ s.now + k * s.cfg.tPoll.toNat + s.elapsed (s.waitBase + 3 * k + 3) := by
  obtain ⟨-, -, hdeadline⟩ := h
  have hlast : s.elapsed (s.waitBase + 3 * k + 3)
      = s.elapsed (s.waitBase + 2 + 3 * k) + s.excess (s.waitBase + 2 + 3 * k) := by
    rw [show s.waitBase + 3 * k + 3 = s.waitBase + 2 + 3 * k + 1 by omega, State.elapsed]
  unfold State.waitDeadline State.testTime at hdeadline
  omega

/-- In the reference timing the deadline tests fall on the multiples of `T_POLL`, so the wait expires at the first one
that reaches `TIMEOUT` (41_ready_gate.md R154). -/
theorem expiresAt_reference {s : State} {k : Nat} (hreached : s.cfg.timeout.toNat ≤ k * s.cfg.tPoll.toNat)
    (hbefore : ∀ j, j < k → j * s.cfg.tPoll.toNat < s.cfg.timeout.toNat) (hhigh : ∀ j, j ≤ k → s.answer j = true)
    (href : s.referenceTiming (s.waitBase + 3 * k + 3)) : s.expiresAt k := by
  have hdeadline : s.waitDeadline = s.now + s.cfg.timeout.toNat := by
    rw [State.waitDeadline, State.elapsed_reference href (by omega), Nat.add_zero]
  have htest (j : Nat) (hj : j ≤ k) : s.testTime j = s.now + j * s.cfg.tPoll.toNat := by
    rw [State.testTime, State.elapsed_reference href (by omega), Nat.add_zero]
  refine ⟨fun j hj => ⟨hhigh j hj.le, ?_⟩, hhigh k le_rfl, ?_⟩
  · have := hbefore j hj
    rw [htest j hj.le, hdeadline]
    omega
  · rw [htest k le_rfl, hdeadline]
    omega

/-- The first multiple of `p` that reaches `n` exceeds it by less than `p`. -/
theorem first_multiple_lt {n p k : Nat} (hp : 0 < p) (hbefore : ∀ j, j < k → j * p < n) : k * p < n + p := by
  cases k with
  | zero => omega
  | succ k =>
    have := hbefore k (Nat.lt_succ_self k)
    rw [Nat.succ_mul]
    omega

/-! ### The cause of a `Timeout` -/

/-- A WAITRDY that completes with `Timeout` passed its tests, and its wait expired. -/
theorem waitrdy_timeout_expired {s t : State} (h : s.idleQuiet) (hexec : exec .waitrdy s = .next t)
    (htimeout : t.status.code = .timeout) : s.cfg.tPoll ≠ 0#32 ∧ ∃ k, s.expiresAt k := by
  cases hv : verdictOf .waitrdy s with
  | some st =>
    have ht : (s.opened (encode .waitrdy)).fail st = t := by
      rw [exec_eq, hv, issue_refused h.acceptsQuietly] at hexec
      exact Host.Outcome.next.inj hexec
    subst ht
    have hst : st = .timeout := htimeout
    rcases verdictOf_some hv with rfl | rfl <;> cases hst
  | none =>
    obtain ⟨-, -, hpoll, -⟩ := (verdictOf_none _ s).mp hv
    refine ⟨hpoll rfl, ?_⟩
    obtain ⟨k, hready | hexpires⟩ := wait_ends (hpoll rfl)
    · obtain ⟨u, hexec', -⟩ := exec_waitrdy_ready h (hpoll rfl) hready
      cases hexec.symm.trans hexec'
      cases htimeout
    · exact ⟨k, hexpires⟩

/-! ### The obligations -/

/-- Settles O14: the turns of the wait and its low sample are performed, and WAITRDY returns no value. -/
theorem waitrdyCompletesAtTheLowSample : Obligations.WaitrdyCompletesAtTheLowSample := by
  intro s k h hpoll hready
  obtain ⟨u, hexec, hran, hpins, hshift, hrecn⟩ := exec_waitrdy_ready h hpoll hready
  obtain ⟨hfin, hpins', hshift', hrecn', heng'⟩ := succeed_finished hran .plain
  exact ⟨_, hexec, hfin.completed, heng'.trans (hran.heldEng.trans h.1), hfin.host, hfin.operands, hfin.result,
    hrecn'.trans hrecn, hshift'.trans hshift, hpins'.trans hpins, hfin.seen_append, hfin.now⟩

/-- Settles O15: the deadline tests come `T_POLL` apart at least, so one of them finds the deadline passed unless a low
sample ends the wait before it. -/
theorem everyReadyWaitEnds : Obligations.EveryReadyWaitEnds := by
  intro s h hpoll
  obtain ⟨k, hready | hexpires⟩ := wait_ends hpoll
  · obtain ⟨u, hexec, hran, -⟩ := exec_waitrdy_ready h hpoll hready
    obtain ⟨hfin, -⟩ := succeed_finished hran .plain
    exact ⟨k, false, _, stillWaiting_le hpoll hready.1, hexec, hfin.seen_append, hfin.completed⟩
  · obtain ⟨u, hexec, hran, -⟩ := exec_expired h.acceptsQuietly (passesChecks_waitrdy h hpoll) rfl hexpires
    obtain ⟨hfin, -⟩ := fail_finished hran .timeout
    exact ⟨k, true, _, stillWaiting_le hpoll hexpires.1, hexec, hfin.seen_append, hfin.completed⟩

/-- Settles O16: the four commands begin with the wait, and its expiry discards what would follow. -/
theorem expiredReadyWaitIsTimeout : Obligations.ExpiredReadyWaitIsTimeout := by
  intro i s k h hpass hi hexpires
  obtain ⟨u, hexec, hran, hpins, hshift, hrecn⟩ := exec_expired h hpass hi hexpires
  obtain ⟨hfin, hpins', hshift', hrecn', heng'⟩ := fail_finished hran .timeout
  exact ⟨_, hexec, hfin.completed, heng', hfin.host, hfin.operands, hfin.result, hrecn'.trans hrecn,
    hshift'.trans hshift, hpins'.trans hpins, hfin.seen_append,
    (expiresAt_time hexpires).trans hfin.now.ge⟩

/-- Settles O17: in the reference timing the wait expires at the first multiple of `T_POLL` that reaches `TIMEOUT`; in
any admitted timing a `Timeout` comes from a wait that expired. -/
theorem timeoutBoundOfTheReadyWait : Obligations.TimeoutBoundOfTheReadyWait := by
  refine ⟨fun s k h hpoll hreached hbefore hhigh href => ?_, fun s t h hexec htimeout => ?_⟩
  · have hexpires := expiresAt_reference hreached hbefore hhigh href
    obtain ⟨u, hexec, hran, -⟩ := exec_expired h.acceptsQuietly (passesChecks_waitrdy h hpoll) rfl hexpires
    obtain ⟨hfin, -⟩ := fail_finished hran .timeout
    have hnow := hfin.now
    rw [State.elapsed_reference href le_rfl, Nat.add_zero] at hnow
    have hpos : 0 < s.cfg.tPoll.toNat := Nat.pos_of_ne_zero fun hzero => hpoll (BitVec.eq_of_toNat_eq hzero)
    have hlt := first_multiple_lt hpos hbefore
    exact ⟨_, hexec, hfin.completed, hfin.seen_append, hnow, by omega, by omega⟩
  · obtain ⟨hpoll, k, hexpires⟩ := waitrdy_timeout_expired h hexec htimeout
    obtain ⟨u, hexec', hran, -⟩ := exec_expired h.acceptsQuietly (passesChecks_waitrdy h hpoll) rfl hexpires
    obtain ⟨hfin, -⟩ := fail_finished hran .timeout
    cases hexec.symm.trans hexec'
    exact (expiresAt_time hexpires).trans hfin.now.ge

end Sys2Proof.Machine
end

section
/-! The raw read (42_frame_codec.md R160 to R165): the sample, its sign extension, and the re-check that finds the line
high. -/

namespace Sys2Proof.Machine

/-! ### The sign extension (42_frame_codec.md R164) -/

theorem sext32_toInt (v : BitVec 24) : (sext32 v).toInt = v.toInt := BitVec.toInt_signExtend_of_le (by decide)

theorem sext32_getLsbD (v : BitVec 24) {i : Nat} (hi : i < 32) :
    (sext32 v).getLsbD i = if i < 24 then v.getLsbD i else v.getLsbD 23 := by
  rw [sext32, BitVec.getLsbD_signExtend, decide_eq_true hi, Bool.true_and]
  rfl

/-- Settles O22: sign extension keeps the signed value, and a signed 24-bit value has its range. -/
theorem signExtensionOfTheSample : Obligations.SignExtensionOfTheSample := by
  intro v
  have hmsb : v.msb = v.getLsbD 23 := rfl
  have hlow := BitVec.le_toInt v
  have hhigh := BitVec.toInt_lt (x := v)
  refine ⟨?_, fun i hi => ?_, fun i hlo hi => ?_, ?_, ?_⟩
  · rw [sext32_toInt, BitVec.toInt_eq_msb_cond, hmsb]
    rfl
  · rw [sext32_getLsbD v (by omega), if_pos hi]
  · rw [sext32_getLsbD v hi, if_neg (by omega)]
  · rw [sext32_toInt]
    omega
  · rw [sext32_toInt]
    omega

/-! ### RAWRD with a high re-check (42_frame_codec.md R163) -/

/-- The re-check that finds the line high ends the operation. -/
theorem runItems_recheck_high {s : State} (hq : s.hostIn = []) (hon : s.cfg.busyRecheck = true)
    (hhigh : s.answer 0 = true) (rest : List Item) (n : Nat) :
    runItems (n + 1) { s with todo := recheckItems s.cfg ++ rest } = s.smp.fail .busy := by
  rw [recheckItems, if_pos hon, List.singleton_append,
    runItems_item (s := { s with todo := ⟨⟨.recheck, 0, 0⟩, .recheck⟩ :: rest }) hq rfl]
  rcases recheck_cases { s with todo := rest } with ⟨hlow, -⟩ | ⟨-, hfail⟩
  · exact absurd (hlow.symm.trans ((State.line_eq_answer s).trans hhigh)) Bool.false_ne_true
  · exact (congrArg _ hfail).trans (runItems_paused (paused_of_done rfl) n)

/-- RAWRD in an idle engine that is ready at the sample numbered `k` and finds the re-check high; `u` is the state its
failure finds. -/
theorem exec_rawrd_high {s : State} (h : s.idleQuiet) (hpoll : s.cfg.tPoll ≠ 0#32) {k : Nat} (hready : s.readyAt k)
    (hon : s.cfg.busyRecheck = true) (hhigh : s.answer (k + 1) = true) :
    ∃ u, exec .rawrd s = .next (u.fail .busy) ∧
      Ran (s.opened (encode .rawrd)) u (k + 2) (s.waitBase + 3 * k + 3) (k * s.cfg.tPoll.toNat)
        (pollSeen s.cfg k ++ [.smp false, .smp true]) ∧
      u.pins = waitPins s.cfg s.pins ∧ u.regs.shift = s.regs.shift ∧ u.regs.recn = s.regs.recn := by
  have hpass : PassesChecks .rawrd s := passesChecks_of_idle h rfl nofun (fun _ => hpoll) rfl
  obtain ⟨v, hp, hpins, hshift, hrecn, -⟩ :=
    wait_passed (s := s.opened (encode .rawrd)) h.2 rfl ((opened_readyAt s _ k).mpr hready)
  have hcfg : v.cfg = s.cfg := hp.cfg
  have hbase : (s.opened (encode .rawrd)).waitBase = s.waitBase := rfl
  have hanswer : v.answer 0 = true := (hp.ran.later.answer 0).trans hhigh
  have hroom := wait_budget hpoll hready.1
  have hbody : bodyOf .rawrd s.cfg = waitReady s.cfg ++ (recheckItems v.cfg ++ (readWord .data Config.sampleBits
      ++ [⟨⟨.data, Config.sampleBits, 0⟩, .latchSample⟩] ++ rawrdTail s.cfg
      ++ [⟨⟨.recover, 0, 0⟩, .complete .sample⟩])) := by
    simp only [bodyOf, rawrdBody_eq, rawrdRead, hcfg, List.append_assoc]
  refine ⟨v.smp, ?_, (hp.ran.trans (ran_smp v)).cast rfl (by omega) rfl ?_, hpins, hshift, hrecn⟩
  · rw [exec_eq, (verdictOf_none _ s).mpr hpass, hbody, issue_passed h.acceptsQuietly,
      show itemBound - 1 = 3 * k + (s.waitBase + 3) + (itemBound - 1 - 3 * k - (s.waitBase + 4) + 1) by omega]
    exact congrArg _ ((hp.runs _ _).trans (runItems_recheck_high (hp.hostIn h.2) (hcfg ▸ hon) hanswer _ _))
  · rw [hanswer, List.append_assoc]
    rfl

/-! ### The obligations -/

/-- Settles O18: the body of RAWRD is performed, and its completion returns the latched sample. -/
theorem rawrdReturnsTheSignExtendedSample : Obligations.RawrdReturnsTheSignExtendedSample := by
  intro s k r h hpoll hready hlow hrec
  obtain ⟨u, hexec, hran, hpins, hsample, hrecn, hvalue⟩ := exec_rawrd h hpoll hready hlow hrec
  obtain ⟨hfin, hpins', hshift', hrecn', heng'⟩ := succeed_finished hran .sample
  rw [completionValue, hvalue, completionRecn, hrecn] at hfin
  refine ⟨_, u.regs.shift, hexec, hsample, hfin.completed, heng'.trans (hran.heldEng.trans h.1), hfin.host,
    hfin.operands, hfin.result, hrecn'.trans hrecn, hshift', hpins'.trans hpins, ?_⟩
  rw [hfin.seen]
  simp only [rawrdReadSeen, rawrdTailSeen, List.append_assoc]

/-- Settles O19: the wait is performed, and the high sample after it ends RAWRD. -/
theorem rawrdBusyAtHighRecheck : Obligations.RawrdBusyAtHighRecheck := by
  intro s k h hpoll hready hon hhigh
  obtain ⟨u, hexec, hran, hpins, hshift, hrecn⟩ := exec_rawrd_high h hpoll hready hon hhigh
  obtain ⟨hfin, hpins', hshift', hrecn', heng'⟩ := fail_finished hran .busy
  exact ⟨_, hexec, hfin.completed, heng'.trans h.1, hfin.host, hfin.operands, hfin.result, hrecn'.trans hrecn,
    hshift'.trans hshift, hpins'.trans hpins, hfin.seen_append⟩

end Sys2Proof.Machine
end

section
/-! The register frames (42_frame_codec.md R166 to R169): REGWR and REGRD begin alike, up to the command word, and
go on with the payload or with the register byte. -/

namespace Sys2Proof.Machine

/-! ### Up to the command word -/

/-- `Preamble()` and the command word with the code `code` (30_encoding.md R96, R97, R99). -/
def frameHead (c : ConfigRegs) (code reg : Byte) : List Item :=
  preamble c ++ writeWord c .cmd (wireCommand c code reg) c.cmdWidth.toNat

/-- What is seen of a register frame up to its command word. -/
def frameHeadSeen (s : State) (k : Nat) (code reg : Byte) : List PinEvent :=
  pollSeen s.cfg k ++ [.smp false] ++ s.readsSeen (k + 1) 24 ++ pulseSeen s.cfg
    ++ writesSeen s.cfg (wireCommand s.cfg code reg) s.cfg.cmdWidth.toNat

/-- A word written leaves nothing of what the data pin and the clock were before it. -/
theorem writtenPins_waitPins (c : ConfigRegs) (p : Pins) (v : Byte) :
    writtenPins c { waitPins c p with clkO := false } v = writtenPins c p v := by
  cases h : c.sharedPin <;> simp [writtenPins, waitPins, h]

/-- The preamble, whose sample stays in `SHIFT`, and the command word. -/
theorem frameHead_passed {s : State} {k : Nat} (hq : s.hostIn = []) (ht : s.latch.tmo = s.cfg.timeout)
    (hready : s.readyAt k) (hwidth : 1 ≤ s.cfg.cmdWidth.toNat) (code reg : Byte) :
    ∃ u, Passed (frameHead s.cfg code reg) s u
        (3 * k + s.waitBase + 180 + s.cfg.cmdWidth.toNat * writeCost s.cfg) (k + 25)
        (s.waitBase + 3 * k + 126 + s.cfg.cmdWidth.toNat * writeMicros s.cfg)
        (k * s.cfg.tPoll.toNat + (25 + s.cfg.cmdWidth.toNat) * (s.cfg.tHigh.toNat + s.cfg.tLow.toNat))
        (frameHeadSeen s k code reg) ∧
      u.pins = writtenPins s.cfg s.pins (wireCommand s.cfg code reg) ∧ SampleFrom s (k + 1) u.regs.shift ∧
      u.regs.recn = s.regs.recn := by
  obtain ⟨v, p1, pins1, sample1, recn1, -⟩ := preamble_passed hq ht hready
  have hcfg : v.cfg = s.cfg := p1.cfg
  obtain ⟨u, p2, pins2, shift2, recn2, -⟩ := writeWord_passed (p1.hostIn hq) .cmd (wireCommand s.cfg code reg)
    s.cfg.cmdWidth.toNat hwidth
  rw [hcfg] at p2 pins2
  refine ⟨u, (p1.trans p2).cast (by omega) rfl rfl (by ring) rfl, ?_, shift2.symm ▸ sample1, recn2.trans recn1⟩
  rw [pins2, pins1, writtenPins_waitPins]

/-- With a Device Handle, a register access asks for `T_POLL`, a legal width and a legal address (60_exceptions.md
R252). -/
theorem passesChecks_register {i : Instr} {s : State} {reg : Byte} (h : s.idleQuiet) (hwf : i.wellFormed = true)
    (hi : addressOperand i = some reg) (hpoll : s.cfg.tPoll ≠ 0#32) (hwidth : s.cfg.widthLegal)
    (haddr : addressLegal s.cfg reg = true) : PassesChecks i s := by
  refine ⟨hwf, ⟨?_, fun hdet => absurd (h.1.symm.trans hdet) Eng.noConfusion⟩, fun _ => hpoll, fun r hr => ?_⟩
  · rintro rfl
    cases hi
  · cases hi.symm.trans hr
    exact ⟨hwidth, haddr⟩

/-! ### REGWR (42_frame_codec.md R167) -/

/-- What is seen of REGWR. -/
def regwrSeen (s : State) (k : Nat) (reg data : Byte) : List PinEvent :=
  frameHeadSeen s k s.cfg.cmdWr reg ++ writesSeen s.cfg data 8 ++ pulseSeen s.cfg

/-- The micro-events of REGWR. -/
def regwrMicros (s : State) (k : Nat) : Nat :=
  s.waitBase + 3 * k + 130 + (s.cfg.cmdWidth.toNat + 8) * writeMicros s.cfg

/-- The pulse that ends a register frame. -/
theorem exitPulse_passed {s : State} (hq : s.hostIn = []) :
    ∃ u, Passed (pulses .exit Config.nExit) s u 6 0 4 (s.cfg.tHigh.toNat + s.cfg.tLow.toNat) (pulseSeen s.cfg) ∧
      u.pins = { s.pins with clkO := false } ∧ u.regs.shift = s.regs.shift ∧ u.regs.recn = s.regs.recn := by
  obtain ⟨u, p, hpins, hshift, hrecn, -⟩ := pulses_passed hq .exit Config.nExit
  exact ⟨u, p.cast rfl rfl rfl (Nat.one_mul _) (List.append_nil _), hpins, hshift, hrecn⟩

theorem waitBase_le (s : State) : s.waitBase ≤ 1 := by unfold State.waitBase; split <;> omega

theorem writeCost_le (c : ConfigRegs) : writeCost c ≤ 8 := by unfold writeCost; split <;> omega

/-- A word is at most 15 bits, the widest `CMD_WIDTH` there is. -/
theorem cmdWidth_mul_writeCost_le (c : ConfigRegs) : c.cmdWidth.toNat * writeCost c ≤ 120 := by
  have hwidth := c.cmdWidth.isLt
  exact (Nat.mul_le_mul (Nat.le_of_lt_succ hwidth) (writeCost_le c)).trans (by decide)

/-- REGWR in an idle engine that is ready at the sample numbered `k`; `u` is the state its completion finds. -/
theorem exec_regwr {s : State} (h : s.idleQuiet) {reg data : Byte} (hpass : PassesChecks (.regwr reg data) s) {k : Nat}
    (hready : s.readyAt k) :
    ∃ u, exec (.regwr reg data) s = .next (u.succeed .plain) ∧
      Ran (s.opened (encode (.regwr reg data))) u (k + 25) (regwrMicros s k)
        (k * s.cfg.tPoll.toNat + (34 + s.cfg.cmdWidth.toNat) * (s.cfg.tHigh.toNat + s.cfg.tLow.toNat))
        (regwrSeen s k reg data) ∧
      u.pins = writtenPins s.cfg s.pins data ∧ SampleFrom s (k + 1) u.regs.shift ∧ u.regs.recn = s.regs.recn := by
  obtain ⟨-, -, hpoll, haddr⟩ := id hpass
  obtain ⟨⟨hwidth, -⟩, -⟩ := haddr reg rfl
  obtain ⟨v, p1, pins1, sample1, recn1⟩ := frameHead_passed (s := s.opened (encode (.regwr reg data))) h.2 rfl
    ((opened_readyAt s _ k).mpr hready) hwidth s.cfg.cmdWr reg
  have hv : v.cfg = s.cfg := p1.cfg
  obtain ⟨w, p2, pins2, shift2, recn2, -⟩ :=
    writeWord_passed (p1.hostIn h.2) .payload data Config.payloadBits (by decide)
  rw [hv] at p2 pins2
  have p12 := p1.trans p2
  have hw : w.cfg = s.cfg := p12.cfg
  obtain ⟨u, p3, pins3, shift3, recn3⟩ := exitPulse_passed (p12.hostIn h.2)
  rw [hw] at p3
  have hp := p12.trans p3
  refine ⟨u, ?_, hp.ran.cast rfl ?_ ?_ rfl, ?_, shift3.symm ▸ shift2.symm ▸ sample1, recn3.trans (recn2.trans recn1)⟩
  · have hroom := wait_budget (hpoll rfl) hready.1
    have hcost := writeCost_le s.cfg
    have hcmd := cmdWidth_mul_writeCost_le s.cfg
    have hbase : (s.opened (encode (.regwr reg data))).waitBase = s.waitBase := rfl
    have hbody : bodyOf (.regwr reg data) s.cfg = frameHead s.cfg s.cfg.cmdWr reg
        ++ writeWord s.cfg .payload data Config.payloadBits ++ pulses .exit Config.nExit
        ++ [⟨⟨.exit, 0, 0⟩, .complete .plain⟩] := rfl
    rw [exec_eq, (verdictOf_none _ s).mpr hpass, hbody]
    refine congrArg _ (issue_finished h.acceptsQuietly hp ?_ _ _)
    simp only [opened_cfg, Config.payloadBits]
    omega
  · have hbase : (s.opened (encode (.regwr reg data))).waitBase = s.waitBase := rfl
    simp only [opened_cfg, hbase, Config.payloadBits, regwrMicros]
    ring
  · simp only [opened_cfg, Config.payloadBits]
    ring
  · rw [pins3, pins2, pins1]
    cases hshared : s.cfg.sharedPin <;> simp [writtenPins, hshared]

/-! ### REGRD (42_frame_codec.md R169) -/

/-- What is seen of REGRD. -/
def regrdSeen (s : State) (k : Nat) (reg : Byte) : List PinEvent :=
  frameHeadSeen s k s.cfg.cmdRd reg ++ dirSeen s.cfg .input ++ s.readsSeen (k + 25) 8 ++ pulseSeen s.cfg

/-- The micro-events of REGRD. -/
def regrdMicros (s : State) (k : Nat) : Nat :=
  2 * s.waitBase + 3 * k + 170 + s.cfg.cmdWidth.toNat * writeMicros s.cfg

/-- A word written leaves a shared pin an input, so `DIR(in)` after it changes nothing. -/
theorem waitPins_writtenPins (c : ConfigRegs) (p : Pins) (v : Byte) :
    { waitPins c (writtenPins c p v) with clkO := false } = writtenPins c p v := by
  cases h : c.sharedPin <;> simp [writtenPins, waitPins, h]

/-- The `DIR(in)` before the register byte and its 8 read cells: `SHIFT` holds them, and nothing of what it held. -/
theorem registerByte_passed {s : State} (hq : s.hostIn = []) :
    ∃ u, Passed (turnItems s.cfg ++ readWord .rdata Config.payloadBits) s u (s.waitBase + 59) 8 (s.waitBase + 40)
        (8 * (s.cfg.tHigh.toNat + s.cfg.tLow.toNat)) (dirSeen s.cfg .input ++ s.readsSeen 0 8) ∧
      u.pins = { waitPins s.cfg s.pins with clkO := false } ∧
      (∀ i, u.regs.shift.getLsbD i = (decide (i < 8) && s.answer (7 - i))) ∧ u.regs.recn = s.regs.recn := by
  obtain ⟨v, p1, pins1, -, recn1, -⟩ := turn_passed hq
  obtain ⟨u, p2, pins2, shift2, recn2, -⟩ := readWord_passed (p1.hostIn hq) .rdata Config.payloadBits
  rw [p1.cfg, readsSeen_later p1.ran.later p1.cfg] at p2
  refine ⟨u, (p1.trans p2).cast rfl rfl rfl (Nat.zero_add _) rfl, ?_, fun i => ?_, recn2.trans recn1⟩
  · rw [pins2, pins1]
    rfl
  · rw [shift2, p1.ran.later.answer, Nat.zero_add, Config.payloadBits]
    by_cases hi : i < 8
    · simp [hi, show i < 24 by omega]
    · simp [hi]

/-- REGRD in an idle engine that is ready at the sample numbered `k`; `u` is the state its completion finds. -/
theorem exec_regrd {s : State} (h : s.idleQuiet) {reg : Byte} (hpass : PassesChecks (.regrd reg) s) {k : Nat}
    (hready : s.readyAt k) :
    ∃ u, exec (.regrd reg) s = .next (u.succeed .byte) ∧
      Ran (s.opened (encode (.regrd reg))) u (k + 33) (regrdMicros s k)
        (k * s.cfg.tPoll.toNat + (34 + s.cfg.cmdWidth.toNat) * (s.cfg.tHigh.toNat + s.cfg.tLow.toNat))
        (regrdSeen s k reg) ∧
      u.pins = writtenPins s.cfg s.pins (wireCommand s.cfg s.cfg.cmdRd reg) ∧
      (∀ i, u.regs.shift.getLsbD i = (decide (i < 8) && s.answer (k + 25 + (7 - i)))) ∧
      u.regs.recn = s.regs.recn := by
  obtain ⟨-, -, hpoll, haddr⟩ := id hpass
  obtain ⟨⟨hwidth, -⟩, -⟩ := haddr reg rfl
  obtain ⟨v, p1, pins1, -, recn1⟩ := frameHead_passed (s := s.opened (encode (.regrd reg))) h.2 rfl
    ((opened_readyAt s _ k).mpr hready) hwidth s.cfg.cmdRd reg
  have hv : v.cfg = s.cfg := p1.cfg
  obtain ⟨w, p2, pins2, shift2, recn2⟩ := registerByte_passed (p1.hostIn h.2)
  rw [hv, readsSeen_later p1.ran.later p1.cfg] at p2
  rw [hv] at pins2
  have p12 := p1.trans p2
  have hw : w.cfg = s.cfg := p12.cfg
  obtain ⟨u, p3, pins3, shift3, recn3⟩ := exitPulse_passed (p12.hostIn h.2)
  rw [hw] at p3
  have hp := p12.trans p3
  have hbase : (s.opened (encode (.regrd reg))).waitBase = s.waitBase := rfl
  have hvbase : v.waitBase = s.waitBase := by rw [State.waitBase, hv, State.waitBase]
  refine ⟨u, ?_, hp.ran.cast rfl ?_ ?_ ?_, ?_, fun i => ?_, recn3.trans (recn2.trans recn1)⟩
  · have hroom := wait_budget (hpoll rfl) hready.1
    have hcmd := cmdWidth_mul_writeCost_le s.cfg
    have hsmall := waitBase_le s
    have hbody : bodyOf (.regrd reg) s.cfg = frameHead s.cfg s.cfg.cmdRd reg
        ++ (turnItems v.cfg ++ readWord .rdata Config.payloadBits) ++ pulses .exit Config.nExit
        ++ [⟨⟨.exit, 0, 0⟩, .complete .byte⟩] := by
      simp only [bodyOf, regrdBody, frameHead, completeAt, hv, List.append_assoc]
    rw [exec_eq, (verdictOf_none _ s).mpr hpass, hbody, hv]
    refine congrArg _ (issue_finished h.acceptsQuietly hp ?_ _ _)
    simp only [opened_cfg]
    omega
  · simp only [opened_cfg, hbase, hvbase, regrdMicros]
    ring
  · simp only [opened_cfg]
    ring
  · simp only [regrdSeen, List.append_assoc]
    rfl
  · rw [pins3, pins2, pins1]
    exact waitPins_writtenPins s.cfg s.pins _
  · rw [shift3, shift2, p1.ran.later.answer]
    rfl

/-- A shifted-in byte is the low 8 bits of `SHIFT` and nothing above them. -/
theorem shift_eq_byte {x : BitVec 24} {b : Nat → Level} (h : ∀ i, x.getLsbD i = (decide (i < 8) && b i)) :
    x = BitVec.setWidth 24 (x.extractLsb' 0 8) := by
  refine BitVec.eq_of_getLsbD_eq fun i hi => ?_
  rw [BitVec.getLsbD_setWidth, BitVec.getLsbD_extractLsb', Nat.zero_add, h i, decide_eq_true hi]
  by_cases h8 : i < 8 <;> simp [h8]

/-! ### The obligations -/

/-- Settles O20: the preamble, the command word, the payload and the last pulse are performed. -/
theorem regwrSendsTheWriteFrame : Obligations.RegwrSendsTheWriteFrame := by
  intro s reg data k h hpoll hwidth haddr hready
  have hpass : PassesChecks (.regwr reg data) s :=
    passesChecks_register h (i := .regwr reg data) rfl rfl hpoll hwidth haddr
  obtain ⟨u, hexec, hran, hpins, hsample, hrecn⟩ := exec_regwr h hpass hready
  obtain ⟨hfin, hpins', hshift', hrecn', heng'⟩ := succeed_finished hran .plain
  have hcompleted := hfin.completed
  rw [encode, opField_commandWord] at hcompleted
  refine ⟨_, u.regs.shift, hexec, hcompleted, heng'.trans (hran.heldEng.trans h.1), hfin.host, hfin.operands,
    hfin.result, hrecn'.trans hrecn, hsample, hshift', hpins'.trans hpins, ?_⟩
  rw [hfin.seen]
  simp only [regwrSeen, frameHeadSeen, List.append_assoc]

/-- Settles O21: the byte read is all that `SHIFT` holds at the end. -/
theorem regrdReturnsTheZeroExtendedByte : Obligations.RegrdReturnsTheZeroExtendedByte := by
  intro s reg k h hpoll hwidth haddr hready
  have hpass : PassesChecks (.regrd reg) s := passesChecks_register h (i := .regrd reg) rfl rfl hpoll hwidth haddr
  obtain ⟨u, hexec, hran, hpins, hbits, hrecn⟩ := exec_regrd h hpass hready
  obtain ⟨hfin, hpins', hshift', hrecn', heng'⟩ := succeed_finished hran .byte
  have hcompleted := hfin.completed
  rw [encode, opField_commandWord] at hcompleted
  refine ⟨_, u.regs.shift.extractLsb' 0 8, hexec, fun i hi => ?_, hcompleted,
    heng'.trans (hran.heldEng.trans h.1), hfin.host, hfin.operands, hfin.result, hrecn'.trans hrecn,
    hshift'.trans (shift_eq_byte hbits), hpins'.trans hpins, ?_⟩
  · rw [BitVec.getLsbD_extractLsb', Nat.zero_add, hbits i, decide_eq_true hi, Bool.true_and, Bool.true_and]
  · rw [hfin.seen]
    simp only [regrdSeen, frameHeadSeen, List.append_assoc]

end Sys2Proof.Machine
end

section
/-! How an undisturbed command can end: without `Ok` it showed no pulse, and with `Ok` a command that waits for
ready was ready at one of its samples (42_frame_codec.md R170, R171, 60_exceptions.md R254). -/

namespace Sys2Proof.Machine

/-! ### Commands that pass their tests -/

/-- Only ATTACH passes its tests without a Device Handle (60_exceptions.md R252). -/
theorem State.acceptsQuietly.idleQuiet {i : Instr} {s : State} (h : s.acceptsQuietly) (hpass : PassesChecks i s)
    (hi : i ≠ .attach) : s.idleQuiet := by
  obtain ⟨hbusy, hq⟩ := h
  obtain ⟨-, hattach, -⟩ := hpass
  refine ⟨?_, hq⟩
  cases heng : s.eng with
  | idle => rfl
  | busy => exact absurd heng hbusy
  | detached => exact absurd (hattach.mpr heng) hi

/-- A command that its tests refuse fails right after acceptance. -/
theorem exec_refused {i : Instr} {s : State} {st : Status} (h : s.acceptsQuietly) (hv : verdictOf i s = some st) :
    exec i s = .next ((s.opened (encode i)).fail st) := by
  rw [exec_eq, hv, issue_refused h]

theorem succeed_ok (u : State) (c : Completion) : (u.succeed c).status.code = .ok := rfl

/-- A command that neither waits for ready nor asks for the pins is straight, so it completes with `Ok`. -/
theorem exec_straight_succeeds {i : Instr} {s : State} (h : s.acceptsQuietly) (hpass : PassesChecks i s)
    (hwaits : waitsForReady i = false) (hi : i ≠ .attach) :
    ∃ (u : State) (c : Completion), exec i s = .next (u.succeed c) := by
  cases i with
  | rdbit => exact ⟨_, _, exec_straight h hpass rfl readCell_straightWithin (by decide) rfl⟩
  | wrbit data =>
    exact ⟨_, _, exec_straight h hpass rfl (writeCells_straightWithin s.cfg .prim [bitOperand data])
      (show 9 < tailBudget by decide) rfl⟩
  | pulse => exact ⟨_, _, exec_straight h hpass rfl (pulses_straightWithin .prim 1) (by decide) rfl⟩
  | chiprst =>
    exact ⟨_, _, exec_straight h hpass (items := cellAt .reset 0 [.clk true, .hold .reset, .clk false, .hold .startup])
      rfl ⟨by decide, Nat.le_refl _⟩ (by decide) rfl⟩
  | detach =>
    exact ⟨_, _, exec_straight h hpass (items := cellAt .detach 0 [.release]) rfl ⟨by decide, Nat.le_refl _⟩
      (by decide) rfl⟩
  | attach => exact absurd rfl hi
  | waitrdy | rawrd | regwr | regrd => cases hwaits

/-- A command that is ready completes with `Ok`, but for a RAWRD that finds the re-check high. -/
theorem exec_ready_succeeds {i : Instr} {s : State} {k : Nat} (h : s.idleQuiet) (hpass : PassesChecks i s)
    (hwaits : waitsForReady i = true) (hready : s.readyAt k)
    (hlow : i = .rawrd → s.cfg.busyRecheck = true → s.answer (k + 1) = false) :
    ∃ (u : State) (c : Completion), exec i s = .next (u.succeed c) := by
  obtain ⟨-, -, hpoll, -⟩ := id hpass
  cases i with
  | waitrdy =>
    obtain ⟨u, hexec, -⟩ := exec_waitrdy_ready h (hpoll rfl) hready
    exact ⟨u, _, hexec⟩
  | rawrd =>
    obtain ⟨r, hrec⟩ := recovers_exists s (dataStart s k + 24)
    obtain ⟨u, hexec, -⟩ := exec_rawrd h (hpoll rfl) hready (hlow rfl) hrec
    exact ⟨u, _, hexec⟩
  | regwr reg data =>
    obtain ⟨u, hexec, -⟩ := exec_regwr h hpass hready
    exact ⟨u, _, hexec⟩
  | regrd reg =>
    obtain ⟨u, hexec, -⟩ := exec_regrd h hpass hready
    exact ⟨u, _, hexec⟩
  | rdbit | wrbit | pulse | chiprst | attach | detach => cases hwaits

/-- ATTACH while detached completes with `Ok` when the platform grants the pins, and fails at once when it does not
(43_system_ops.md R190). -/
theorem exec_attach_cases {s : State} (h : s.acceptsQuietly) (hpass : PassesChecks .attach s) :
    (∃ (u : State) (c : Completion), exec .attach s = .next (u.succeed c)) ∨
      exec .attach s = .next ((s.opened (encode .attach)).grantDrawn.fail .resourceUnavailable) := by
  have hrun : exec .attach s = .next (runItems (itemBound - 2) ({ s.opened (encode .attach) with
      todo := [⟨⟨.attach, 0, 1⟩, .acquire⟩, ⟨⟨.attach, 0, 2⟩, .complete .attached⟩] } : State).grant) := by
    rw [exec_eq, (verdictOf_none _ s).mpr hpass, issue_passed h, show itemBound - 1 = itemBound - 2 + 1 by decide]
    exact congrArg _ (runItems_item (s := { s.opened (encode .attach) with todo := bodyOf .attach s.cfg }) h.2 rfl _)
  rw [hrun]
  rcases grant_cases { s.opened (encode .attach) with
      todo := [⟨⟨.attach, 0, 1⟩, .acquire⟩, ⟨⟨.attach, 0, 2⟩, .complete .attached⟩] } with ⟨-, hgrant⟩ | ⟨-, hgrant⟩
  · refine .inl ⟨(s.opened (encode .attach)).grantDrawn.doAll [.acquire], .attached, ?_⟩
    rw [hgrant, show itemBound - 2 = 1 + (itemBound - 4 + 1) by decide]
    exact congrArg _ (runItems_straight_complete [⟨⟨.attach, 0, 1⟩, .acquire⟩] (by decide) ⟨.attach, 0, 2⟩ .attached
      (s.opened (encode .attach)).grantDrawn h.2 _)
  · refine .inr ?_
    rw [hgrant]
    exact congrArg _ (runItems_paused (paused_of_done rfl) _)

/-- What is seen of an undisturbed command comes after what was seen before it. -/
theorem exec_shows {i : Instr} {s t : State} (h : s.acceptsQuietly) (hexec : exec i s = .next t) :
    ∃ evs, seen t.trace = seen s.trace ++ evs := by
  obtain ⟨u, t', _, _, _, evs, hexec', hran, hend⟩ := exec_completes i h
  cases hexec.symm.trans hexec'
  refine ⟨evs, ?_⟩
  rcases hend with ⟨st, rfl⟩ | ⟨c, rfl⟩ <;> exact hran.seen

/-! ### Commands that complete with `Ok` -/

theorem ok_passesChecks {i : Instr} {s t : State} (h : s.acceptsQuietly) (hexec : exec i s = .next t)
    (hok : t.status.code = .ok) : PassesChecks i s := by
  cases hv : verdictOf i s with
  | none => exact (verdictOf_none i s).mp hv
  | some st =>
    cases hexec.symm.trans (exec_refused h hv)
    have hst : st = .ok := hok
    rcases verdictOf_some hv with rfl | rfl <;> cases hst

/-- The ready-wait of a command that completes with `Ok` did not expire. -/
theorem ok_ready {i : Instr} {s t : State} (h : s.acceptsQuietly) (hexec : exec i s = .next t)
    (hok : t.status.code = .ok) (hwaits : waitsForReady i = true) : ∃ k, s.readyAt k := by
  have hpass := ok_passesChecks h hexec hok
  obtain ⟨-, -, hpoll, -⟩ := id hpass
  obtain ⟨k, hready | hexpires⟩ := wait_ends (hpoll hwaits)
  · exact ⟨k, hready⟩
  · obtain ⟨u, hexec', -⟩ := exec_expired h hpass hwaits hexpires
    cases hexec.symm.trans hexec'
    cases hok

/-- The micro-events of RAWRD with `r` recovery pulses. -/
def rawrdMicros (s : State) (k r : Nat) : Nat :=
  s.waitBase + 3 * k + recheckCount s.cfg + 122 + (4 * s.cfg.trailPulses.toNat + (5 * r + recoverCount s.cfg r))

/-- A RAWRD that is ready and completes with `Ok` found the re-check low; `RECN` counts its recovery pulses. -/
theorem rawrd_ok_finished {s t : State} {k : Nat} (h : s.idleQuiet) (hready : s.readyAt k)
    (hexec : exec .rawrd s = .next t) (hok : t.status.code = .ok) :
    ∃ v n, Finished s t (encode .rawrd) .ok v n (rawrdReadSeen s k ++ rawrdTailSeen s.cfg t.regs.recn.toNat)
      (k * s.cfg.tPoll.toNat + (24 + s.cfg.trailPulses.toNat + t.regs.recn.toNat)
        * (s.cfg.tHigh.toNat + s.cfg.tLow.toNat)) (rawrdMicros s k t.regs.recn.toNat) := by
  obtain ⟨-, -, hpoll, -⟩ := ok_passesChecks h.acceptsQuietly hexec hok
  have hlow : s.cfg.busyRecheck = true → s.answer (k + 1) = false := by
    intro hon
    by_contra hhigh
    obtain ⟨u, hexec', -⟩ := exec_rawrd_high h (hpoll rfl) hready hon (Bool.eq_true_of_not_eq_false hhigh)
    cases hexec.symm.trans hexec'
    cases hok
  obtain ⟨r, hrec⟩ := recovers_exists s (dataStart s k + 24)
  obtain ⟨u, hexec', hran, -, -, hrecn, -⟩ := exec_rawrd h (hpoll rfl) hready hlow hrec
  cases hexec.symm.trans hexec'
  have hr : (u.succeed .sample).regs.recn.toNat = r := by
    have hle : r ≤ s.cfg.recoverMax.toNat := hrec.1
    have hmax := s.cfg.recoverMax.isLt
    rw [State.succeed_regs]
    show u.regs.recn.toNat = r
    rw [hrecn, BitVec.toNat_ofNat]
    exact Nat.mod_eq_of_lt (by omega)
  rw [hr]
  exact ⟨_, _, (succeed_finished (hran.cast rfl rfl (by ring) rfl) .sample).1⟩

/-! ### Commands that fail -/

theorem pulseCount_append (a b : List PinEvent) : pulseCount (a ++ b) = pulseCount a + pulseCount b :=
  List.count_append

theorem pulseCount_pollSeen (c : ConfigRegs) (k : Nat) : pulseCount (pollSeen c k) = 0 := by
  refine List.count_eq_zero.mpr fun hmem => ?_
  rcases List.mem_append.mp hmem with hdir | hturns
  · unfold dirSeen at hdir
    split at hdir <;> simp at hdir
  · obtain ⟨turn, hturn, hmem⟩ := List.mem_flatten.mp hturns
    rw [List.eq_of_mem_replicate hturn] at hmem
    simp at hmem

/-- How an undisturbed command can fail: its tests refuse it, the platform refuses the pins, its ready-wait expires, or
its re-check is high (60_exceptions.md R252, R255). -/
theorem failure_cases {i : Instr} {s t : State} (h : s.acceptsQuietly) (hexec : exec i s = .next t)
    (hfail : t.status.code ≠ .ok) :
    (∃ st, verdictOf i s = some st ∧ t = (s.opened (encode i)).fail st) ∨
      (i = .attach ∧ t = (s.opened (encode i)).grantDrawn.fail .resourceUnavailable) ∨
      (PassesChecks i s ∧ waitsForReady i = true ∧ ∃ k, s.expiresAt k) ∨
      (i = .rawrd ∧ PassesChecks i s ∧ s.cfg.busyRecheck = true ∧ ∃ k, s.readyAt k ∧ s.answer (k + 1) = true) := by
  have succeeds_not {u : State} {c : Completion} (hexec' : exec i s = .next (u.succeed c)) : False := by
    cases hexec.symm.trans hexec'
    exact hfail (succeed_ok u c)
  cases hv : verdictOf i s with
  | some st =>
    cases hexec.symm.trans (exec_refused h hv)
    exact .inl ⟨st, rfl, rfl⟩
  | none =>
    have hpass := (verdictOf_none i s).mp hv
    refine .inr ?_
    cases hwaits : waitsForReady i with
    | false =>
      by_cases hi : i = .attach
      · subst hi
        rcases exec_attach_cases h hpass with ⟨u, c, hexec'⟩ | hexec'
        · exact (succeeds_not hexec').elim
        · exact .inl ⟨rfl, Host.Outcome.next.inj (hexec.symm.trans hexec')⟩
      · obtain ⟨u, c, hexec'⟩ := exec_straight_succeeds h hpass hwaits hi
        exact (succeeds_not hexec').elim
    | true =>
      have hidle : s.idleQuiet := h.idleQuiet hpass (by rintro rfl; cases hwaits)
      obtain ⟨-, -, hpoll, -⟩ := id hpass
      obtain ⟨k, hready | hexpires⟩ := wait_ends (hpoll hwaits)
      · by_cases hlow : i = .rawrd → s.cfg.busyRecheck = true → s.answer (k + 1) = false
        · obtain ⟨u, c, hexec'⟩ := exec_ready_succeeds hidle hpass hwaits hready hlow
          exact (succeeds_not hexec').elim
        · push Not at hlow
          obtain ⟨hi, hon, hhigh⟩ := hlow
          exact .inr (.inr ⟨hi, hpass, hon, k, hready, Bool.eq_true_of_not_eq_false hhigh⟩)
      · exact .inr (.inl ⟨hpass, rfl, k, hexpires⟩)

/-- A command without `Ok` showed no pulse: its first would have come after all that can fail. -/
theorem failure_shows_no_pulse {i : Instr} {s t : State} (h : s.acceptsQuietly) (hexec : exec i s = .next t)
    (hfail : t.status.code ≠ .ok) : ∃ evs, seen t.trace = seen s.trace ++ evs ∧ pulseCount evs = 0 := by
  rcases failure_cases h hexec hfail with ⟨st, -, rfl⟩ | ⟨-, rfl⟩ | ⟨hpass, hwaits, k, hexpires⟩ |
    ⟨rfl, hpass, hon, k, hready, hhigh⟩
  · exact ⟨[], (List.append_nil _).symm, rfl⟩
  · exact ⟨[], (List.append_nil _).symm, rfl⟩
  · obtain ⟨u, hexec', hran, -⟩ := exec_expired h hpass hwaits hexpires
    cases hexec.symm.trans hexec'
    exact ⟨_, hran.seen, by rw [pulseCount_append, pulseCount_pollSeen]; rfl⟩
  · obtain ⟨-, -, hpoll, -⟩ := id hpass
    obtain ⟨u, hexec', hran, -⟩ := exec_rawrd_high (h.idleQuiet hpass nofun) (hpoll rfl) hready hon hhigh
    cases hexec.symm.trans hexec'
    exact ⟨_, hran.seen, by rw [pulseCount_append, pulseCount_pollSeen]; rfl⟩

end Sys2Proof.Machine
end

section
/-! The pulses, the data levels, the directions and the duration of the frames (42_frame_codec.md R171, R172). -/

namespace Sys2Proof.Machine

/-! ### Counting what is seen -/

/-- How many pulses, data levels, `DIR(out)` and `DIR(in)` a list of events has (42_frame_codec.md R171). -/
structure Tally (evs : List PinEvent) (pulses levels outs ins : Nat) : Prop where
  pulses : pulseCount evs = pulses
  levels : dataLevels evs = levels
  outs : evs.count (.dir .output) = outs
  ins : evs.count (.dir .input) = ins

theorem Tally.append {a b : List PinEvent} {p l o n p' l' o' n' : Nat} (h : Tally a p l o n)
    (g : Tally b p' l' o' n') : Tally (a ++ b) (p + p') (l + l') (o + o') (n + n') where
  pulses := by rw [pulseCount_append, h.pulses, g.pulses]
  levels := by rw [dataLevels, List.countP_append, ← h.levels, ← g.levels]; rfl
  outs := by rw [List.count_append, h.outs, g.outs]
  ins := by rw [List.count_append, h.ins, g.ins]

/-- The numbers may be written otherwise. -/
theorem Tally.cast {a : List PinEvent} {p l o n p' l' o' n' : Nat} (h : Tally a p l o n) (hp : p = p') (hl : l = l')
    (ho : o = o') (hn : n = n') : Tally a p' l' o' n' := by
  subst hp hl ho hn; exact h

/-- Cells that count alike, one after the other. -/
theorem Tally.flatten {cells : List (List PinEvent)} {p l o n : Nat} (h : ∀ cell ∈ cells, Tally cell p l o n) :
    Tally cells.flatten (cells.length * p) (cells.length * l) (cells.length * o) (cells.length * n) := by
  induction cells with
  | nil => simpa using (⟨rfl, rfl, rfl, rfl⟩ : Tally [] 0 0 0 0)
  | cons cell cells ih =>
    obtain ⟨hcell, hcells⟩ := List.forall_mem_cons.mp h
    rw [List.flatten_cons, List.length_cons]
    exact (hcell.append (ih hcells)).cast (by ring) (by ring) (by ring) (by ring)

theorem Tally.replicate {cell : List PinEvent} {p l o n : Nat} (h : Tally cell p l o n) (k : Nat) :
    Tally (List.replicate k cell).flatten (k * p) (k * l) (k * o) (k * n) := by
  have hcells := Tally.flatten (cells := List.replicate k cell) fun cell' hmem => List.eq_of_mem_replicate hmem ▸ h
  rwa [List.length_replicate] at hcells

theorem Tally.range {cell : Nat → List PinEvent} {p l o n : Nat} (h : ∀ k, Tally (cell k) p l o n) (k : Nat) :
    Tally ((List.range k).flatMap cell) (k * p) (k * l) (k * o) (k * n) := by
  have hcells := Tally.flatten (cells := (List.range k).map cell) fun cell' hmem => by
    obtain ⟨j, -, rfl⟩ := List.mem_map.mp hmem
    exact h j
  rwa [List.length_map, List.length_range] at hcells

/-! ### The pieces of a frame -/

theorem tally_sample (b : Level) : Tally [.smp b] 0 0 0 0 := ⟨rfl, rfl, rfl, rfl⟩

theorem tally_pulse (c : ConfigRegs) : Tally (pulseSeen c) 1 0 0 0 := ⟨rfl, rfl, rfl, rfl⟩

theorem tally_pulses (c : ConfigRegs) (n : Nat) : Tally (pulsesSeen c n) n 0 0 0 :=
  ((tally_pulse c).replicate n).cast (Nat.mul_one n) rfl rfl rfl

theorem tally_recover (c : ConfigRegs) (r : Nat) : Tally (recoverSeen c r) r 0 0 0 :=
  (((tally_sample false).append (tally_pulse c)).replicate r).cast (Nat.mul_one r) rfl rfl rfl

theorem tally_reads (s : State) (k n : Nat) : Tally (s.readsSeen k n) n 0 0 0 :=
  (Tally.range (p := 1) (l := 0) (o := 0) (n := 0) (fun _ => ⟨rfl, rfl, rfl, rfl⟩) n).cast (Nat.mul_one n) rfl rfl rfl

theorem tally_dirInput (c : ConfigRegs) : Tally (dirSeen c .input) 0 0 0 c.sharedPin.toNat := by
  unfold dirSeen
  cases c.sharedPin <;> exact ⟨rfl, rfl, rfl, rfl⟩

theorem tally_dirOutput (c : ConfigRegs) : Tally (dirSeen c .output) 0 0 c.sharedPin.toNat 0 := by
  unfold dirSeen
  cases c.sharedPin <;> exact ⟨rfl, rfl, rfl, rfl⟩

/-- The turns of a ready-wait: only the `DIR(in)` before them counts. -/
theorem tally_poll (c : ConfigRegs) (k : Nat) : Tally (pollSeen c k) 0 0 0 c.sharedPin.toNat :=
  ((tally_dirInput c).append (Tally.replicate (p := 0) (l := 0) (o := 0) (n := 0) ⟨rfl, rfl, rfl, rfl⟩ k)).cast
    rfl rfl rfl rfl

/-- A write cell: one pulse, one level, and in shared wiring one direction each way. -/
theorem tally_write (c : ConfigRegs) (b : Level) : Tally (writeSeen c b) 1 1 c.sharedPin.toNat c.sharedPin.toNat := by
  have hcell : Tally [.dat (b ^^ c.dinInvert), .clk true, .hold c.tHigh.toNat, .clk false, .hold c.tLow.toNat]
      1 1 0 0 := by
    cases b ^^ c.dinInvert <;> exact ⟨rfl, rfl, rfl, rfl⟩
  exact (((tally_dirOutput c).append hcell).append (tally_dirInput c)).cast rfl rfl rfl (Nat.zero_add _)

theorem tally_writes (c : ConfigRegs) (v : Byte) (n : Nat) :
    Tally (writesSeen c v n) n n (n * c.sharedPin.toNat) (n * c.sharedPin.toNat) :=
  (Tally.range (fun _ => tally_write c _) n).cast (Nat.mul_one n) (Nat.mul_one n) rfl rfl

/-- A sample that may be taken or not counts for nothing. -/
theorem tally_optionalSample (p : Prop) [Decidable p] (b : Level) : Tally (if p then [.smp b] else []) 0 0 0 0 := by
  split <;> exact ⟨rfl, rfl, rfl, rfl⟩

/-! ### The frames -/

theorem tally_rawrd (s : State) (k r : Nat) :
    Tally (rawrdReadSeen s k ++ rawrdTailSeen s.cfg r) (24 + s.cfg.trailPulses.toNat + r) 0 0
      s.cfg.sharedPin.toNat := by
  have hread := (((tally_poll s.cfg k).append (tally_sample false)).append
    (tally_optionalSample (s.cfg.busyRecheck = true) false)).append (tally_reads s (dataStart s k) 24)
  have htail := (tally_pulses s.cfg s.cfg.trailPulses.toNat).append
    ((tally_recover s.cfg r).append (tally_optionalSample (r < s.cfg.recoverMax.toNat) true))
  exact (hread.append htail).cast (by omega) rfl rfl rfl

theorem tally_frameHead (s : State) (k : Nat) (code reg : Byte) :
    Tally (frameHeadSeen s k code reg) (25 + s.cfg.cmdWidth.toNat) s.cfg.cmdWidth.toNat
      (s.cfg.cmdWidth.toNat * s.cfg.sharedPin.toNat) ((s.cfg.cmdWidth.toNat + 1) * s.cfg.sharedPin.toNat) :=
  (((((tally_poll s.cfg k).append (tally_sample false)).append (tally_reads s (k + 1) 24)).append
    (tally_pulse s.cfg)).append (tally_writes s.cfg _ s.cfg.cmdWidth.toNat)).cast
    (by omega) (by omega) (by omega) (by ring)

theorem tally_regwr (s : State) (k : Nat) (reg data : Byte) :
    Tally (regwrSeen s k reg data) (34 + s.cfg.cmdWidth.toNat) (s.cfg.cmdWidth.toNat + 8)
      ((s.cfg.cmdWidth.toNat + 8) * s.cfg.sharedPin.toNat) ((s.cfg.cmdWidth.toNat + 8 + 1) * s.cfg.sharedPin.toNat) :=
  (((tally_frameHead s k s.cfg.cmdWr reg).append (tally_writes s.cfg data 8)).append (tally_pulse s.cfg)).cast
    (by omega) (by omega) (by ring) (by ring)

theorem tally_regrd (s : State) (k : Nat) (reg : Byte) :
    Tally (regrdSeen s k reg) (34 + s.cfg.cmdWidth.toNat) s.cfg.cmdWidth.toNat
      (s.cfg.cmdWidth.toNat * s.cfg.sharedPin.toNat) ((s.cfg.cmdWidth.toNat + 2) * s.cfg.sharedPin.toNat) :=
  ((((tally_frameHead s k s.cfg.cmdRd reg).append (tally_dirInput s.cfg)).append (tally_reads s (k + 25) 8)).append
    (tally_pulse s.cfg)).cast (by omega) (by omega) (by omega) (by ring)

/-- What comes `n` times in shared wiring and never in dedicated wiring. -/
theorem mul_sharedPin (c : ConfigRegs) (n : Nat) : n * c.sharedPin.toNat = if c.sharedPin then n else 0 := by
  cases c.sharedPin <;> simp

/-! ### The micro-events of a frame -/

theorem writeMicros_le (c : ConfigRegs) : writeMicros c ≤ 7 := by unfold writeMicros; split <;> omega

theorem rawrdMicros_le (s : State) (k : Nat) (r : BitVec 4) : rawrdMicros s k r.toNat ≤ 3 * k + 300 := by
  have hbase := waitBase_le s
  have hcheck : recheckCount s.cfg ≤ 1 := by unfold recheckCount; split <;> omega
  have hlast : recoverCount s.cfg r.toNat ≤ 1 := by unfold recoverCount; split <;> omega
  have htrail := s.cfg.trailPulses.isLt
  have hr := r.isLt
  unfold rawrdMicros
  omega

theorem regwrMicros_le (s : State) (k : Nat) : regwrMicros s k ≤ 3 * k + 300 := by
  have hbase := waitBase_le s
  have hwidth := s.cfg.cmdWidth.isLt
  have hcells : (s.cfg.cmdWidth.toNat + 8) * writeMicros s.cfg ≤ 23 * 7 :=
    Nat.mul_le_mul (by omega) (writeMicros_le s.cfg)
  unfold regwrMicros
  omega

theorem regrdMicros_le (s : State) (k : Nat) : regrdMicros s k ≤ 3 * k + 300 := by
  have hbase := waitBase_le s
  have hwidth := s.cfg.cmdWidth.isLt
  have hcells : s.cfg.cmdWidth.toNat * writeMicros s.cfg ≤ 15 * 7 :=
    Nat.mul_le_mul (by omega) (writeMicros_le s.cfg)
  unfold regrdMicros
  omega

/-! ### The obligations -/

/-- Settles O32: a failed command showed no pulse; of one that completed with `Ok` all that was seen is known, and
counted. -/
theorem pulseCountsOfFrames : Obligations.PulseCountsOfFrames := by
  intro i s t h hexec
  by_cases hok : t.status.code = .ok
  · have hpass := ok_passesChecks h hexec hok
    cases i with
    | rawrd =>
      have hidle := h.idleQuiet hpass nofun
      obtain ⟨k, hready⟩ := ok_ready h hexec hok rfl
      obtain ⟨_, _, hfin⟩ := rawrd_ok_finished hidle hready hexec hok
      obtain ⟨hpulses, hlevels, houts, hins⟩ := tally_rawrd s k t.regs.recn.toNat
      refine ⟨_, hfin.seen, fun hne => absurd hok hne, fun _ _ => ⟨hpulses, hlevels, houts, hins.trans ?_⟩,
        nofun, nofun⟩
      rw [← mul_sharedPin, Nat.one_mul]
    | regwr reg data =>
      have hidle := h.idleQuiet hpass nofun
      obtain ⟨k, hready⟩ := ok_ready h hexec hok rfl
      obtain ⟨u, hexec', hran, -⟩ := exec_regwr hidle hpass hready
      cases hexec.symm.trans hexec'
      obtain ⟨hpulses, hlevels, houts, hins⟩ := tally_regwr s k reg data
      rw [mul_sharedPin] at houts hins
      exact ⟨_, hran.seen, fun hne => absurd hok hne, nofun, fun _ _ _ _ => ⟨hpulses, hlevels, houts, hins⟩, nofun⟩
    | regrd reg =>
      have hidle := h.idleQuiet hpass nofun
      obtain ⟨k, hready⟩ := ok_ready h hexec hok rfl
      obtain ⟨u, hexec', hran, -⟩ := exec_regrd hidle hpass hready
      cases hexec.symm.trans hexec'
      obtain ⟨hpulses, hlevels, houts, hins⟩ := tally_regrd s k reg
      rw [mul_sharedPin] at houts hins
      exact ⟨_, hran.seen, fun hne => absurd hok hne, nofun, nofun, fun _ _ _ => ⟨hpulses, hlevels, houts, hins⟩⟩
    | rdbit | wrbit | pulse | waitrdy | chiprst | attach | detach =>
      obtain ⟨evs, hseen⟩ := exec_shows h hexec
      exact ⟨evs, hseen, fun hne => absurd hok hne, nofun, nofun, nofun⟩
  · obtain ⟨evs, hseen, hpulses⟩ := failure_shows_no_pulse h hexec hok
    exact ⟨evs, hseen, fun _ => hpulses, fun hok' => absurd hok' hok, fun _ _ hok' => absurd hok' hok,
      fun _ hok' => absurd hok' hok⟩

/-- Settles O34: the minimums of a frame add up to its duration, and no micro-event of it takes longer. -/
theorem durationsInReferenceTiming : Obligations.DurationsInReferenceTiming := by
  intro i s t k h href hpass hready hexec hok
  refine ⟨?_, fun haddr => ?_⟩
  · rintro rfl
    obtain ⟨_, _, hfin⟩ := rawrd_ok_finished h hready hexec hok
    have hnow := hfin.now
    rwa [State.elapsed_reference href (rawrdMicros_le s k t.regs.recn), Nat.add_zero, ← Nat.add_assoc] at hnow
  · cases i with
    | regwr reg data =>
      obtain ⟨u, hexec', hran, -⟩ := exec_regwr h hpass hready
      cases hexec.symm.trans hexec'
      have hnow := (succeed_finished hran .plain).1.now
      rwa [State.elapsed_reference href (regwrMicros_le s k), Nat.add_zero, ← Nat.add_assoc] at hnow
    | regrd reg =>
      obtain ⟨u, hexec', hran, -⟩ := exec_regrd h hpass hready
      cases hexec.symm.trans hexec'
      have hnow := (succeed_finished hran .byte).1.now
      rwa [State.elapsed_reference href (regrdMicros_le s k), Nat.add_zero, ← Nat.add_assoc] at hnow
    | rdbit | wrbit | pulse | waitrdy | rawrd | chiprst | attach | detach => cases haddr

end Sys2Proof.Machine
end

section
/-! The system operations (43_system_ops.md R190 to R193): CHIPRST and DETACH are straight; ATTACH turns on the
platform's answer. -/

namespace Sys2Proof.Machine

/-! ### CHIPRST (43_system_ops.md R193) -/

/-- The actions of CHIPRST. -/
def chiprstActs : List Act := [.clk true, .hold .reset, .clk false, .hold .startup]

/-- The long pulse and the start-up hold: of the pins the clock alone moves, and it ends low. -/
theorem chiprstActs_run (s : State) :
    Ran s (s.doAll chiprstActs) 0 4 (s.cfg.tReset.toNat + s.cfg.tStartup.toNat)
        [.clk true, .hold s.cfg.tReset.toNat, .clk false, .hold s.cfg.tStartup.toNat] ∧
      (s.doAll chiprstActs).pins = { s.pins with clkO := false } ∧
      (s.doAll chiprstActs).regs.shift = s.regs.shift ∧ (s.doAll chiprstActs).regs.recn = s.regs.recn := by
  have hs : allStraight chiprstActs := by decide
  obtain ⟨hshift, hrecn, -, -⟩ := doAll_datapath hs (by decide) s
  refine ⟨(ran_doAll hs s).cast rfl rfl ?_ rfl, doAll_pins hs s, hshift, hrecn⟩
  simp [chiprstActs, Act.mins, ConfigRegs.interval]

/-- CHIPRST in an idle engine: the long pulse, and its completion. -/
theorem exec_chiprst {s : State} (h : s.idleQuiet) :
    exec .chiprst s = .next (((s.opened (encode .chiprst)).doAll chiprstActs).succeed .plain) :=
  exec_straight (i := .chiprst) h.acceptsQuietly (passesChecks_of_idle h rfl nofun nofun rfl)
    (items := cellAt .reset 0 chiprstActs) rfl ⟨by decide, Nat.le_refl _⟩ (by decide) rfl

/-- Settles O25: the long pulse is performed, and the completion returns no value. -/
theorem chiprstIsOneLongPulse : Obligations.ChiprstIsOneLongPulse := by
  intro s h
  obtain ⟨hran, hpins, hshift, hrecn⟩ := chiprstActs_run (s.opened (encode .chiprst))
  obtain ⟨hfin, hpins', hshift', hrecn', heng'⟩ := succeed_finished hran .plain
  exact ⟨_, exec_chiprst h, hfin.completed, heng'.trans (hran.heldEng.trans h.1), hfin.host, hfin.operands, hfin.result,
    hrecn'.trans hrecn, hshift'.trans hshift, hpins'.trans hpins, hfin.seen, hfin.now⟩

/-! ### DETACH (43_system_ops.md R192) -/

/-- DETACH in an idle engine: the release of the pins, and its completion. -/
theorem exec_detach {s : State} (h : s.idleQuiet) :
    exec .detach s = .next ((s.opened (encode .detach)).release.succeed .detached) :=
  exec_straight (i := .detach) h.acceptsQuietly (passesChecks_of_idle h rfl nofun nofun rfl)
    (items := cellAt .detach 0 [.release]) rfl ⟨by decide, Nat.le_refl _⟩ (by decide) rfl

/-- Settles O27: the release takes no time and clears `DRIVE` alone; the completion makes the engine detached. -/
theorem detachReleasesThePins : Obligations.DetachReleasesThePins := by
  intro s h
  have hran : Ran (s.opened (encode .detach)) (s.opened (encode .detach)).release 0 0 0 [.release] :=
    ran_does (a := .release) rfl _
  obtain ⟨hfin, hpins, hshift, hrecn, heng⟩ := succeed_finished hran .detached
  exact ⟨_, exec_detach h, hfin.completed, heng, hfin.host, hfin.operands, hfin.result, hrecn, hshift, hpins, hfin.seen,
    hfin.now⟩

/-! ### ATTACH (43_system_ops.md R190, R191) -/

/-- Without a Device Handle ATTACH passes its tests (60_exceptions.md R252). -/
theorem passesChecks_attach {s : State} (h : s.eng = .detached) : PassesChecks .attach s :=
  ⟨rfl, ⟨fun _ => h, fun _ => rfl⟩, nofun, nofun⟩

/-- A granted request goes on to what follows it. -/
theorem grant_passed {s : State} (hq : s.hostIn = []) (hg : s.granted = true) (q : Seq) :
    Passed [⟨q, .grant⟩] s s.grantDrawn 1 0 0 0 [] where
  ran := ran_grantDrawn s
  runs rest k := by
    rw [Nat.add_comm 1 k]
    exact (runItems_item (s := { s with todo := ⟨q, .grant⟩ :: rest }) hq rfl k).trans
      (congrArg (runItems k) (if_pos hg))

/-- A refused request ends the command, whatever stands after it. -/
theorem runItems_grant_refused {s : State} (hq : s.hostIn = []) (hg : s.granted = false) (q : Seq) (rest : List Item)
    (n : Nat) : runItems (n + 1) { s with todo := ⟨q, .grant⟩ :: rest } = s.grantDrawn.fail .resourceUnavailable := by
  have hgrant : ({ s with todo := rest } : State).grant = s.grantDrawn.fail .resourceUnavailable :=
    if_neg (ne_true_of_eq_false hg)
  rw [runItems_item (s := { s with todo := ⟨q, .grant⟩ :: rest }) hq rfl]
  exact (congrArg (runItems n) hgrant).trans (runItems_paused (paused_of_done rfl) n)

/-- The state of a granted ATTACH before its completion. -/
def State.attaching (s : State) : State := (s.opened (encode .attach)).grantDrawn.acquire

/-- A granted ATTACH draws the platform's answer and takes the pins, in no time. -/
theorem attaching_passed {s : State} (hq : s.hostIn = []) (hg : s.granted = true) :
    Passed (cellAt .attach 0 [.grant, .acquire]) (s.opened (encode .attach)) s.attaching 2 0 0 0 [.acquire] :=
  (grant_passed (s := s.opened (encode .attach)) hq hg ⟨.attach, 0, 0⟩).trans
    (passed_straight (items := [⟨⟨.attach, 0, 1⟩, .acquire⟩]) (show allStraight [.acquire] by decide) hq)

theorem exec_attach_granted {s : State} (h : s.acceptsQuietly) (hpass : PassesChecks .attach s)
    (hg : s.granted = true) : exec .attach s = .next (s.attaching.succeed .attached) := by
  rw [exec_eq, (verdictOf_none _ s).mpr hpass]
  exact congrArg _ (issue_finished h (attaching_passed h.2 hg) (by decide) ⟨.attach, 0, 2⟩ .attached)

theorem exec_attach_refused {s : State} (h : s.acceptsQuietly) (hpass : PassesChecks .attach s)
    (hg : s.granted = false) :
    exec .attach s = .next ((s.opened (encode .attach)).grantDrawn.fail .resourceUnavailable) := by
  rw [exec_eq, (verdictOf_none _ s).mpr hpass, issue_passed h]
  exact congrArg _ (runItems_grant_refused (s := s.opened (encode .attach)) h.2 hg ⟨.attach, 0, 0⟩ _ (itemBound - 2))

/-- Settles O26: the platform's answer decides between taking the pins and failing with everything as it was. -/
theorem attachTakesThePinsWhenGranted : Obligations.AttachTakesThePinsWhenGranted := by
  intro s hdet hq
  have haccepts : s.acceptsQuietly := ⟨by rw [hdet]; exact Eng.noConfusion, hq⟩
  have hpass := passesChecks_attach hdet
  cases hg : s.granted with
  | true =>
    obtain ⟨hfin, hpins, hshift, hrecn, heng⟩ := succeed_finished (attaching_passed hq hg).ran .attached
    exact ⟨_, exec_attach_granted haccepts hpass hg, hfin.host, hfin.operands, hfin.result, hrecn, hshift, hfin.now,
      rfl, hfin.completed, heng, hpins, hfin.seen⟩
  | false =>
    obtain ⟨hfin, hpins, hshift, hrecn, heng⟩ :=
      fail_finished (ran_grantDrawn (s.opened (encode .attach))) .resourceUnavailable
    exact ⟨_, exec_attach_refused haccepts hpass hg, hfin.host, hfin.operands, hfin.result, hrecn, hshift, hfin.now,
      rfl, hfin.completed, heng.trans hdet, hpins, rfl⟩

end Sys2Proof.Machine
end

section
/-! What the host holds, without the engine: the rates, the Configuration Byte of layout L0, the history and the statistics
(44_host_config_and_sampling.md R214, R215, R220, R229 to R231). -/

namespace Sys2Proof.Facade

open Sys2Proof.Machine

/-! ### The rate mapping (R214) -/

theorem codeFor_rateFor : ∀ code : BitVec 2, codeFor (rateFor code) = some code := by decide

/-- A rate with a code is one of the four, and the code leads back to it. -/
theorem rateFor_of_codeFor {rate : Nat} {code : BitVec 2} (h : codeFor rate = some code) : rateFor code = rate := by
  unfold codeFor at h
  split_ifs at h with h0 h1 h2 h3 <;> cases h
  · exact h0.symm
  · exact h1.symm
  · exact h2.symm
  · exact h3.symm

theorem codeFor_eq_none {rate : Nat} : codeFor rate = none ↔ rate ≠ 10 ∧ rate ≠ 40 ∧ rate ≠ 640 ∧ rate ≠ 1280 := by
  constructor
  · intro h
    refine ⟨?_, ?_, ?_, ?_⟩ <;> rintro rfl <;> cases h
  · rintro ⟨h0, h1, h2, h3⟩
    simp [codeFor, Config.rateOfCode0, Config.rateOfCode1, Config.rateOfCode2, Config.rateOfCode3, h0, h1, h2, h3]

/-- `write_rate` of a rate without a code is rejected before any command (R220, R235). -/
theorem writeRate_rejected (p : Params) {y : System} {k rate : Nat} (hr : codeFor rate = none)
    (h : y.activity k = none) :
    y.move p (.call k (.writeRate rate)) = { y with answers := y.answers ++ [(k, .rejected .invalidArgument)] } :=
  begin_rejected p h (by simp [Call.rejection, hr])

/-- Settles O47: the four codes and their rates one by one. -/
theorem rateMappingIsABijection : Obligations.RateMappingIsABijection :=
  ⟨codeFor_rateFor, fun _ _ => rateFor_of_codeFor, fun _ => codeFor_eq_none, rfl, rfl, rfl, rfl,
    fun _ p _ _ hr h => writeRate_rejected p hr h⟩

/-- Settles O52: none of the four rates, so no code. -/
theorem unsupportedRateIsRejected : Obligations.UnsupportedRateIsRejected :=
  fun _ p _ _ h0 h1 h2 h3 h => writeRate_rejected p (codeFor_eq_none.mpr ⟨h0, h1, h2, h3⟩) h

/-! ### The Configuration Byte (R215) -/

/-- Layout L0 puts the three codes side by side (30_encoding.md R101). -/
theorem pack_layoutL0 (c : Settings) : pack layoutL0 c = (0#2 ++ c.channel) ++ (c.gain ++ c.speed) := by
  simp only [pack, layoutL0, flagAt]
  generalize c.speed = speed
  generalize c.gain = gain
  generalize c.channel = channel
  revert speed gain channel
  decide

/-- Each code is read back at its place, and bits 7:6 are 0 (R215; log 25). -/
theorem pack_layoutL0_fields (c : Settings) :
    (pack layoutL0 c).extractLsb' 0 2 = c.speed ∧ (pack layoutL0 c).extractLsb' 2 2 = c.gain ∧
      (pack layoutL0 c).extractLsb' 4 2 = c.channel ∧ (pack layoutL0 c).extractLsb' 6 2 = 0 := by
  rw [pack_layoutL0]
  exact ⟨(BitVec.extractLsb'_append_eq_of_add_le (by decide)).trans BitVec.extractLsb'_append_eq_right,
    (BitVec.extractLsb'_append_eq_of_add_le (by decide)).trans BitVec.extractLsb'_append_eq_left,
    (BitVec.extractLsb'_append_eq_of_le (by decide)).trans BitVec.extractLsb'_append_eq_right,
    (BitVec.extractLsb'_append_eq_of_le (by decide)).trans BitVec.extractLsb'_append_eq_left⟩

/-- Settles O51: `unpack` reads each field from the place `pack` gave it. -/
theorem packOfLayoutL0RoundTrips : Obligations.PackOfLayoutL0RoundTrips := by
  intro c old
  obtain ⟨hspeed, hgain, hchannel, hrest⟩ := pack_layoutL0_fields c
  exact ⟨hspeed, hgain, hchannel, hspeed, hgain, hchannel, hrest⟩

/-! ### The Sampling History (R229) -/

/-- The slots as they are read: from `head` on, around the end. -/
def History.inOrder (h : History) : List Int := h.slots.rotate h.head

theorem append_slots_length (h : History) (x : Int) : (h.append x).slots.length = h.slots.length :=
  List.length_set

/-- An append drops the oldest sample and adds the new one at the end. -/
theorem append_inOrder {h : History} (hh : h.head < h.slots.length) (x : Int) :
    (h.append x).inOrder = h.inOrder.tail ++ [x] := by
  obtain ⟨slots, head⟩ := h
  obtain ⟨before, oldest, after, rfl, rfl⟩ : ∃ before oldest after, slots = before ++ oldest :: after ∧ head = before.length :=
    ⟨slots.take head, slots[head], slots.drop (head + 1), by simp, by simp [Nat.le_of_lt hh]⟩
  have hset : (before ++ oldest :: after).set before.length x = (before ++ [x]) ++ after := by simp
  have hlen : (before ++ oldest :: after).length = ((before ++ [x]) ++ after).length := by simp
  have hhead : before.length + 1 = (before ++ [x]).length := by simp
  simp only [History.append, History.inOrder, hset, hlen, List.rotate_mod, List.rotate_append_length_eq, hhead]
  simp

/-- After the samples `xs` the history holds, in order, the last of the initial zeros and `xs`. -/
theorem history_after_appends {cap : Nat} (hcap : 0 < cap) (xs : List Int) :
    let h := xs.foldl History.append (History.create cap)
    h.head = xs.length % cap ∧ h.slots.length = cap ∧ h.inOrder = (List.replicate cap 0 ++ xs).drop xs.length := by
  induction xs using List.reverseRecOn with
  | nil => simp [History.create, History.inOrder]
  | append_singleton xs x ih =>
    obtain ⟨hhead, hlen, horder⟩ := ih
    rw [List.foldl_append, List.foldl_cons, List.foldl_nil]
    generalize xs.foldl History.append (History.create cap) = h at *
    refine ⟨?_, (append_slots_length h x).trans hlen, ?_⟩
    · simp [History.append, hhead, hlen]
    · have hlt : h.head < h.slots.length := by rw [hhead, hlen]; exact Nat.mod_lt _ hcap
      rw [append_inOrder hlt, horder, List.tail_drop, ← List.append_assoc, List.length_append, List.length_singleton]
      exact (List.drop_append_of_le_length (by simp; omega)).symm

/-- Settles O48: with at least `cap` samples none of the initial zeros is left. -/
theorem historyHoldsTheLastSamples : Obligations.HistoryHoldsTheLastSamples := by
  intro cap xs hcap hle
  obtain ⟨hhead, hlen, horder⟩ := history_after_appends hcap xs
  refine ⟨hhead, hlen, ?_⟩
  have hlt : xs.length % cap < cap := Nat.mod_lt _ hcap
  rw [← List.rotate_eq_drop_append_take (by omega)]
  refine horder.trans ?_
  rw [List.drop_append, List.length_replicate, List.drop_eq_nil_of_le (by simpa using hle), List.nil_append]

/-! ### The statistics (R230, R231) -/

/-- Publishing adds up samples, statistics and the loop's counter. -/
theorem publish_all (h : HostState) (xs : List Int) :
    let t := xs.foldl HostState.publish h
    t.sum = h.sum + xs.sum ∧ t.count = h.count + xs.length ∧ t.sampleCounter = h.sampleCounter + xs.length := by
  induction xs generalizing h with
  | nil => simp
  | cons x xs ih =>
    obtain ⟨hsum, hcount, hcounter⟩ := ih (h.publish x)
    simp only [List.foldl_cons, List.sum_cons, List.length_cons]
    exact ⟨hsum.trans (add_assoc h.sum x _), hcount.trans (Nat.add_right_comm h.count 1 _),
      hcounter.trans (Nat.add_right_comm h.sampleCounter 1 _)⟩

/-- Settles O49: sum and count are those of the samples; each clearing leaves the other's fields alone. -/
theorem statisticsOfPublishedSamples : Obligations.StatisticsOfPublishedSamples := by
  intro h xs hsum0 hcount0
  obtain ⟨hsum, hcount, hcounter⟩ := publish_all h xs
  rw [hsum0, zero_add] at hsum
  rw [hcount0, Nat.zero_add] at hcount
  refine ⟨hcount, ?_, rfl, rfl, rfl, hcounter, rfl, rfl⟩
  simp only [HostState.mean, hsum, hcount, List.length_eq_zero_iff]

end Sys2Proof.Facade
end

section
/-! Calls that present one command, from the call to its answer, and the background task (44_host_config_and_sampling.md
R216, R219, R222, R225, R226, R228, R232). -/

namespace Sys2Proof.Machine

/-- An undisturbed command is answered by one response, to who presented it, with the status it completed with
(20_memory.md R75, 60_exceptions.md R254). -/
theorem exec_responds (i : Instr) {s : State} (h : s.acceptsQuietly) :
    ∃ t r, exec i s = .next t ∧ t.responses = s.responses ++ [r] ∧ r.who = s.requester ∧ r.status = t.status.code := by
  obtain ⟨u, t, _, _, _, _, hexec, hran, hend⟩ := exec_completes i h
  have hresp : u.responses = s.responses := hran.responses
  have howner : u.latch.owner = s.requester := hran.owner
  rcases hend with ⟨st, rfl⟩ | ⟨c, rfl⟩
  · exact ⟨_, _, hexec, by rw [State.fail_responses, hresp], howner, rfl⟩
  · exact ⟨_, _, hexec, by rw [State.succeed_responses, hresp], howner, rfl⟩

end Sys2Proof.Machine

namespace Sys2Proof.Facade

open Sys2Proof.Machine

/-! ### The host state -/

/-- A lock that is free stays so when it is released. -/
theorem unlock_of_free {h : HostState} (hl : h.lock = none) : { h with lock := none } = h := by rw [← hl]

/-- A task goes on to where it stands. -/
theorem withTask_self {h : HostState} {t : Task} (ht : h.task = t) : { h with task := t } = h := by rw [← ht]

/-- What an `Ok` does to the host state neither asks who holds the lock nor releases it. -/
theorem act_locked (p : Params) (e : Effect) (h : HostState) (l : Option Nat) :
    e.act p { h with lock := l } = { e.act p h with lock := l } := by cases e <;> rfl

theorem act_lock (p : Params) (e : Effect) (h : HostState) : (e.act p h).lock = h.lock := by cases e <;> rfl

/-! ### A caller at its job -/

@[simp] theorem run_nil (p : Params) (y : System) : y.run p [] = y := rfl

@[simp] theorem run_cons (p : Params) (y : System) (m : Move) (ms : List Move) :
    y.run p (m :: ms) = (y.move p m).run p ms := rfl

/-- A caller that is ready does its first job. -/
theorem callerMove_job (p : Params) (y : System) (k : Nat) (j : Job) (js : List Job) (reply : Answer) :
    y.callerMove p ⟨k, j :: js, .ready, reply⟩ = y.doJob p ⟨k, j :: js, .ready, reply⟩ j := rfl

/-- The same of the call that came last. -/
theorem withCall_job (p : Params) {y : System} {k : Nat} (h : y.activity k = none) (j : Job) (js : List Job)
    (reply : Answer) : (y.withCall ⟨k, j :: js, .ready, reply⟩).move p (.caller k)
      = (y.withCall ⟨k, j :: js, .ready, reply⟩).doJob p ⟨k, j :: js, .ready, reply⟩ j :=
  withCall_caller (a := ⟨k, j :: js, .ready, reply⟩) h p

/-- With nothing left to do the call that came last answers, whatever host and engine it leaves. -/
theorem withCall_answering (p : Params) {y : System} {k : Nat} (h : y.activity k = none) (g : HostState) (s : State)
    (reply : Answer) :
    (({ y with host := g, engine := s } : System).withCall ⟨k, [], .ready, reply⟩).move p (.caller k)
      = { y with host := g, engine := s, answers := y.answers ++ [(k, reply)] } :=
  withCall_done (y := { y with host := g, engine := s }) (a := ⟨k, [], .ready, reply⟩) h p rfl rfl

/-- `y` with the lock taken by a caller and the engine in the state `s`. -/
def System.locked (y : System) (k : Nat) (s : State) : System :=
  { y with host := { y.host with lock := some k }, engine := s }

/-- A call that waits for the response to the command it presented in `y`. -/
def System.awaiting (y : System) (a : Activity) (e : Effect) : Activity :=
  { a with place := .awaiting y.engine.responses.length e }

/-- `y` with the call `a` that has presented its command `i`. -/
def System.presenting (y : System) (a : Activity) (i : Instr) (e : Effect) : System :=
  (y.locked a.caller (y.engine.hostAct (.present ⟨callerRequester a.caller, encode i⟩))).withCall (y.awaiting a e)

/-- A call that must wait for the CHIPRST presents nothing (70_reset_and_hazards.md R296). -/
theorem present_blocked {y : System} {i : Instr} (hb : y.blocked i = true) (a : Activity) (e : Effect) :
    y.present a i e = y := if_pos hb

/-- With a handle and the chip out of step, a register write is held back. -/
theorem blocked_of_desynced {y : System} (hh : y.host.handle = true) (hd : y.host.desynced = true) (reg data : Byte) :
    y.blocked (.regwr reg data) = true := by
  simp [System.blocked, HostState.holdsBack, hh, hd]

/-- The engine runs the presented command, the only one there is. -/
theorem presenting_engine (p : Params) {y : System} {a : Activity} {i : Instr} {t : State}
    (hq : y.engine.acceptsQuietly) (hw : y.engine.waiting = []) (hi : i.wellFormed = true)
    (hexec : exec i (y.engine.serve ⟨callerRequester a.caller, encode i⟩ []) = .next t) (e : Effect) :
    (y.presenting a i e).move p .engine = (y.locked a.caller t).withCall (y.awaiting a e) :=
  withCall_engineMove p (y := y.locked a.caller (y.engine.hostAct (.present ⟨callerRequester a.caller, encode i⟩)))
    ((step_presented hq hw ⟨callerRequester a.caller, encode i⟩ (decode_encode hi)).trans hexec)
    (resetDue_of_hostIn hq.2) _

/-- Then the caller acts on the response: the host state follows an `Ok` and nothing else (R216, R235). -/
theorem presenting_answered (p : Params) {y : System} {a : Activity} {i : Instr} {t : State} {r : Response}
    (h : y.activity a.caller = none) (hl : y.host.lock = none) (hq : y.engine.acceptsQuietly)
    (hw : y.engine.waiting = []) (hi : i.wellFormed = true)
    (hexec : exec i (y.engine.serve ⟨callerRequester a.caller, encode i⟩ []) = .next t)
    (hresp : t.responses = y.engine.responses ++ [r]) (hwho : r.who = callerRequester a.caller) (e : Effect) :
    (y.presenting a i e).run p [.engine, .caller a.caller] =
      if r.status = .ok then
        ({ y with host := e.act p y.host, engine := t } : System).withCall (a.succeed e r)
      else ({ y with engine := t } : System).withCall (a.fail (.answered r.status)) := by
  have hz : (y.locked a.caller t).activity (y.awaiting a e).caller = none := h
  have hreceive : ((y.locked a.caller t).withCall (y.awaiting a e)).move p (.caller a.caller)
      = ((y.locked a.caller t).withCall (y.awaiting a e)).receive p (y.awaiting a e) e r :=
    (withCall_caller hz p).trans (callerMove_receives p rfl (replyTo_last hresp hwho))
  rw [run_cons, run_cons, run_nil, presenting_engine p hq hw hi hexec e, hreceive]
  split
  · next hok =>
    have hlock : { e.act p y.host with lock := none } = e.act p y.host :=
      unlock_of_free ((act_lock p e y.host).trans hl)
    rw [withCall_receive_ok hz p e hok, System.locked, act_locked, hlock]
    cases e <;> rfl
  · next hfail =>
    rw [withCall_receive_failure hz p e hfail]
    exact congrArg (fun g => ({ y with host := g, engine := t } : System).withCall (a.fail (.answered r.status)))
      (unlock_of_free hl)

/-- The whole exchange of a caller that need not wait: its command is presented, run, and answered by one response. -/
theorem command_exchange (p : Params) {y : System} {a : Activity} {i : Instr} {k : Nat} (hk : a.caller = k)
    (h : y.activity k = none) (hl : y.host.lock = none) (hb : y.host.holdsBack i = false)
    (hq : y.engine.acceptsQuietly) (hw : y.engine.waiting = []) (hi : i.wellFormed = true) (e : Effect) :
    (y.withCall a).present a i e = y.presenting a i e ∧
    ∃ t r, exec i (y.engine.serve ⟨callerRequester k, encode i⟩ []) = .next t ∧
      t.responses = y.engine.responses ++ [r] ∧ r.who = callerRequester k ∧ r.status = t.status.code ∧
      (y.presenting a i e).run p [.engine, .caller k] =
        if r.status = .ok then
          ({ y with host := e.act p y.host, engine := t } : System).withCall (a.succeed e r)
        else ({ y with engine := t } : System).withCall (a.fail (.answered r.status)) := by
  subst hk
  obtain ⟨t, r, hexec, hresp, hwho, hstatus⟩ :=
    exec_responds i (s := y.engine.serve ⟨callerRequester a.caller, encode i⟩ []) hq
  exact ⟨withCall_present h i (blocked_eq_false.mpr ⟨hl, hb⟩) e, t, r, hexec, hresp, hwho, hstatus,
    presenting_answered p h hl hq hw hi hexec hresp hwho e⟩

/-! ### `apply()` (R216) -/

/-- The call of `apply()` before its job is done. -/
def applyCall (k : Nat) (ch : Change) : Activity := ⟨k, [.apply ch], .ready, .answered .ok⟩

/-- Made and moved, it presents one register write of the wanted fields, or waits. -/
theorem apply_presents (p : Params) {y : System} {k : Nat} (h : y.activity k = none) (ch : Change) :
    y.run p [.call k (.apply ch), .caller k] = (y.withCall (applyCall k ch)).present (applyCall k ch)
      (.regwr p.cfgRegAddr (pack p.layout (ch.wanted y.host.settings))) (.update (ch.wanted y.host.settings)) := by
  rw [run_cons, run_cons, run_nil, begin_fresh p h rfl]
  exact withCall_job p h (.apply ch) [] (.answered .ok)

/-- While it waits it does not move. -/
theorem apply_waits (p : Params) {y : System} {k : Nat} (h : y.activity k = none) (ch : Change)
    (hh : y.host.handle = true) (hd : y.host.desynced = true) :
    (y.withCall (applyCall k ch)).move p (.caller k) = y.withCall (applyCall k ch) :=
  (withCall_job p h (.apply ch) [] (.answered .ok)).trans
    (present_blocked (blocked_of_desynced (y := y.withCall (applyCall k ch)) hh hd _ _) _ _)

/-- Settles O50: the call presents its command or waits for the CHIPRST; presented, it is run, received and answered. -/
theorem applyUpdatesOnlyOnOk : Obligations.ApplyUpdatesOnlyOnOk := by
  intro y p k ch hk hl hq hw wanted i
  have hpresents := apply_presents p hk ch
  split
  · next hout =>
    obtain ⟨hh, hd⟩ := hout
    rw [present_blocked (blocked_of_desynced (y := y.withCall (applyCall k ch)) hh hd _ _)] at hpresents
    rw [hpresents]
    exact ⟨rfl, rfl, rfl, apply_waits p hk ch hh hd⟩
  · next hin =>
    obtain ⟨hpresenting, t, r, hexec, hresp, hwho, hstatus, hanswered⟩ :=
      command_exchange p (k := k) (a := applyCall k ch) rfl hk hl (holdsBack_eq_false hin i) hq hw rfl (.update wanted)
    have hrun : y.run p [.call k (.apply ch), .caller k, .engine, .caller k, .caller k]
        = ((y.presenting (applyCall k ch) i (.update wanted)).run p [.engine, .caller k]).move p (.caller k) :=
      congrArg (fun w : System => w.run p [.engine, .caller k, .caller k]) (hpresents.trans hpresenting)
    refine ⟨t, r, hexec, hresp, hwho, hstatus, ?_⟩
    rw [hrun, hanswered]
    by_cases hok : r.status = .ok
    · rw [if_pos hok, if_pos hok, hok, show (applyCall k ch).succeed (.update wanted) r = ⟨k, [], .ready, .answered .ok⟩
        from rfl, withCall_answering p hk]
      exact ⟨rfl, rfl, rfl, rfl⟩
    · rw [if_neg hok, if_neg hok, show (applyCall k ch).fail (.answered r.status) = ⟨k, [], .ready, .answered r.status⟩
        from rfl, withCall_answering p hk]
      exact ⟨rfl, rfl, rfl, rfl⟩

end Sys2Proof.Facade
end

section
/-! `read_channel` in the extended variant: the switch, the settle period and the latest sample
(44_host_config_and_sampling.md R219, R235, 70_reset_and_hazards.md R296). -/

namespace Sys2Proof.Facade

open Sys2Proof.Machine

/-! ### The latest sample -/

/-- The answer from the latest published sample (R235). -/
def HostState.latestAnswer (h : HostState) : Answer :=
  match h.latest with
  | none => .rejected .busy
  | some x => .sample x

/-- The last job of the call, with no other left, makes it the reply. -/
theorem doJob_giveLatest (p : Params) (y : System) (k : Nat) (reply : Answer) :
    y.doJob p ⟨k, [.giveLatest], .ready, reply⟩ .giveLatest = y.put ⟨k, [], .ready, y.host.latestAnswer⟩ := by
  simp only [System.doJob, HostState.latestAnswer]
  cases y.host.latest <;> rfl

/-- A call that was in progress before ends with it. -/
theorem giveLatest_answers (p : Params) {y : System} {k : Nat} {reply : Answer}
    (h : y.activity k = some ⟨k, [.giveLatest], .ready, reply⟩) :
    (y.run p [.caller k, .caller k]).answers = y.answers ++ [(k, y.host.latestAnswer)] := by
  have hgive : y.move p (.caller k) = y.put ⟨k, [], .ready, y.host.latestAnswer⟩ :=
    (move_caller p h).trans (doJob_giveLatest p y k reply)
  have hready : (y.put ⟨k, [], .ready, y.host.latestAnswer⟩).activity k = some ⟨k, [], .ready, y.host.latestAnswer⟩ :=
    put_activity_self (a := ⟨k, [], .ready, y.host.latestAnswer⟩) h
  rw [run_cons, run_cons, run_nil, hgive, move_caller p hready]
  rfl

/-- So does the call that came last, and the system is then as before it but for the answer. -/
theorem withCall_giveLatest (p : Params) {y : System} {k : Nat} (h : y.activity k = none) (reply : Answer) :
    (y.withCall ⟨k, [.giveLatest], .ready, reply⟩).run p [.caller k, .caller k]
      = { y with answers := y.answers ++ [(k, y.host.latestAnswer)] } := by
  have hgive : (y.withCall ⟨k, [.giveLatest], .ready, reply⟩).move p (.caller k)
      = y.withCall ⟨k, [], .ready, y.host.latestAnswer⟩ :=
    (withCall_job p h .giveLatest [] reply).trans
      ((doJob_giveLatest p _ k reply).trans (withCall_put (a := ⟨k, [.giveLatest], .ready, reply⟩) h rfl))
  rw [run_cons, run_cons, run_nil, hgive]
  exact withCall_answering p h y.host y.engine _

/-! ### The switch -/

/-- The call of `read_channel` in the extended variant. -/
def readChannelCall (k : Nat) (c : BitVec 2) : Activity := ⟨k, [.switchChannel c, .giveLatest], .ready, .answered .ok⟩

theorem readChannel_begins {p : Params} (hv : p.variant = .extended) {y : System} {k : Nat} (h : y.activity k = none)
    (c : BitVec 2) : y.move p (.call k (.readChannel c)) = y.withCall (readChannelCall k c) := by
  have hjobs : Call.jobs p y.host (.readChannel c) = [.switchChannel c, .giveLatest] :=
    congrArg (fun j => [Job.switchChannel c, j]) (if_pos hv)
  rw [begin_fresh p h rfl, hjobs]
  rfl

/-- The channel configured already needs no switch. -/
theorem switchChannel_same (p : Params) {y : System} {k : Nat} (h : y.activity k = none) (hl : y.host.lock = none)
    {c : BitVec 2} (hc : c = y.host.settings.channel) : (y.withCall (readChannelCall k c)).move p (.caller k)
      = y.withCall ⟨k, [.giveLatest], .ready, .answered .ok⟩ := by
  have hfree : ¬ y.host.lock.isSome = true := by simp [hl]
  exact (withCall_job p h (.switchChannel c) [.giveLatest] (.answered .ok)).trans
    ((if_neg hfree).trans ((if_pos hc).trans (withCall_put (a := readChannelCall k c) h rfl)))

/-- Another channel is sent in the register write of `apply()`, or the call waits. -/
theorem switchChannel_presents (p : Params) {y : System} {k : Nat} (h : y.activity k = none) (hl : y.host.lock = none)
    {c : BitVec 2} (hc : c ≠ y.host.settings.channel) : (y.withCall (readChannelCall k c)).move p (.caller k)
      = (y.withCall (readChannelCall k c)).present (readChannelCall k c)
        (.regwr p.cfgRegAddr (pack p.layout { y.host.settings with channel := c }))
        (.switch { y.host.settings with channel := c }) := by
  have hfree : ¬ y.host.lock.isSome = true := by simp [hl]
  exact (withCall_job p h (.switchChannel c) [.giveLatest] (.answered .ok)).trans ((if_neg hfree).trans (if_neg hc))

/-! ### The settle period -/

/-- A call asleep before its wake does not move. -/
theorem callerMove_asleep (p : Params) {y : System} {a : Activity} {wake : Nat} (hp : a.place = .asleep wake)
    (h : y.engine.now < wake) : y.callerMove p a = y := by
  unfold System.callerMove
  simp only [hp, if_neg (Nat.not_le.mpr h)]

/-- At its wake it goes on. -/
theorem callerMove_wakes (p : Params) {y : System} {a : Activity} {wake : Nat} (hp : a.place = .asleep wake)
    (h : wake ≤ y.engine.now) : y.callerMove p a = y.put a.next := by
  unfold System.callerMove
  simp only [hp, if_pos h]

/-- The settle period begins: the call sleeps for `T_SETTLE`. -/
theorem withCall_settle (p : Params) {y : System} {k : Nat} (h : y.activity k = none) (g : HostState) (s : State)
    (js : List Job) (reply : Answer) :
    (({ y with host := g, engine := s } : System).withCall ⟨k, .settle :: js, .ready, reply⟩).move p (.caller k)
      = ({ y with host := g, engine := s } : System).withCall ⟨k, .settle :: js, .asleep (s.now + p.tSettle), reply⟩ :=
  (withCall_job p (y := { y with host := g, engine := s }) h .settle js reply).trans
    (withCall_put (y := { y with host := g, engine := s }) (a := ⟨k, .settle :: js, .ready, reply⟩) h rfl)

/-- After it the call answers the latest sample published by then. -/
theorem settled_answers (p : Params) {y : System} {k wake : Nat} {reply : Answer}
    (h : y.activity k = some ⟨k, [.settle, .giveLatest], .asleep wake, reply⟩) (hwake : wake ≤ y.engine.now) :
    (y.run p [.caller k, .caller k, .caller k]).answers = y.answers ++ [(k, y.host.latestAnswer)] := by
  have hwakes : y.move p (.caller k) = y.put ⟨k, [.giveLatest], .ready, reply⟩ :=
    (move_caller p h).trans (callerMove_wakes p rfl hwake)
  rw [run_cons, hwakes]
  exact giveLatest_answers p (put_activity_self (a := ⟨k, [.giveLatest], .ready, reply⟩) h)

/-! ### The obligation -/

/-- Settles O58: the switch compares the channel and then presents, waits, or has nothing to do; the latest sample is the
answer, after a settle period when there was a switch. -/
theorem readChannelAnswersTheLatestSample : Obligations.ReadChannelAnswersTheLatestSample := by
  intro y p k latest
  refine ⟨fun c hv hk hl hc => ?_, ?_, ?_, fun wake reply h => ⟨fun hnow => ?_, fun hnow => ?_⟩⟩
  · rw [run_cons, run_cons, readChannel_begins hv hk, switchChannel_same p hk hl hc]
    exact withCall_giveLatest p hk _
  · intro c hv hk hl hc hin hq hw wanted i w z
    obtain ⟨hpresenting, t, r, hexec, hresp, -, hstatus, hanswered⟩ :=
      command_exchange p (k := k) (a := readChannelCall k c) rfl hk hl (holdsBack_eq_false hin i) hq hw rfl (.switch wanted)
    have hpresented : w = y.presenting (readChannelCall k c) i (.switch wanted) :=
      (congrArg (System.move p · (.caller k)) (readChannel_begins hv hk c)).trans
        ((switchChannel_presents p hk hl hc).trans hpresenting)
    have hz : z = ((y.presenting (readChannelCall k c) i (.switch wanted)).run p [.engine, .caller k]).move p (.caller k) :=
      congrArg (fun w : System => w.run p [.engine, .caller k, .caller k]) hpresented
    refine ⟨congrArg System.engine hpresented, t, r, hexec, hresp, hstatus, ?_⟩
    rw [hz, hanswered]
    by_cases hok : r.status = .ok
    · rw [if_pos hok, if_pos hok, show (readChannelCall k c).succeed (.switch wanted) r
        = ⟨k, [.settle, .giveLatest], .ready, .answered .ok⟩ from rfl, withCall_settle p hk]
      exact ⟨rfl, rfl, rfl, withCall_activity
        (a := ⟨k, [.settle, .giveLatest], .asleep (t.now + p.tSettle), .answered .ok⟩) hk⟩
    · rw [if_neg hok, if_neg hok, show (readChannelCall k c).fail (.answered r.status)
        = ⟨k, [], .ready, .answered r.status⟩ from rfl, withCall_answering p hk]
      exact ⟨rfl, rfl, rfl, rfl⟩
  · intro c hv hk hl hc hh hd w
    have hstays : (y.withCall (readChannelCall k c)).move p (.caller k) = y.withCall (readChannelCall k c) :=
      (switchChannel_presents p hk hl hc).trans
        (present_blocked (blocked_of_desynced (y := y.withCall (readChannelCall k c)) hh hd _ _) _ _)
    have hwaits : w = y.withCall (readChannelCall k c) :=
      (congrArg (System.move p · (.caller k)) (readChannel_begins hv hk c)).trans hstays
    rw [hwaits]
    exact ⟨rfl, rfl, rfl, hstays⟩
  · rw [move_caller p h, callerMove_asleep p rfl hnow]
  · exact settled_answers p h hnow

end Sys2Proof.Facade
end

section
/-! The background task in its loop, and the detach that waits for its exit (44_host_config_and_sampling.md R224 to R228,
R230, R232, 95_test_vectors.md S8). -/

namespace Sys2Proof.Facade

open Sys2Proof.Machine

/-! ### One move of the task -/

/-- At the head of the loop a stop request ends the task. -/
theorem taskMove_stops (p : Params) {y : System} (ht : y.host.task = .testing) (hs : y.host.stop = true) :
    y.taskMove p = { y with host := { y.host with task := .exited } } := by
  unfold System.taskMove
  simp only [ht, hs, if_true]

/-- Running and not stopped it goes to sleep for the interval. -/
theorem taskMove_sleeps (p : Params) {y : System} (ht : y.host.task = .testing) (hs : y.host.stop = false)
    (hr : y.host.running = true) : y.taskMove p =
      { y with host := { y.host with task := .sleeping (y.engine.now + loopInterval y.host.settings.speed) } } := by
  unfold System.taskMove
  simp only [ht, hs, hr, Bool.false_eq_true, if_false, if_true]

theorem taskMove_asleep (p : Params) {y : System} {wake : Nat} (ht : y.host.task = .sleeping wake)
    (h : y.engine.now < wake) : y.taskMove p = y := by
  unfold System.taskMove
  simp only [ht, if_neg (Nat.not_le.mpr h)]

/-- The interval over, it presents its RAWRD. -/
theorem taskMove_presents (p : Params) {y : System} {wake : Nat} (ht : y.host.task = .sleeping wake)
    (h : wake ≤ y.engine.now) : y.taskMove p =
      { y with
        host := { y.host with task := .reading y.engine.responses.length }
        engine := y.engine.hostAct (.present ⟨taskRequester, encode .rawrd⟩) } := by
  unfold System.taskMove
  simp only [ht, if_pos h]

/-- The pause over, it is at the head of the loop again. -/
theorem taskMove_unpauses (p : Params) {y : System} {wake : Nat} (ht : y.host.task = .paused wake)
    (h : wake ≤ y.engine.now) : y.taskMove p = { y with host := { y.host with task := .testing } } := by
  unfold System.taskMove
  simp only [ht, if_pos h]

/-- With the response there and the lock free, it publishes the sample of an `Ok`, nothing otherwise, and goes on. -/
theorem taskMove_receives (p : Params) {y : System} {since : Nat} {r : Response} (ht : y.host.task = .reading since)
    (hr : replyTo y.engine since taskRequester = some r) (hl : y.host.lock = none) : y.taskMove p =
      { y with host := { (if r.status = .ok then y.host.publish r.value.toInt else y.host) with task := .testing } } := by
  unfold System.taskMove
  have hfree : ¬ y.host.lock.isSome = true := by simp [hl]
  simp only [ht, hr, if_neg hfree]
  split <;> rfl

/-! ### One turn of the loop (R225, R226) -/

/-- `y` with the engine in the state `s` and the task where `t` says. -/
def System.atTask (y : System) (t : Task) (s : State) : System :=
  { y with host := { y.host with task := t }, engine := s }

/-- The task of `y` back at the head of the loop. -/
theorem atTask_testing {y : System} (ht : y.host.task = .testing) (s : State) :
    y.atTask .testing s = { y with engine := s } :=
  congrArg (fun g => ({ y with host := g, engine := s } : System)) (withTask_self ht)

/-- From its sleep on: the interval passes, the task presents RAWRD, the engine answers it, and the sample of an `Ok` is
published. -/
theorem loop_turn_from_sleep (p : Params) {y : System} (ht : y.host.task = .testing) (hl : y.host.lock = none)
    (hq : y.engine.acceptsQuietly) (hw : y.engine.waiting = []) {rest : Nat} {t : State} {r : Response}
    (hexec : exec .rawrd ((y.engine.hostAct (.pass rest)).serve ⟨taskRequester, encode .rawrd⟩ []) = .next t)
    (hresp : t.responses = y.engine.responses ++ [r]) (hwho : r.who = taskRequester) :
    (y.atTask (.sleeping (y.engine.now + rest)) y.engine).run p [.pass rest, .task, .engine, .task] =
      { y with host := if r.status = .ok then y.host.publish r.value.toInt else y.host, engine := t } := by
  have hpass : (y.atTask (.sleeping (y.engine.now + rest)) y.engine).move p (.pass rest)
      = y.atTask (.sleeping (y.engine.now + rest)) (y.engine.hostAct (.pass rest)) := rfl
  have hpresent : (y.atTask (.sleeping (y.engine.now + rest)) (y.engine.hostAct (.pass rest))).move p .task
      = y.atTask (.reading y.engine.responses.length)
          ((y.engine.hostAct (.pass rest)).hostAct (.present ⟨taskRequester, encode .rawrd⟩)) :=
    taskMove_presents p (y := y.atTask (.sleeping (y.engine.now + rest)) (y.engine.hostAct (.pass rest))) rfl
      (Nat.le_refl (y.engine.now + rest))
  have hstep : step ((y.engine.hostAct (.pass rest)).hostAct (.present ⟨taskRequester, encode .rawrd⟩)) = .next t :=
    (step_presented (s := y.engine.hostAct (.pass rest)) hq hw ⟨taskRequester, encode .rawrd⟩ (decode_encode rfl)).trans
      hexec
  have hengine : (y.atTask (.reading y.engine.responses.length)
        ((y.engine.hostAct (.pass rest)).hostAct (.present ⟨taskRequester, encode .rawrd⟩))).move p .engine
      = y.atTask (.reading y.engine.responses.length) t :=
    engineMove_eq p (y := y.atTask (.reading y.engine.responses.length) _) hstep (resetDue_of_hostIn hq.2)
  have hreceive : (y.atTask (.reading y.engine.responses.length) t).move p .task
      = { y with host := if r.status = .ok then y.host.publish r.value.toInt else y.host, engine := t } := by
    refine (taskMove_receives p (y := y.atTask (.reading y.engine.responses.length) t) rfl
      (replyTo_last hresp hwho) hl).trans ?_
    split
    · exact congrArg (fun g => ({ y with host := g, engine := t } : System))
        (withTask_self (h := y.host.publish r.value.toInt) ht)
    · exact atTask_testing ht t
  rw [run_cons, hpass, run_cons, hpresent, run_cons, hengine, run_cons, run_nil, hreceive]

/-- Settles O57: the interval by its arithmetic, the sleep, and the turn move by move. -/
theorem loopTurnPublishesOnOk : Obligations.LoopTurnPublishesOnOk := by
  refine ⟨by decide, fun y p wake ht hnow => taskMove_asleep p ht hnow, ?_⟩
  intro y p ht hs hr hl hq hw rest s z
  have hsleeps : y.move p .task = y.atTask (.sleeping (y.engine.now + rest)) y.engine := taskMove_sleeps p ht hs hr
  obtain ⟨t, r, hexec, hresp, hwho, hstatus⟩ :=
    exec_responds .rawrd (s := s.serve ⟨taskRequester, encode .rawrd⟩ []) hq
  have hz : z = { y with host := if r.status = .ok then y.host.publish r.value.toInt else y.host, engine := t } :=
    (congrArg (fun w : System => w.run p [.pass rest, .task, .engine, .task]) hsleeps).trans
      (loop_turn_from_sleep p ht hl hq hw hexec hresp hwho)
  rw [hz]
  exact ⟨hsleeps, t, r, hexec, hresp, hstatus, rfl, rfl, rfl⟩

/-! ### Detach (R232) -/

/-- A call that waits for the task's exit waits as long as the task runs. -/
theorem awaitExit_waits (p : Params) {y : System} {k : Nat} {js : List Job} {reply : Answer}
    (h : y.activity k = some ⟨k, .awaitExit :: js, .ready, reply⟩) (ht : y.host.task.ended = false) :
    y.move p (.caller k) = y :=
  (move_caller p h).trans (if_neg (ne_true_of_eq_false ht))

/-- The last step of an attach starts the task only when the handle exists and no stop is requested (log 43). -/
theorem startLoop_host (p : Params) {y : System} {k : Nat} {js : List Job} {reply : Answer}
    (h : y.activity k = some ⟨k, .startLoop :: js, .ready, reply⟩) : (y.move p (.caller k)).host =
      if y.host.handle = true ∧ y.host.stop = false then { y.host with task := .testing } else y.host := by
  have hif : (y.host.handle && !y.host.stop) = true ↔ y.host.handle = true ∧ y.host.stop = false := by simp
  rw [move_caller p h, callerMove_job]
  simp only [System.doJob, hif]
  split <;> rfl

/-- A detach that waits for the task's exit. -/
def detachCall (k : Nat) : Activity := ⟨k, [.awaitExit, .command .detach .destroyHandle], .ready, .answered .ok⟩

/-- `y` with the stop requested. -/
def System.stopping (y : System) : System := { y with host := { y.host with stop := true } }

/-- Made while the task runs, `remove` requests the stop. -/
theorem remove_requestsStop (p : Params) {y : System} {k : Nat} (h : y.activity k = none)
    (ht : y.host.task.ended = false) :
    y.run p [.call k .remove, .caller k] = y.stopping.withCall (detachCall k) := by
  have hrej : Call.rejection y.host .remove = none := by simp [Call.rejection, ht]
  rw [run_cons, run_cons, run_nil, begin_fresh p h hrej]
  exact (withCall_job p h .requestStop [.awaitExit, .command .detach .destroyHandle] (.answered .ok)).trans
    (withCall_put (y := y.stopping)
      (a := ⟨k, [.requestStop, .awaitExit, .command .detach .destroyHandle], .ready, .answered .ok⟩) h rfl)

/-- The paused task sees the request when it wakes: at the head of the loop in its first move, it exits in its second. -/
theorem paused_task_exits (p : Params) {y : System} {wake : Nat} {s : State} (ht : y.host.task = .paused wake)
    (hs : wake ≤ s.now) (a : Activity) :
    (({ y.stopping with engine := s } : System).withCall a).run p [.task, .task]
      = (y.stopping.atTask .exited s).withCall a := by
  have hunpauses : (({ y.stopping with engine := s } : System).withCall a).move p .task
      = (y.stopping.atTask .testing s).withCall a :=
    taskMove_unpauses p (y := ({ y.stopping with engine := s } : System).withCall a) ht hs
  rw [run_cons, run_cons, run_nil, hunpauses]
  exact taskMove_stops p (y := (y.stopping.atTask .testing s).withCall a) rfl rfl

/-- With the task ended the detach presents DETACH, which succeeds on an idle engine; the handle goes, and the call
answers. -/
theorem detach_completes (p : Params) {y : System} {k : Nat} (h : y.activity k = none) (ht : y.host.task.ended = true)
    (hl : y.host.lock = none) (hq : y.engine.idleQuiet) (hw : y.engine.waiting = []) :
    ∃ t, t.eng = .detached ∧ t.pins.drive = false ∧
      (y.withCall (detachCall k)).run p [.caller k, .caller k, .engine, .caller k, .caller k]
        = { y with host := y.host.destroyHandle p, engine := t, answers := y.answers ++ [(k, .answered .ok)] } := by
  have hexits : (y.withCall (detachCall k)).move p (.caller k)
      = y.withCall ⟨k, [.command .detach .destroyHandle], .ready, .answered .ok⟩ :=
    (withCall_job p h .awaitExit [.command .detach .destroyHandle] (.answered .ok)).trans
      ((if_pos ht).trans (withCall_put (a := detachCall k) h rfl))
  have hback : y.host.holdsBack .detach = false := by simp [HostState.holdsBack]
  obtain ⟨hpresenting, t, r, hexec, hresp, -, hstatus, hanswered⟩ :=
    command_exchange p (k := k) (a := ⟨k, [.command .detach .destroyHandle], .ready, .answered .ok⟩) rfl h hl hback
      hq.acceptsQuietly hw rfl .destroyHandle
  obtain ⟨t', hexec', ⟨hcode, -, -⟩, heng, -, -, -, -, -, hpins, -⟩ :=
    detachReleasesThePins (y.engine.serve ⟨callerRequester k, encode .detach⟩ []) hq
  cases hexec.symm.trans hexec'
  have hok : r.status = .ok := by rw [hstatus, hcode]
  have hpresents : (y.withCall ⟨k, [.command .detach .destroyHandle], .ready, .answered .ok⟩).move p (.caller k)
      = y.presenting ⟨k, [.command .detach .destroyHandle], .ready, .answered .ok⟩ .detach .destroyHandle :=
    (withCall_job p h (.command .detach .destroyHandle) [] (.answered .ok)).trans hpresenting
  refine ⟨t, heng, by rw [hpins], ?_⟩
  rw [run_cons, hexits, run_cons, hpresents]
  refine (congrArg (System.move p · (.caller k)) (hanswered.trans (if_pos hok))).trans ?_
  exact withCall_answering p h (y.host.destroyHandle p) t (.answered .ok)

/-- Settles O59: the waiting, the last step of an attach, and the detach of a paused loop from the request to the answer. -/
theorem detachWaitsForTheLoop : Obligations.DetachWaitsForTheLoop := by
  refine ⟨fun y p k rest reply h ht => awaitExit_waits p h ht, fun y p k rest reply h => startLoop_host p h, ?_⟩
  intro y p k wake hk ht hl hq hwait w z
  have hruns : y.host.task.ended = false := by rw [ht]; rfl
  have hwake : wake ≤ (y.engine.hostAct (.pass (wake - y.engine.now))).now :=
    show wake ≤ y.engine.now + (wake - y.engine.now) by omega
  have hwaits : w = y.stopping.withCall (detachCall k) :=
    (congrArg (System.move p · (.caller k)) (remove_requestsStop p hk hruns)).trans
      (awaitExit_waits p (withCall_activity (y := y.stopping) (a := detachCall k) hk) hruns)
  obtain ⟨t, heng, hpins, hdone⟩ := detach_completes p
    (y := y.stopping.atTask .exited (y.engine.hostAct (.pass (wake - y.engine.now)))) hk rfl hl hq hwait
  have hrun : z = ((y.stopping.atTask .exited (y.engine.hostAct (.pass (wake - y.engine.now)))).withCall
      (detachCall k)).run p [.caller k, .caller k, .engine, .caller k, .caller k] :=
    (congrArg (fun w : System => w.run p
        [.pass (wake - y.engine.now), .task, .task, .caller k, .caller k, .engine, .caller k, .caller k]) hwaits).trans
      (congrArg (fun w : System => w.run p [.caller k, .caller k, .engine, .caller k, .caller k])
        (paused_task_exits p ht hwake (detachCall k)))
  rw [hwaits, hrun, hdone]
  exact ⟨rfl, rfl, heng, hpins, rfl, rfl, rfl⟩

end Sys2Proof.Facade
end

section
/-! What changes the in-memory fields (44_host_config_and_sampling.md R216, R222, R235, 10_state.md R21). -/

namespace Sys2Proof.Facade

open Sys2Proof.Machine

/-- The move is that of a caller that received the `Ok` of its command, and the fields are what that `Ok` brings. -/
def ReceivedOk (p : Params) (y z : System) (a : Activity) (k : Nat) : Prop :=
  ∃ since e r, a.place = .awaiting since e ∧ replyTo y.engine since (callerRequester k) = some r ∧ r.status = .ok ∧
    z.host.settings = (e.act p y.host).settings

/-- The move is that of a caller that loads the configuration. -/
def Loaded (p : Params) (z : System) (a : Activity) : Prop :=
  ∃ q rest, a.jobs = .load q :: rest ∧ a.place = .ready ∧ z.host.settings = q.settings p.defaults

/-- A caller's move keeps the fields, receives an `Ok`, loads them, or is the engine reset of an attach. -/
theorem callerMove_settings (p : Params) (y : System) (a : Activity) :
    (y.callerMove p a).host.settings = y.host.settings ∨ ReceivedOk p y (y.callerMove p a) a a.caller ∨
      Loaded p (y.callerMove p a) a ∨
      (a.place = .ready ∧ a.jobs.head? = some .engineReset ∧ y.host.handle = false) := by
  cases hp : a.place with
  | awaiting since e =>
    cases hr : replyTo y.engine since (callerRequester a.caller) with
    | none => exact .inl (by rw [callerMove_waits p hp hr])
    | some r =>
      by_cases hok : r.status = .ok
      · refine .inr (.inl ⟨since, e, r, hp, hr, hok, ?_⟩)
        rw [callerMove_receives p hp hr, receive_host, if_pos hok]
      · exact .inl (by rw [callerMove_receives p hp hr, receive_host, if_neg hok])
  | asleep wake =>
    refine .inl ?_
    rcases Nat.lt_or_ge y.engine.now wake with hnow | hnow
    · rw [callerMove_asleep p hp hnow]
    · rw [callerMove_wakes p hp hnow, put_host]
  | ready =>
    cases hj : a.jobs with
    | nil =>
      refine .inl ?_
      simp only [System.callerMove, hp, hj]
    | cons j js =>
      have hmove : y.callerMove p a = y.doJob p a j := by simp only [System.callerMove, hp, hj]
      rw [hmove]
      rcases doJob_settings p y a j with hsame | ⟨q, rfl, hload⟩ | ⟨rfl, hhandle, -⟩
      · exact .inl hsame
      · exact .inr (.inr (.inl ⟨q, js, hj, hp, hload⟩))
      · exact .inr (.inr (.inr ⟨rfl, rfl, hhandle⟩))

/-- A call that begins changes nothing of the host. -/
theorem begin_host (p : Params) (y : System) (k : Nat) (c : Call) : (y.begin p k c).host = y.host := by
  unfold System.begin
  split
  · rfl
  · split <;> rfl

/-- The engine's move changes nothing of the host when no engine reset lands. -/
theorem engineMove_host (p : Params) {y : System} (hr : resetDue y.engine = false) :
    (y.engineMove p).host = y.host := by
  unfold System.engineMove
  rw [hr]
  split <;> rfl

/-- A move that is no engine reset changes the fields only as a caller's that received an `Ok` or loads them. -/
theorem move_settings (p : Params) {y : System} {m : Move} (hs : y.strikes m = false)
    (hne : (y.move p m).host.settings ≠ y.host.settings) :
    ∃ k a, m = .caller k ∧ y.activity k = some a ∧ (ReceivedOk p y (y.move p m) a k ∨ Loaded p (y.move p m) a) := by
  cases m with
  | call k c => exact absurd (congrArg HostState.settings (begin_host p y k c)) hne
  | caller k =>
    cases ha : y.activity k with
    | none => exact absurd (by rw [move_caller_none p ha]) hne
    | some a =>
      obtain rfl := activity_caller ha
      rw [move_caller p ha] at hne ⊢
      rcases callerMove_settings p y a with hsame | hok | hload | ⟨hp, hj, hh⟩
      · exact absurd hsame hne
      · exact ⟨_, a, rfl, ha, .inl hok⟩
      · exact ⟨_, a, rfl, ha, .inr hload⟩
      · simp [System.strikes, ha, hp, hj, hh] at hs
  | task =>
    obtain ⟨hsame, -⟩ := taskMove_frame p y
    exact absurd hsame hne
  | engine => exact absurd (congrArg HostState.settings (engineMove_host p hs)) hne
  | pass ticks => exact absurd rfl hne
  | engineReset => cases hs

/-- An engine reset leaves no handle and the default fields (log 44). -/
theorem move_struck_host (p : Params) {y : System} {m : Move} (hs : y.strikes m = true) :
    (y.move p m).host = y.host.struck p (decide (y.engine.eng = .busy)) := by
  obtain ⟨t, -, hmove | ⟨a, -, -, hmove⟩⟩ := move_strikes p hs <;> rw [hmove] <;> rfl

/-- Settles O56, by whether the move is an engine reset. -/
theorem configurationChangesOnlyOnOk : Obligations.ConfigurationChangesOnlyOnOk := by
  intro y p m hne
  cases hs : y.strikes m with
  | true =>
    have hhost := move_struck_host p hs
    exact .inr ⟨rfl, congrArg HostState.handle hhost, congrArg HostState.settings hhost⟩
  | false => exact .inl (move_settings p hs hne)

end Sys2Proof.Facade
end

section
/-! How commands fail (60_exceptions.md R252, R255, R256): which status the tests of `PH_CHECK` give, and what a failure
leaves as it was. -/

namespace Sys2Proof.Machine

/-! ### The status of a refused command (60_exceptions.md R252) -/

/-- A Device Handle is missing only to a well-formed command other than ATTACH. -/
theorem verdictOf_resourceUnavailable {i : Instr} {s : State} :
    verdictOf i s = some .resourceUnavailable ↔ i.wellFormed = true ∧ i ≠ .attach ∧ s.eng = .detached := by
  have hformat (b : Bool) : checkFormat b ≠ some .resourceUnavailable := by cases b <;> simp [checkFormat]
  have hpoll : checkPoll s ≠ some .resourceUnavailable := by unfold checkPoll; split <;> simp
  have hwidth : checkWidth s ≠ some .resourceUnavailable := by unfold checkWidth; split <;> simp
  have haddr (reg : Byte) : checkAddress s reg ≠ some .resourceUnavailable := by unfold checkAddress; split <;> simp
  by_cases heng : s.eng = .detached
  · have hattached : checkAttached s = some .resourceUnavailable := if_pos heng
    have hnot : checkNotAttached s = none := if_pos heng
    cases i with
    | wrbit data =>
      cases hfits : fitsFormatB data <;>
        simp [verdictOf, Instr.wellFormed, firstFailure, checkFormat, hfits, hattached, heng]
    | _ => simp [verdictOf, Instr.wellFormed, firstFailure, hattached, hnot, heng]
  · have hattached : checkAttached s = none := if_neg heng
    have hnot : checkNotAttached s = some .invalidArgument := if_neg heng
    refine ⟨fun hv => ?_, fun ⟨_, _, hdet⟩ => absurd hdet heng⟩
    cases i with
    | _ =>
      have hmem := firstFailure_mem hv
      simp [hattached, hnot, Ne.symm (hformat _), hpoll.symm, hwidth.symm, Ne.symm (haddr _)] at hmem

/-- Every other failure of a test is an `InvalidArgument`. -/
theorem verdictOf_invalidArgument {i : Instr} {s : State} (hfails : ¬ PassesChecks i s)
    (hhandle : ¬ (i.wellFormed = true ∧ i ≠ .attach ∧ s.eng = .detached)) :
    verdictOf i s = some .invalidArgument := by
  cases hv : verdictOf i s with
  | none => exact absurd ((verdictOf_none i s).mp hv) hfails
  | some st =>
    rcases verdictOf_some hv with rfl | rfl
    · rfl
    · exact absurd (verdictOf_resourceUnavailable.mp hv) hhandle

/-- Settles O28: the first test that fails gives the verdict, and the verdict fails the command right after its
acceptance, which touches neither pins nor time. -/
theorem checksRefuseInOrder : Obligations.ChecksRefuseInOrder := by
  intro i s st h hfirst
  have hverdict : verdictOf i s = some st := by
    split_ifs at hfirst with hformat hhandle hattach hpoll hwidth
    · have hill : ¬ i.wellFormed = true := ne_true_of_eq_false hformat
      exact hfirst ▸ verdictOf_invalidArgument (fun ⟨hwf, _⟩ => hill hwf) (fun ⟨hwf, _⟩ => hill hwf)
    · exact hfirst ▸ verdictOf_resourceUnavailable.mpr ⟨Bool.eq_true_of_not_eq_false hformat, hhandle⟩
    · exact hfirst ▸ verdictOf_invalidArgument (fun ⟨_, hiff, _⟩ => hattach.2 (hiff.mp hattach.1))
        (fun ⟨_, hmissing⟩ => hhandle hmissing)
    · exact hfirst ▸ verdictOf_invalidArgument (fun ⟨_, _, hne, _⟩ => hne hpoll.1 hpoll.2)
        (fun ⟨_, hmissing⟩ => hhandle hmissing)
    · obtain ⟨reg, hreg⟩ := Option.isSome_iff_exists.mp hwidth.1
      exact hfirst ▸ verdictOf_invalidArgument (fun ⟨_, _, _, haddr⟩ => hwidth.2 (haddr reg hreg).1)
        (fun ⟨_, hmissing⟩ => hhandle hmissing)
    · obtain ⟨⟨reg, hreg, hillegal⟩, rfl⟩ := hfirst
      exact verdictOf_invalidArgument
        (fun ⟨_, _, _, haddr⟩ => Bool.false_ne_true (hillegal.symm.trans (haddr reg hreg).2))
        (fun ⟨_, hmissing⟩ => hhandle hmissing)
  obtain ⟨hfin, hpins, hshift, hrecn, heng⟩ := fail_finished (Ran.refl (s.opened (encode i))) st
  exact ⟨_, exec_refused h hverdict, hfin.completed, heng, hfin.host, hfin.operands,
    ⟨hfin.result, hrecn, hshift, hpins⟩, rfl, rfl⟩

/-! ### What a failed command showed (60_exceptions.md R256) -/

/-- Nothing but `DIR(in)`, samples and holds. -/
def Harmless (evs : List PinEvent) : Prop :=
  ∀ e ∈ evs, e = .dir .input ∨ (∃ l, e = .smp l) ∨ ∃ n, e = .hold n

theorem harmless_nil : Harmless [] := List.forall_mem_nil _

theorem harmless_smp (l : Level) : Harmless [.smp l] := List.forall_mem_singleton.mpr (.inr (.inl ⟨l, rfl⟩))

theorem Harmless.append {a b : List PinEvent} (ha : Harmless a) (hb : Harmless b) : Harmless (a ++ b) :=
  List.forall_mem_append.mpr ⟨ha, hb⟩

/-- A rising clock edge is none of them. -/
theorem Harmless.pulseCount {evs : List PinEvent} (h : Harmless evs) : pulseCount evs = 0 := by
  refine List.count_eq_zero.mpr fun hmem => ?_
  rcases h _ hmem with hdir | ⟨l, hsmp⟩ | ⟨n, hhold⟩
  · cases hdir
  · cases hsmp
  · cases hhold

theorem harmless_pollSeen (c : ConfigRegs) (k : Nat) : Harmless (pollSeen c k) := by
  refine Harmless.append ?_ fun e he => ?_
  · unfold dirSeen
    split
    · exact List.forall_mem_singleton.mpr (.inl rfl)
    · exact harmless_nil
  · obtain ⟨turn, hturn, he⟩ := List.mem_flatten.mp he
    rw [List.eq_of_mem_replicate hturn] at he
    rcases List.mem_pair.mp he with rfl | rfl
    · exact .inr (.inl ⟨_, rfl⟩)
    · exact .inr (.inr ⟨_, rfl⟩)

/-- A ready-wait finds pins at rest as it leaves them (40_bit_transport.md R133). -/
theorem waitPins_atRest (c : ConfigRegs) {p : Pins} (h : atRest p.clkO p.dataDir = true) : waitPins c p = p := by
  obtain ⟨-, hdir⟩ := (Bool.and_eq_true _ _).mp h
  have hinput : p.dataDir = .input := beq_iff_eq.mp hdir
  unfold waitPins
  rw [hinput, ite_self, ← hinput]

/-- Where a command that fails stands before its completion: its operation began in `s`, got to `u` showing only
`evs`, and left `SHIFT`, `RECN` and pins at rest alone. -/
structure FailsAt (s u : State) (evs : List PinEvent) : Prop where
  ran : ∃ m n mins, Ran s u m n mins evs
  pins : atRest s.pins.clkO s.pins.dataDir = true → u.pins = s.pins
  shift : u.regs.shift = s.regs.shift
  recn : u.regs.recn = s.regs.recn
  harmless : Harmless evs

/-- Nothing that can fail comes after a pulse, or after a write of `RECN` or `SHIFT` (60_exceptions.md R256). -/
theorem exec_fails {i : Instr} {s t : State} (h : s.acceptsQuietly) (hexec : exec i s = .next t)
    (hfail : t.status.code ≠ .ok) :
    ∃ u st evs, t = u.fail st ∧ FailsAt (s.opened (encode i)) u evs := by
  rcases failure_cases h hexec hfail with ⟨st, -, rfl⟩ | ⟨-, rfl⟩ | ⟨hpass, hwaits, k, hexpires⟩ |
    ⟨rfl, hpass, hon, k, hready, hhigh⟩
  · exact ⟨_, st, [], rfl, ⟨_, _, _, .refl _⟩, fun _ => rfl, rfl, rfl, harmless_nil⟩
  · exact ⟨_, _, [], rfl, ⟨_, _, _, ran_grantDrawn _⟩, fun _ => rfl, rfl, rfl, harmless_nil⟩
  · obtain ⟨u, hexec', hran, hpins, hshift, hrecn⟩ := exec_expired h hpass hwaits hexpires
    exact ⟨u, _, _, Host.Outcome.next.inj (hexec.symm.trans hexec'), ⟨_, _, _, hran⟩,
      fun hrest => hpins.trans (waitPins_atRest _ hrest), hshift, hrecn,
      (harmless_pollSeen _ _).append (harmless_smp _)⟩
  · obtain ⟨-, -, hpoll, -⟩ := id hpass
    obtain ⟨u, hexec', hran, hpins, hshift, hrecn⟩ :=
      exec_rawrd_high (h.idleQuiet hpass nofun) (hpoll rfl) hready hon hhigh
    exact ⟨u, _, _, Host.Outcome.next.inj (hexec.symm.trans hexec'), ⟨_, _, _, hran⟩,
      fun hrest => hpins.trans (waitPins_atRest _ hrest), hshift, hrecn,
      (harmless_pollSeen _ _).append ((harmless_smp _).append (harmless_smp _))⟩

/-- Settles O31: what the command did before its failure was harmless, and the failure itself writes none of these. -/
theorem failuresArePrecise : Obligations.FailuresArePrecise := by
  intro i s t h hrest hexec hfail
  obtain ⟨u, st, evs, rfl, hfails⟩ := exec_fails h hexec hfail
  obtain ⟨_, _, _, hran⟩ := hfails.ran
  obtain ⟨hfin, hpins, hshift, hrecn, heng⟩ := fail_finished hran st
  exact ⟨⟨hfin.result, hrecn.trans hfails.recn, hshift.trans hfails.shift, hpins.trans (hfails.pins hrest)⟩, heng, evs,
    hfin.seen, hfails.harmless.pulseCount, hfails.harmless⟩

/-! ### The cause of `Busy` (60_exceptions.md R255) -/

/-- Settles O33: of the four ways to fail only the high re-check gives `Busy`. -/
theorem busyOnlyFromTheRecheck : Obligations.BusyOnlyFromTheRecheck := by
  intro i s t h hexec hbusy
  rcases failure_cases h hexec (by rw [hbusy]; exact Status.noConfusion) with ⟨st, hv, rfl⟩ | ⟨-, rfl⟩ |
    ⟨hpass, hwaits, k, hexpires⟩ | ⟨hi, -, hon, k, hready, hhigh⟩
  · have hst : st = .busy := hbusy
    rcases verdictOf_some hv with rfl | rfl <;> cases hst
  · cases hbusy
  · obtain ⟨u, hexec', -⟩ := exec_expired h hpass hwaits hexpires
    cases hexec.symm.trans hexec'
    cases hbusy
  · exact ⟨hi, hon, k, hready, hhigh⟩

end Sys2Proof.Machine
end

section
/-! What the completion of an undisturbed command writes (60_exceptions.md R254, 30_encoding.md R103). -/

namespace Sys2Proof.Machine

/-! ### The completion of each command -/

/-- What each command completes with when it succeeds. -/
def completionOf : Instr → Completion
  | .rdbit => .bit
  | .rawrd => .sample
  | .regrd _ => .byte
  | .attach => .attached
  | .detach => .detached
  | .wrbit _ | .pulse | .waitrdy | .regwr _ _ | .chiprst => .plain

/-- The three commands that return a value (30_encoding.md R103). -/
def ReturnsValue (i : Instr) : Prop := i = .rdbit ∨ i = .rawrd ∨ ∃ reg, i = .regrd reg

theorem completionValue_of_returnsValue {i : Instr} (h : ReturnsValue i) (u : State) :
    ∃ v, completionValue (completionOf i) u = some v := by
  rcases h with rfl | rfl | ⟨reg, rfl⟩ <;> exact ⟨_, rfl⟩

theorem completionValue_of_not_returnsValue {i : Instr} (h : ¬ ReturnsValue i) (u : State) :
    completionValue (completionOf i) u = none := by
  cases i with
  | rdbit => exact absurd (.inl rfl) h
  | rawrd => exact absurd (.inr (.inl rfl)) h
  | regrd reg => exact absurd (.inr (.inr ⟨reg, rfl⟩)) h
  | wrbit | pulse | waitrdy | regwr | chiprst | attach | detach => rfl

theorem completionRecn_completionOf (i : Instr) (u : State) :
    completionRecn (completionOf i) u = if i = .rawrd then u.regs.recn else 0 := by
  cases i <;> rfl

theorem completionEng_completionOf (i : Instr) (u : State) :
    completionEng (completionOf i) u
      = if i = .attach then .idle else if i = .detach then .detached else u.latch.heldEng := by
  cases i <;> rfl

/-! ### Where a command that succeeds completes -/

/-- Where a command that succeeds stands before its completion: no command but RAWRD has touched `RECN`. -/
structure SucceedsAt (i : Instr) (s u : State) : Prop where
  exec : exec i s = .next (u.succeed (completionOf i))
  ran : ∃ m n mins evs, Ran (s.opened (encode i)) u m n mins evs
  recn : i ≠ .rawrd → u.regs.recn = s.regs.recn

/-- A command whose body is one straight stretch off the datapath. -/
theorem straight_succeedsAt {i : Instr} {s : State} (h : s.acceptsQuietly) (hpass : PassesChecks i s)
    {items : List Item} {q : Seq} (hbody : bodyOf i s.cfg = items ++ [⟨q, .complete (completionOf i)⟩]) {n : Nat}
    (hs : StraightWithin items n) (hn : n < tailBudget) (hspares : ∀ a ∈ actsOf items, a.sparesDatapath = true) :
    ∃ u, SucceedsAt i s u := by
  obtain ⟨hstraight, -⟩ := id hs
  obtain ⟨-, hrecn, -⟩ := doAll_datapath hstraight hspares (s.opened (encode i))
  exact ⟨_, exec_straight h hpass hbody hs hn rfl, ⟨_, _, _, _, ran_doAll hstraight _⟩, fun _ => hrecn⟩

/-- A RAWRD that completes with `Ok` found its re-check low (42_frame_codec.md R163). -/
theorem rawrd_ok_recheck {s t : State} (h : s.idleQuiet) (hpoll : s.cfg.tPoll ≠ 0#32) {k : Nat}
    (hready : s.readyAt k) (hexec : exec .rawrd s = .next t) (hok : t.status.code = .ok)
    (hon : s.cfg.busyRecheck = true) : s.answer (k + 1) = false := by
  by_contra hhigh
  obtain ⟨u, hexec', -⟩ := exec_rawrd_high h hpoll hready hon (Bool.eq_true_of_not_eq_false hhigh)
  cases hexec.symm.trans hexec'
  cases hok

/-- A command that completes with `Ok` has performed its body. -/
theorem exec_succeeds {i : Instr} {s t : State} (h : s.acceptsQuietly) (hexec : exec i s = .next t)
    (hok : t.status.code = .ok) : ∃ u, SucceedsAt i s u := by
  have hpass := ok_passesChecks h hexec hok
  have hready := ok_ready h hexec hok
  have hidle := h.idleQuiet hpass
  obtain ⟨-, -, hpoll, -⟩ := id hpass
  cases i with
  | rdbit => exact straight_succeedsAt h hpass rfl readCell_straightWithin (by decide) (by decide)
  | wrbit data =>
    exact straight_succeedsAt h hpass rfl (writeCells_straightWithin s.cfg .prim [bitOperand data])
      (show 9 < tailBudget by decide) (by simpa [Act.sparesDatapath] using sparesDatapath_writeCell s.cfg (bitOperand data))
  | pulse => exact straight_succeedsAt h hpass rfl (pulses_straightWithin .prim 1) (by decide) (by decide)
  | chiprst =>
    exact straight_succeedsAt h hpass (items := cellAt .reset 0 chiprstActs) rfl ⟨by decide, Nat.le_refl _⟩ (by decide)
      (by decide)
  | detach =>
    exact straight_succeedsAt h hpass (items := cellAt .detach 0 [.release]) rfl ⟨by decide, Nat.le_refl _⟩ (by decide)
      (by decide)
  | attach =>
    cases hg : s.granted with
    | true => exact ⟨_, exec_attach_granted h hpass hg, ⟨_, _, _, _, (attaching_passed h.2 hg).ran⟩, fun _ => rfl⟩
    | false =>
      cases hexec.symm.trans (exec_attach_refused h hpass hg)
      cases hok
  | waitrdy =>
    obtain ⟨k, hk⟩ := hready rfl
    obtain ⟨u, hexec', hran, -, -, hrecn⟩ := exec_waitrdy_ready (hidle nofun) (hpoll rfl) hk
    exact ⟨u, hexec', ⟨_, _, _, _, hran⟩, fun _ => hrecn⟩
  | rawrd =>
    obtain ⟨k, hk⟩ := hready rfl
    have hlow := rawrd_ok_recheck (hidle nofun) (hpoll rfl) hk hexec hok
    obtain ⟨r, hrec⟩ := recovers_exists s (dataStart s k + 24)
    obtain ⟨u, hexec', hran, -⟩ := exec_rawrd (hidle nofun) (hpoll rfl) hk hlow hrec
    exact ⟨u, hexec', ⟨_, _, _, _, hran⟩, fun hne => absurd rfl hne⟩
  | regwr reg data =>
    obtain ⟨k, hk⟩ := hready rfl
    obtain ⟨u, hexec', hran, -, -, hrecn⟩ := exec_regwr (hidle nofun) hpass hk
    exact ⟨u, hexec', ⟨_, _, _, _, hran⟩, fun _ => hrecn⟩
  | regrd reg =>
    obtain ⟨k, hk⟩ := hready rfl
    obtain ⟨u, hexec', hran, -, -, hrecn⟩ := exec_regrd (hidle nofun) hpass hk
    exact ⟨u, hexec', ⟨_, _, _, _, hran⟩, fun _ => hrecn⟩

/-! ### The obligation -/

theorem seq_of_done {t : State} (h : t.todo = []) : t.seq = ⟨.idle, 0, 0⟩ := by
  rw [State.seq, h]

/-- Settles O30: success writes what the completion of the command says, and a failure writes nothing of it. -/
theorem completionWritesResultAndEng : Obligations.CompletionWritesResultAndEng := by
  intro i s t h hexec
  by_cases hok : t.status.code = .ok
  · obtain ⟨u, hexec', ⟨_, _, _, _, hran⟩, hkept⟩ := exec_succeeds h hexec hok
    cases hexec.symm.trans hexec'
    obtain ⟨hfin, -, -, hrecn, heng⟩ := succeed_finished hran (completionOf i)
    refine ⟨_, _, _, hfin.completed, seq_of_done rfl, ?_, ?_, ?_⟩
    · by_cases hret : ReturnsValue i
      · obtain ⟨v, hv⟩ := completionValue_of_returnsValue hret u
        rw [if_pos ⟨rfl, hret⟩, hfin.result, hv]
        rfl
      · rw [if_neg fun hc => hret hc.2, hfin.result, completionValue_of_not_returnsValue hret]
        exact ⟨rfl, rfl⟩
    · rw [completionRecn_completionOf, hrecn]
      by_cases hi : i = .rawrd
      · rw [if_pos ⟨rfl, hi⟩, if_pos hi]
      · rw [if_neg fun hc => hi hc.2, if_neg hi]
        exact ⟨hkept hi, rfl⟩
    · rw [heng, completionEng_completionOf, hran.heldEng]
      simp only [true_and]
      rfl
  · obtain ⟨u, st, evs, rfl, hfails⟩ := exec_fails h hexec hok
    have hst : st ≠ .ok := hok
    obtain ⟨_, _, _, hran⟩ := hfails.ran
    obtain ⟨hfin, -, -, hrecn, heng⟩ := fail_finished hran st
    refine ⟨_, _, _, hfin.completed, seq_of_done rfl, ?_, ?_, ?_⟩
    · rw [if_neg fun hc => hst hc.1]
      exact ⟨hfin.result, rfl⟩
    · rw [if_neg fun hc => hst hc.1]
      exact ⟨hrecn.trans hfails.recn, rfl⟩
    · rw [heng, if_neg fun hc => hst hc.1, if_neg fun hc => hst hc.1]

end Sys2Proof.Machine
end

section
/-! Every step answers, every undisturbed command completes, and the engine reset strikes in any state (60_exceptions.md
R254, 70_reset_and_hazards.md R281, R299). -/

namespace Sys2Proof.Machine

/-- The turn of the engine answers: a running operation goes on, time passes, a command has its meaning, and a reserved
word is rejected. -/
theorem engineTurn_answers (s : State) : ∃ t, engineTurn s = .next t := by
  rcases engineTurn_cases s with ⟨-, h⟩ | ⟨-, -, h⟩ | ⟨-, c, t, -, ⟨i, -, h⟩ | ⟨e, -, h⟩⟩
  · exact ⟨_, h⟩
  · exact ⟨_, h⟩
  · exact ⟨_, h.trans (exec_eq i t)⟩
  · exact ⟨_, h⟩

/-- Settles O8: a step is an action of the host, which answers a state, or the engine's turn. -/
theorem everyStepAnswersNext : Obligations.EveryStepAnswersNext := by
  intro s
  rcases step_cases s with ⟨a, rest, -, h⟩ | ⟨-, h⟩
  · exact ⟨_, h⟩
  · rw [h]
    exact engineTurn_answers s

/-- A completion after a run of the operation's actions finishes the command, with success or failure
(60_exceptions.md R254). -/
theorem CompletedFrom.finished {s u t : State} {w : Word} {m n mins : Nat} {evs : List PinEvent}
    (hc : CompletedFrom u t) (hran : Ran (s.opened w) u m n mins evs) :
    ∃ st v r, Finished s t w st v r evs mins n := by
  rcases hc with ⟨st, rfl⟩ | ⟨c, rfl⟩
  · exact ⟨_, _, _, (fail_finished hran st).1⟩
  · exact ⟨_, _, _, (succeed_finished hran c).1⟩

/-- Settles O29: an undisturbed command ends in a completion, which finishes it and frees the engine. -/
theorem everyOperationEnds : Obligations.EveryOperationEnds := by
  intro i s h
  obtain ⟨u, t, _, _, _, _, hexec, hran, hend⟩ := exec_completes i h
  obtain ⟨st, v, r, hfin⟩ := hend.finished hran
  obtain ⟨-, hfree⟩ := exec_ends h hexec
  exact ⟨t, st, _, r, hexec, hfin.completed, hfree, hfin.host, hfin.operands⟩

/-- With the reset values in the latches, the status and `RECN`, SR0 reads 0 (10_state.md R45). -/
theorem statusWord_engineReset (s : State) : s.engineReset.statusWord = 0 :=
  show State.reset.statusWord = 0 by decide

/-- The engine reset shows as one release of the pins (log 31). -/
theorem seen_engineReset (s : State) : seen s.engineReset.trace = seen s.trace ++ [.release] :=
  (congrArg seen s.engineReset_trace).trans (seen_append _ _)

/-- Settles O44: the reset that lands is the step, and it writes the values of the table whatever the state was. -/
theorem engineResetFromAnyState : Obligations.EngineResetFromAnyState := by
  intro s rest h
  exact ⟨_, step_of_due h, rfl, rfl, rfl, rfl, rfl, rfl, rfl, rfl, rfl, rfl, rfl, rfl, rfl,
    (show 1 ≤ Config.tPollReset.toNat by decide),
    fun _ => statusWord_engineReset _, rfl, seen_engineReset _, rfl, rfl⟩

end Sys2Proof.Machine
end

section
/-! The bring-up (70_reset_and_hazards.md R285, R296, 44_host_config_and_sampling.md R222, R229): the engine reset, the
registers, ATTACH, the power-cycle and the load, each a job of the call that came last. -/

namespace Sys2Proof.Facade

open Sys2Proof.Machine

/-! ### A command of known outcome -/

/-- No caller holds the lock, and the engine would run the command presented next. -/
structure System.Clear (y : System) : Prop where
  lock : y.host.lock = none
  quiet : y.engine.acceptsQuietly
  waiting : y.engine.waiting = []

/-- The exchange of a command whose run is known: what its completion `t` makes of the host and of the call. -/
theorem exchange_of_exec (p : Params) {y : System} {a : Activity} {i : Instr} {k : Nat} {t : State} (hk : a.caller = k)
    (h : y.activity k = none) (hy : y.Clear) (hb : y.host.holdsBack i = false) (hi : i.wellFormed = true)
    (hexec : exec i (y.engine.serve ⟨callerRequester k, encode i⟩ []) = .next t) (e : Effect) :
    (y.withCall a).present a i e = y.presenting a i e ∧
      ∃ r, (y.presenting a i e).run p [.engine, .caller k] =
        if t.status.code = .ok then ({ y with host := e.act p y.host, engine := t } : System).withCall (a.succeed e r)
        else ({ y with engine := t } : System).withCall (a.fail (.answered t.status.code)) := by
  obtain ⟨hpresenting, _, r, hexec', -, -, hstatus, hanswered⟩ :=
    command_exchange p hk h hy.lock hb hy.quiet hy.waiting hi e
  cases hexec.symm.trans hexec'
  exact ⟨hpresenting, r, hstatus ▸ hanswered⟩

/-- `y` after a granted ATTACH that left the engine in the state `t`: the handle exists (10_state.md R21). -/
def System.attached (p : Params) (y : System) (cap : Nat) (t : State) : System :=
  { y with host := y.host.createHandle p cap, engine := t }

/-- An engine reset puts no caller in a call. -/
theorem strike_activity_none (p : Params) {y : System} {k : Nat} (h : y.activity k = none) (t : State) :
    (y.strike p t).activity k = none := by
  rw [strike_activity, h, Option.map_none]

/-! ### The jobs of the bring-up, one by one -/

section
variable (p : Params) {y : System} {k : Nat} (h : y.activity k = none) (js : List Job) (reply : Answer)
include h

/-- Every call is cut, and that of the reset goes on (R285 step 1, R296). -/
theorem withCall_engineReset (hh : y.host.handle = false) :
    (y.withCall ⟨k, .engineReset :: js, .ready, reply⟩).move p (.caller k)
      = (y.strike p (y.engine.hostAct .engineReset)).withCall ⟨k, js, .ready, reply⟩ := by
  refine (withCall_job p h .engineReset js reply).trans ((if_neg (ne_true_of_eq_false hh)).trans ?_)
  rw [withCall_strike]
  exact withCall_put (a := (⟨k, .engineReset :: js, .ready, reply⟩ : Activity).cut) (strike_activity_none p h _) rfl

/-- The registers are written in an engine that takes the writes (R285 step 2). -/
theorem withCall_configure (c : ConfigRegs) (he : y.engine.eng ≠ .busy) :
    (y.withCall ⟨k, .configure c :: js, .ready, reply⟩).move p (.caller k)
      = ({ y with engine := setRegisters y.engine c } : System).withCall ⟨k, js, .ready, reply⟩ := by
  rw [withCall_job p h (.configure c) js reply, System.doJob, withCall_engine, if_neg he]
  generalize setRegisters y.engine c = s
  exact withCall_put (y := { y with engine := s }) (a := ⟨k, .configure c :: js, .ready, reply⟩) h rfl

/-- A power-cycle that is neither asked for nor needed is left out (R285 step 4). -/
theorem withCall_powerCycle_skips {asked : Bool} (hasked : ¬ (asked = true ∨ y.host.desynced = true)) :
    (y.withCall ⟨k, .powerCycle asked :: js, .ready, reply⟩).move p (.caller k)
      = y.withCall ⟨k, js, .ready, reply⟩ :=
  (withCall_job p h (.powerCycle asked) js reply).trans ((if_neg (mt (Bool.or_eq_true _ _).mp hasked)).trans
    (withCall_put (a := ⟨k, .powerCycle asked :: js, .ready, reply⟩) h rfl))

/-- The fields become the properties or the defaults, the engine untouched (R222, R285 step 5). -/
theorem withCall_load (q : Properties) (hl : y.host.lock = none) :
    (y.withCall ⟨k, .load q :: js, .ready, reply⟩).move p (.caller k)
      = ({ y with host := { y.host with settings := q.settings p.defaults } } : System).withCall
          ⟨k, js, .ready, reply⟩ := by
  have hfree : ¬ y.host.lock.isSome = true := by simp [hl]
  exact (withCall_job p h (.load q) js reply).trans ((if_neg hfree).trans
    (withCall_put (y := { y with host := { y.host with settings := q.settings p.defaults } })
      (a := ⟨k, .load q :: js, .ready, reply⟩) h rfl))

/-- ATTACH on a detached engine: granted, the handle is created; refused, the call keeps only what is always done
(R285 step 3, 43_system_ops.md R190). -/
theorem withCall_attach (cap : Nat) (hy : y.Clear) (hdet : y.engine.eng = .detached) :
    ∃ t, t.cfg = y.engine.cfg ∧ t.waiting = [] ∧ t.hostIn = [] ∧
      t.responses.length = y.engine.responses.length + 1 ∧
      t.eng = (if y.engine.granted then .idle else .detached) ∧
      (y.withCall ⟨k, .command .attach (.createHandle cap) :: js, .ready, reply⟩).run p [.caller k, .engine, .caller k]
        = if y.engine.granted then (y.attached p cap t).withCall ⟨k, js, .ready, reply⟩
          else ({ y with engine := t } : System).withCall
            ⟨k, js.filter Job.always, .ready, .answered .resourceUnavailable⟩ := by
  obtain ⟨-, hq⟩ := hy.quiet
  obtain ⟨t, hexec, ⟨hcfg, hwaiting, -, hhostIn, -⟩, -, -, -, -, -, -, hout⟩ :=
    attachTakesThePinsWhenGranted (y.engine.serve ⟨callerRequester k, encode .attach⟩ []) hdet hq
  have hback : y.host.holdsBack .attach = false := by simp [HostState.holdsBack]
  obtain ⟨hpresenting, r, hrun⟩ :=
    exchange_of_exec p (a := ⟨k, .command .attach (.createHandle cap) :: js, .ready, reply⟩) rfl h hy hback rfl hexec
      (.createHandle cap)
  have hpresents := (withCall_job p h (.command .attach (.createHandle cap)) js reply).trans hpresenting
  refine ⟨t, hcfg, hwaiting, hhostIn.trans hq, ?_⟩
  rw [run_cons, hpresents, hrun]
  change if y.engine.granted = true then _ else _ at hout
  cases hg : y.engine.granted with
  | true =>
    rw [hg, if_pos rfl] at hout
    obtain ⟨⟨hstatus, hresp, -⟩, heng, -⟩ := hout
    refine ⟨by simp [hresp], heng, ?_⟩
    rw [hstatus]
    rfl
  | false =>
    rw [hg, if_neg Bool.false_ne_true] at hout
    obtain ⟨⟨hstatus, hresp, -⟩, heng, -⟩ := hout
    refine ⟨by simp [hresp], heng, ?_⟩
    rw [hstatus]
    rfl

/-- The power-cycle on an idle engine presents CHIPRST, which completes with `Ok` and brings the chip in step
(R285 step 4, R296). -/
theorem withCall_powerCycle {asked : Bool} (hasked : asked = true ∨ y.host.desynced = true) (hy : y.Clear)
    (hidle : y.engine.eng = .idle) :
    let b := y.withCall ⟨k, .powerCycle asked :: js, .ready, reply⟩
    (b.move p (.caller k)).engine = y.engine.hostAct (.present ⟨callerRequester k, encode .chiprst⟩) ∧
      ∃ t, exec .chiprst (y.engine.serve ⟨callerRequester k, encode .chiprst⟩ []) = .next t ∧ t.status.code = .ok ∧
        b.run p [.caller k, .engine, .caller k]
          = ({ y with host := { y.host with desynced := false }, engine := t } : System).withCall
              ⟨k, js, .ready, reply⟩ := by
  intro b
  obtain ⟨-, hq⟩ := hy.quiet
  obtain ⟨t, hexec, ⟨hstatus, -⟩, -⟩ :=
    chiprstIsOneLongPulse (y.engine.serve ⟨callerRequester k, encode .chiprst⟩ []) ⟨hidle, hq⟩
  have hcode : t.status.code = .ok := congrArg StatusRegs.code hstatus
  have hback : y.host.holdsBack .chiprst = false := by simp [HostState.holdsBack]
  obtain ⟨hpresenting, r, hrun⟩ :=
    exchange_of_exec p (a := ⟨k, .powerCycle asked :: js, .ready, reply⟩) rfl h hy hback rfl hexec .powerCycled
  have hpresents : b.move p (.caller k)
      = y.presenting ⟨k, .powerCycle asked :: js, .ready, reply⟩ .chiprst .powerCycled :=
    (withCall_job p h (.powerCycle asked) js reply).trans
      ((if_pos ((Bool.or_eq_true _ _).mpr hasked)).trans hpresenting)
  refine ⟨congrArg System.engine hpresents, t, hexec, hcode, ?_⟩
  rw [run_cons, hpresents, hrun, if_pos hcode]
  rfl

end

/-! ### From the granted ATTACH to the load (R285 steps 4 and 5, R296) -/

section
variable (p : Params) {y : System} {k : Nat} (h : y.activity k = none) (hy : y.Clear) (cycle : Bool) (q : Properties)
  (js : List Job) (reply : Answer)
include h hy

/-- After a granted ATTACH the power-cycle comes before the load. -/
theorem powerCycle_before_load (hidle : y.engine.eng = .idle) (hcycle : cycle = true ∨ y.host.desynced = true) :
    let z := y.withCall ⟨k, .powerCycle cycle :: .load q :: js, .ready, reply⟩
    let w := z.run p [.caller k, .engine, .caller k, .caller k]
    (z.move p (.caller k)).engine = z.engine.hostAct (.present ⟨callerRequester k, encode .chiprst⟩) ∧
      exec .chiprst (z.engine.serve ⟨callerRequester k, encode .chiprst⟩ []) = .next w.engine ∧
      w.engine.status.code = .ok ∧ w.host.desynced = false ∧ w.host.settings = q.settings p.defaults := by
  intro z w
  obtain ⟨hpresents, t, hexec, hcode, hrun⟩ := withCall_powerCycle p h (.load q :: js) reply hcycle hy hidle
  have hw : w = _ := (congrArg (System.move p · (.caller k)) hrun).trans
    (withCall_load p (y := { y with host := { y.host with desynced := false }, engine := t }) h js reply q hy.lock)
  rw [hw]
  exact ⟨hpresents, hexec, hcode, rfl, rfl⟩

/-- Neither asked for nor needed, it is left out. -/
theorem load_without_powerCycle (hcycle : ¬ (cycle = true ∨ y.host.desynced = true)) :
    let z := y.withCall ⟨k, .powerCycle cycle :: .load q :: js, .ready, reply⟩
    let w := z.run p [.caller k, .caller k]
    w.host.settings = q.settings p.defaults ∧ w.engine = z.engine := by
  intro z w
  have hskips := withCall_powerCycle_skips p h (.load q :: js) reply hcycle
  have hw : w = _ := (congrArg (System.move p · (.caller k)) hskips).trans (withCall_load p h js reply q hy.lock)
  rw [hw]
  exact ⟨rfl, rfl⟩

end

/-! ### The call -/

/-- What the bring-up does after the granted ATTACH (R285 steps 4 to 7). -/
def jobsAfterAttach (p : Params) (cycle : Bool) (q : Properties) : List Job :=
  .powerCycle cycle :: .load q :: .apply .same :: if p.variant = .extended then [.startLoop] else []

/-- The jobs of `probe`, up to ATTACH (R285 steps 1 to 3) and after it. -/
theorem probe_jobs (p : Params) (g : HostState) (c : ConfigRegs) (cycle : Bool) (q : Properties) :
    Call.jobs p g (.probe c cycle q) = .engineReset :: .configure c ::
      .command .attach (.createHandle (q.bufferSize.getD p.bufCap)) :: jobsAfterAttach p cycle q := rfl

/-- A refused ATTACH leaves nothing of the bring-up (R235). -/
theorem jobsAfterAttach_always (p : Params) (cycle : Bool) (q : Properties) :
    (jobsAfterAttach p cycle q).filter Job.always = [] := by
  unfold jobsAfterAttach
  split <;> rfl

/-- `y` after the engine reset of a bring-up, with `cfg` in the configuration registers. -/
def System.broughtDown (p : Params) (y : System) (cfg : ConfigRegs) : System :=
  { y.strike p (y.engine.hostAct .engineReset) with
    engine := { y.engine.hostAct .engineReset with waiting := [], cfg := cfg } }

theorem broughtDown_clear (p : Params) {y : System} (hq : y.engine.hostIn = []) (cfg : ConfigRegs) :
    (y.broughtDown p cfg).Clear :=
  ⟨rfl, ⟨Eng.noConfusion, hq⟩, rfl⟩

/-- An engine reset asks the platform nothing (log 12). -/
theorem broughtDown_granted (p : Params) (y : System) (cfg : ConfigRegs) :
    (y.broughtDown p cfg).engine.granted = y.engine.granted := rfl

/-- The chip is out of step after the reset of a bring-up if it was before, or if that reset cut an operation off
(R296). -/
theorem broughtDown_desynced (p : Params) (y : System) (cfg : ConfigRegs) :
    (y.broughtDown p cfg).host.desynced = true ↔ y.host.desynced = true ∨ y.engine.eng = .busy := by
  simp [System.broughtDown]

theorem broughtDown_activity (p : Params) {y : System} {k : Nat} (h : y.activity k = none) (cfg : ConfigRegs) :
    (y.broughtDown p cfg).activity k = none :=
  strike_activity_none p h (y.engine.hostAct .engineReset)

/-- Made and moved twice, `probe` has reset the engine and written the registers. -/
theorem probe_configures (p : Params) {y : System} {k : Nat} (h : y.activity k = none) (hh : y.host.handle = false)
    (c : ConfigRegs) (cycle : Bool) (q : Properties) :
    ∃ cfg, (∀ n, cfg.get n = c.get n) ∧ y.run p [.call k (.probe c cycle q), .caller k, .caller k]
      = (y.broughtDown p cfg).withCall
          ⟨k, .command .attach (.createHandle (q.bufferSize.getD p.bufCap)) :: jobsAfterAttach p cycle q, .ready,
            .answered .ok⟩ := by
  have hrej : Call.rejection y.host (.probe c cycle q) = none := if_neg (ne_true_of_eq_false hh)
  have hfree : (y.strike p (y.engine.hostAct .engineReset)).engine.eng ≠ .busy := Eng.noConfusion
  obtain ⟨cfg, hset, hget⟩ := setRegisters_spec _ c hfree
  refine ⟨cfg, hget, ?_⟩
  rw [run_cons, run_cons, run_cons, run_nil, begin_fresh p h hrej, probe_jobs, withCall_engineReset p h _ _ hh,
    withCall_configure p (strike_activity_none p h _) _ _ c hfree, hset]
  rfl

/-- Settles O60: the moves up to ATTACH and its answer; granted, the power-cycle when it is asked for or needed, and the
load; refused, the answer. -/
theorem probeFollowsTheBringUpOrder : Obligations.ProbeFollowsTheBringUpOrder := by
  intro y p k c cycle q hk hh hq z
  obtain ⟨cfg, hget, hconfigures⟩ := probe_configures p hk hh c cycle q
  have hdown := broughtDown_activity p hk cfg
  obtain ⟨t, hcfg, hwaiting, hhostIn, hresp, heng, hattach⟩ :=
    withCall_attach p hdown (jobsAfterAttach p cycle q) (.answered .ok) (q.bufferSize.getD p.bufCap)
      (broughtDown_clear p hq cfg) rfl
  rw [broughtDown_granted] at heng hattach
  have hz : z = _ := (congrArg (fun w : System => w.run p [.caller k, .engine, .caller k]) hconfigures).trans hattach
  have hengine : z.engine = t := by rw [hz]; split <;> rfl
  refine ⟨fun n => by rw [hengine, hcfg]; exact hget n, by rw [hengine, hresp]; rfl, ?_⟩
  split
  · next hg =>
    rw [if_pos hg] at hz heng
    have hattached : ((y.broughtDown p cfg).attached p (q.bufferSize.getD p.bufCap) t).activity k = none := hdown
    have hclear : ((y.broughtDown p cfg).attached p (q.bufferSize.getD p.bufCap) t).Clear :=
      ⟨rfl, ⟨ne_of_eq_of_ne heng Eng.noConfusion, hhostIn⟩, hwaiting⟩
    refine ⟨hengine ▸ heng, ?_⟩
    rw [hz]
    refine ⟨rfl, rfl, rfl,
      ⟨_, withCall_activity (a := ⟨k, jobsAfterAttach p cycle q, .ready, .answered .ok⟩) hattached⟩, ?_⟩
    have hcycles := or_congr_right (a := cycle = true) (broughtDown_desynced p y cfg)
    split
    · next hcycle => exact powerCycle_before_load p hattached hclear cycle q _ _ heng (hcycles.mpr hcycle)
    · next hcycle => exact load_without_powerCycle p hattached hclear cycle q _ _ (mt hcycles.mp hcycle)
  · next hg =>
    rw [if_neg hg] at hz heng
    refine ⟨hengine ▸ heng, ?_⟩
    rw [hz, jobsAfterAttach_always]
    exact ⟨rfl, congrArg System.answers (withCall_answering p hdown (y.broughtDown p cfg).host t _)⟩

end Sys2Proof.Facade
end
